-- ==== Sys2Proof/Word.lean ====
section
/-! DEFINITION. The two widths of the UPE's data (00_scope.md R10). -/

namespace Sys2Proof

/-- A data byte, register byte, frame byte or buffer byte (R10, R11). -/
abbrev Byte := BitVec 8

/-- A 16-bit register, host write value or buffer index (R10, R20). -/
abbrev Half := BitVec 16

end Sys2Proof
end

