-- ==== Sys2Proof/Syntax.lean ====
section
/-! DEFINITION. The instructions of the UPE: the four command words (30_encoding.md R83), the host operations
(30_encoding.md R92) and the host registers they name (10_state.md R20). -/

namespace Sys2Proof

/-- The four legal command codes (30_encoding.md R83). -/
inductive Command where
  | reset
  | getSsid
  | getHosts
  | getDevSlots
deriving DecidableEq, Repr

/-- The host registers (10_state.md R20). `unassigned n` is a number the map gives no register. -/
inductive Reg where
  | ctrl
  | cmd
  | arg1
  | arg2
  | arg3
  | arg4
  | status
  | lcmd
  | expChk
  | rcvChk
  | rxCount
  | respLen
  | payLen
  | frame (k : Fin 7)
  | hostPresent
  | hostNlen (k : Fin 8)
  | devHost (k : Fin 8)
  | devMode (k : Fin 8)
  | devFlen (k : Fin 8)
  | devEmpty
  | unassigned (n : Byte)
deriving DecidableEq, Repr

/-- The instructions: one constructor per row of spec/opcode_table.json. -/
inductive Instr where
  /-- RESET, code 0xFF (45_commands.md R185). -/
  | reset (a1 a2 a3 a4 : Byte)
  /-- GET_SSID, code 0xFE (45_commands.md R186). -/
  | getSsid (a1 a2 a3 a4 : Byte)
  /-- GET_HOSTS, code 0xF4 (45_commands.md R187). -/
  | getHosts (a1 a2 a3 a4 : Byte)
  /-- GET_DEVSLOTS, code 0xF2 (45_commands.md R188). -/
  | getDevSlots (a1 a2 a3 a4 : Byte)
  /-- WR r, v (45_commands.md R181). -/
  | wr (r : Reg) (v : Half)
  /-- RD r (45_commands.md R182). -/
  | rd (r : Reg)
  /-- RDB i (20_memory.md R61). -/
  | rdb (i : Half)
  /-- op = 11, no operation (30_encoding.md R92). -/
  | nop
deriving DecidableEq, Repr

end Sys2Proof
end

