-- ==== Sys2Proof/WellFormed.lean ====
section
/-! DEFINITION. Which instruction terms stand for an instruction. Operand widths are in the types; the one check
left is that a register written as `unassigned n` is a number the register map gives no register. -/

namespace Sys2Proof

/-- The register numbers that name a register (10_state.md R20). -/
def assignedNumber (n : Byte) : Bool :=
  let k := n.toNat
  k ≤ 0x0C || (0x10 ≤ k && k ≤ 0x16) || (0x20 ≤ k && k ≤ 0x28) || (0x30 ≤ k && k ≤ 0x48)

/-- A register term names each number in one way. -/
def Reg.wellFormed : Reg → Bool
  | .unassigned n => !assignedNumber n
  | .ctrl | .cmd | .arg1 | .arg2 | .arg3 | .arg4 | .status | .lcmd | .expChk | .rcvChk | .rxCount | .respLen
  | .payLen | .frame _ | .hostPresent | .hostNlen _ | .devHost _ | .devMode _ | .devFlen _ | .devEmpty => true

/-- Every value of every operand is legal (10_state.md R22, R23; 30_encoding.md R82, R92), so only the register
term is checked. -/
def Instr.wellFormed : Instr → Bool
  | .wr r _ => r.wellFormed
  | .rd r => r.wellFormed
  | .reset .. | .getSsid .. | .getHosts .. | .getDevSlots .. | .rdb _ | .nop => true

end Sys2Proof
end

