-- ==== Sys2Proof/Decode.lean ====
section
/-! DEFINITION. The command map, the two decoders (command word CW, host operation word HOST32) and the encoder
(30_encoding.md R80 to R84, R92). -/

namespace Sys2Proof

/-- The code of a command (30_encoding.md R83). -/
def Command.code : Command → Byte
  | .reset => 0xFF
  | .getSsid => 0xFE
  | .getHosts => 0xF4
  | .getDevSlots => 0xF2

/-- Exact match of all 8 bits of the code (30_encoding.md R81); any other code is illegal (R84). -/
def Command.ofCode (c : Byte) : Option Command :=
  if c = 0xFF then some .reset
  else if c = 0xFE then some .getSsid
  else if c = 0xF4 then some .getHosts
  else if c = 0xF2 then some .getDevSlots
  else none

/-- The command word of a command with its four arguments (30_encoding.md R80). -/
def Command.instr : Command → (a1 a2 a3 a4 : Byte) → Instr
  | .reset => .reset
  | .getSsid => .getSsid
  | .getHosts => .getHosts
  | .getDevSlots => .getDevSlots

/-- RESP_LEN of a command (30_encoding.md R83). -/
def Command.respLen : Command → Half
  | .reset => 0
  | .getSsid => 100
  | .getHosts => 259
  | .getDevSlots => 307

/-- RSP of a command (30_encoding.md R83). -/
def Command.expectsResponse : Command → Bool
  | .reset => false
  | .getSsid | .getHosts | .getDevSlots => true

/-- The register a number names (10_state.md R20). -/
def Reg.ofNumber (n : Byte) : Reg :=
  let k := n.toNat
  if k = 0x00 then .ctrl
  else if k = 0x01 then .cmd
  else if k = 0x02 then .arg1
  else if k = 0x03 then .arg2
  else if k = 0x04 then .arg3
  else if k = 0x05 then .arg4
  else if k = 0x06 then .status
  else if k = 0x07 then .lcmd
  else if k = 0x08 then .expChk
  else if k = 0x09 then .rcvChk
  else if k = 0x0A then .rxCount
  else if k = 0x0B then .respLen
  else if k = 0x0C then .payLen
  else if h : 0x10 ≤ k ∧ k ≤ 0x16 then .frame ⟨k - 0x10, by omega⟩
  else if k = 0x20 then .hostPresent
  else if h : 0x21 ≤ k ∧ k ≤ 0x28 then .hostNlen ⟨k - 0x21, by omega⟩
  else if h : 0x30 ≤ k ∧ k ≤ 0x37 then .devHost ⟨k - 0x30, by omega⟩
  else if h : 0x38 ≤ k ∧ k ≤ 0x3F then .devMode ⟨k - 0x38, by omega⟩
  else if h : 0x40 ≤ k ∧ k ≤ 0x47 then .devFlen ⟨k - 0x40, by omega⟩
  else if k = 0x48 then .devEmpty
  else .unassigned n

/-- The number of a register (10_state.md R20). -/
def Reg.number : Reg → Byte
  | .ctrl => 0x00
  | .cmd => 0x01
  | .arg1 => 0x02
  | .arg2 => 0x03
  | .arg3 => 0x04
  | .arg4 => 0x05
  | .status => 0x06
  | .lcmd => 0x07
  | .expChk => 0x08
  | .rcvChk => 0x09
  | .rxCount => 0x0A
  | .respLen => 0x0B
  | .payLen => 0x0C
  | .frame k => BitVec.ofNat 8 (0x10 + k.val)
  | .hostPresent => 0x20
  | .hostNlen k => BitVec.ofNat 8 (0x21 + k.val)
  | .devHost k => BitVec.ofNat 8 (0x30 + k.val)
  | .devMode k => BitVec.ofNat 8 (0x38 + k.val)
  | .devFlen k => BitVec.ofNat 8 (0x40 + k.val)
  | .devEmpty => 0x48
  | .unassigned n => n

/-- An encoded instruction: a 40-bit command word (30_encoding.md R80) or a 32-bit host operation word (R92). -/
inductive Encoded where
  | cw (w : BitVec 40)
  | host32 (w : BitVec 32)
deriving DecidableEq, Repr

/-- Why a word is no instruction. `illegalCode` is the spec's: a start request with that code does R189. -/
inductive DecodeError where
  | illegalCode (c : Byte)
deriving DecidableEq, Repr

/-- Fields of a command word: the code in [7:0], a1 to a4 above it (30_encoding.md R80). -/
def decodeCommandWord (w : BitVec 40) : Except DecodeError Instr :=
  let c := w.extractLsb' 0 8
  match Command.ofCode c with
  | some k => .ok (k.instr (w.extractLsb' 8 8) (w.extractLsb' 16 8) (w.extractLsb' 24 8) (w.extractLsb' 32 8))
  | none => .error (.illegalCode c)

/-- A host operation word: op in [31:30], [29:24] ignored, reg in [23:16], val in [15:0] (30_encoding.md R92).
Every word is one of the four operations. -/
def decodeHostWord (w : BitVec 32) : Instr :=
  let op := w.extractLsb' 30 2
  let reg := Reg.ofNumber (w.extractLsb' 16 8)
  let val := w.extractLsb' 0 16
  if op = 0b00 then .wr reg val
  else if op = 0b01 then .rd reg
  else if op = 0b10 then .rdb val
  else .nop

/-- The decoder, total on words of either format. -/
def decode : Encoded → Except DecodeError Instr
  | .cw w => decodeCommandWord w
  | .host32 w => .ok (decodeHostWord w)

/-- A command word from its code and arguments (30_encoding.md R80). -/
def commandWord (c a1 a2 a3 a4 : Byte) : BitVec 40 := a4 ++ a3 ++ a2 ++ a1 ++ c

/-- A host operation word with its reserved bits 0 (30_encoding.md R92). -/
def hostWord (op : BitVec 2) (reg : Byte) (val : Half) : BitVec 32 := op ++ (0#6) ++ reg ++ val

/-- The encoder: reserved and ignored fields are written 0 (30_encoding.md R92). -/
def encode : Instr → Encoded
  | .reset a1 a2 a3 a4 => .cw (commandWord Command.reset.code a1 a2 a3 a4)
  | .getSsid a1 a2 a3 a4 => .cw (commandWord Command.getSsid.code a1 a2 a3 a4)
  | .getHosts a1 a2 a3 a4 => .cw (commandWord Command.getHosts.code a1 a2 a3 a4)
  | .getDevSlots a1 a2 a3 a4 => .cw (commandWord Command.getDevSlots.code a1 a2 a3 a4)
  | .wr r v => .host32 (hostWord 0b00 r.number v)
  | .rd r => .host32 (hostWord 0b01 r.number 0)
  | .rdb i => .host32 (hostWord 0b10 0 i)
  | .nop => .host32 (hostWord 0b11 0 0)

/-- The words an assembler writes: a legal code, reserved bits 0, and the fields an operation ignores written 0
(30_encoding.md R84, R92; for op = 11 every bit below, log entry 14). -/
def Encoded.wellFormed : Encoded → Bool
  | .cw w => (Command.ofCode (w.extractLsb' 0 8)).isSome
  | .host32 w =>
    w.extractLsb' 24 6 = 0 &&
    (w.extractLsb' 30 2 = 0b00 ||
     (w.extractLsb' 30 2 = 0b01 && w.extractLsb' 0 16 = 0) ||
     (w.extractLsb' 30 2 = 0b10 && w.extractLsb' 16 8 = 0) ||
     (w.extractLsb' 30 2 = 0b11 && w.extractLsb' 0 24 = 0))

/-- The instruction of a word numbered as spec/opcode_table.json numbers it. The HOST32 rows have 32 bits; a row
of another length up to 40 bits is a command word whose bits above `nbits` are 0 (log entry 15). -/
def decodeTableWord (nbits w : Nat) : Option Instr :=
  if nbits = 32 then some (decodeHostWord (BitVec.ofNat 32 w))
  else if nbits ≤ 40 then
    match decodeCommandWord (BitVec.ofNat 40 (w % 2 ^ nbits)) with
    | .ok i => some i
    | .error _ => none
  else none

end Sys2Proof
end

