-- ==== Sys2Proof/Config.lean ====
section
/-! DEFINITION. What an implementation fixes (00_scope.md R8, R9) and the free values: answers of the serial
environment (20_memory.md R67) and the response buffer's content after block reset (20_memory.md R62). -/

namespace Sys2Proof

/-- What one Rd event answers (20_memory.md R67): a byte, or no data (90_conflicts.md C7). -/
inductive ReadAnswer where
  | byte (b : Byte)
  | noData
deriving DecidableEq, Repr, Inhabited

/-- What the serial environment answers in one receive step: the Poll answer, a true one with the answer of the
Rd that follows it in the same step (42_receiver.md R123, R132). -/
inductive SerialAnswer where
  | notReady
  | ready (r : ReadAnswer)
deriving DecidableEq, Repr, Inhabited

/-- P_MAX_WAIT, an integer at least 1 (00_scope.md R8). A budget of 0 is refused: it cannot be built. -/
structure WaitBudget where
  polls : Nat
  positive : 1 ≤ polls
deriving DecidableEq, Repr

/-- The budget of a number of polls; 0 is refused (00_scope.md R8). -/
def WaitBudget.ofNat? (n : Nat) : Option WaitBudget :=
  if h : 1 ≤ n then some ⟨n, h⟩ else none

/-- P_PORT_CFG: a token the UPE passes on and never interprets (00_scope.md R9). -/
abbrev PortCfg := Nat

/-- The implementation parameters, fixed before the machine runs (00_scope.md R8, R9; 70_reset_and_hazards.md R233).
No step changes them. -/
structure Params where
  maxWait : WaitBudget
  portCfg : PortCfg
deriving DecidableEq, Repr

/-- P_MAX_WAIT less one. FREE VALUE, log entry 6: the spec gives P_MAX_WAIT no value beyond `P_MAX_WAIT >= 1`. -/
opaque Config.maxWaitLessOne : Nat

/-- P_PORT_CFG. FREE VALUE, log entry 6. -/
opaque Config.portCfg : PortCfg

/-- The environment's answer number `n`, once the answers held in the state are used up.
FREE VALUE, log entry 4 (20_memory.md R67). -/
opaque Config.serialDraw : Nat → SerialAnswer

/-- What RB[index] holds after block reset number `epoch` until the receiver writes it.
FREE VALUE, log entry 5 (20_memory.md R62). -/
opaque Config.rbUnspecified : (epoch : Nat) → (index : Nat) → Byte

/-- The parameters of the machine at hand. -/
def Config.params : Params where
  maxWait := ⟨Config.maxWaitLessOne + 1, Nat.le_add_left 1 _⟩
  portCfg := Config.portCfg

end Sys2Proof
end

