-- ==== Sys2Proof/Machine/State.lean ====
section
/-! DEFINITION. The machine's state (10_state.md), its faults and refusals, and the state after block reset
(10_state.md R54). -/

namespace Sys2Proof.Machine

/-- The sequencer's phase e.PH (10_state.md R40, R41). -/
inductive Phase where
  | idle
  | cfgIn
  | tx
  | rx
  | val
  | dec
  | cfgOut
deriving DecidableEq, Repr

/-- The stored bits of STATUS (10_state.md R24). DV is not stored (R29) and bit 7 is reserved. The host cannot
write STATUS, so no reserved bit has to survive a write. -/
structure Status where
  busy : Bool
  done : Bool
  pv : Bool
  cv : Bool
  ill : Bool
  rsp : Bool
deriving DecidableEq, Repr

/-- FRAME0..FRAME6 under the source's field names (10_state.md R38; 30_encoding.md R85). -/
structure Frame where
  deviceId : Byte
  command : Byte
  arg1 : Byte
  arg2 : Byte
  arg3 : Byte
  arg4 : Byte
  checksum : Byte
deriving DecidableEq, Repr

/-- Eight like registers, one per slot (N_SLOTS, 00_scope.md R7). -/
structure Lanes where
  l0 : Byte
  l1 : Byte
  l2 : Byte
  l3 : Byte
  l4 : Byte
  l5 : Byte
  l6 : Byte
  l7 : Byte
deriving DecidableEq, Repr

/-- The decoder result registers (10_state.md R46 to R51). -/
structure DecoderRegs where
  hostPresent : Byte
  hostNlen : Lanes
  devHost : Lanes
  devMode : Lanes
  devFlen : Lanes
  devEmpty : Byte
deriving DecidableEq, Repr

/-- The response buffer RB: a list of (index, byte), indices strictly rising. An unlisted index holds no byte yet:
its content is unspecified (20_memory.md R62). -/
abbrev Memory := List Host.Cell

/-- The outward events (20_memory.md R66), Poll and Rd with their answers. -/
inductive Event where
  | cfgEnter (cfg : PortCfg)
  | tx (b : Byte)
  | poll (available : Bool)
  | rd (answer : ReadAnswer)
  | cfgExit
deriving DecidableEq, Repr

/-- One place in the total order of host operations and engine steps (20_memory.md R70): the host issues a HOST32
word, the engine takes its step, or `rst` changes level (70_reset_and_hazards.md R230). -/
inductive Turn where
  | host (w : BitVec 32)
  | engine
  | assertRst
  | releaseRst
deriving DecidableEq, Repr

/-- The machine's state. The first group is the spec's; the last group is the model's own (log entries 2, 4 to 7). -/
@[ext]
structure State where
  /-- CMD (10_state.md R22). -/
  cmd : Byte
  /-- ARG1 (10_state.md R23). -/
  arg1 : Byte
  /-- ARG2 (10_state.md R23). -/
  arg2 : Byte
  /-- ARG3 (10_state.md R23). -/
  arg3 : Byte
  /-- ARG4 (10_state.md R23). -/
  arg4 : Byte
  /-- STATUS (10_state.md R24). -/
  status : Status
  /-- LCMD (10_state.md R32). -/
  lcmd : Byte
  /-- EXP_CHK (10_state.md R33). -/
  expChk : Byte
  /-- RCV_CHK (10_state.md R34). -/
  rcvChk : Byte
  /-- RX_COUNT (10_state.md R35). -/
  rxCount : Half
  /-- RESP_LEN (10_state.md R36). -/
  respLen : Half
  /-- PAY_LEN (10_state.md R37). -/
  payLen : Half
  /-- FRAME0..FRAME6 (10_state.md R38). -/
  frame : Frame
  /-- The decoder result registers (10_state.md R46 to R51). -/
  dec : DecoderRegs
  /-- e.PH (10_state.md R41). -/
  ph : Phase
  /-- e.TXI (10_state.md R42). -/
  txi : BitVec 3
  /-- e.RXI (10_state.md R43). -/
  rxi : Half
  /-- e.WCNT, which cannot wrap (10_state.md R44; 00_scope.md R10). -/
  wcnt : Nat
  /-- RB[0..306] (20_memory.md R60). -/
  rb : Memory
  /-- The level of the block reset input (70_reset_and_hazards.md R230). -/
  rst : Bool
  /-- P_MAX_WAIT and P_PORT_CFG, fixed before the machine runs (00_scope.md R8, R9). -/
  params : Params
  /-- The model's: what the host, the engine and `rst` do next, in order. When it is empty the engine runs alone. -/
  agenda : List Turn
  /-- The model's: the serial environment's next answers. -/
  answers : List SerialAnswer
  /-- The model's: how many answers were drawn from `Config.serialDraw`. -/
  draws : Nat
  /-- The model's: how many block resets have made RB unspecified. -/
  rbEpoch : Nat
  /-- The model's: the outward events emitted so far, oldest first. -/
  trace : List Event
  /-- The model's: the values returned to the host's RD and RDB so far, oldest first. -/
  hostReads : List Half
deriving DecidableEq, Repr

/-- Why a step stops. No state that a run from reset reaches raises one of these (log entry 9): each is SAFE, a stop
where the spec gives no effect. -/
inductive Fault where
  /-- Raised by an access to an index of RB outside 0..306, which does not exist (20_memory.md R60). Safe. -/
  | rbOutside
  /-- Raised by a TX step with e.TXI = 7, where there is no frame byte (10_state.md R42). Safe. -/
  | frameOutside
  /-- Raised by a receive step at a position that is not below RESP_LEN (42_receiver.md R121). Safe. -/
  | receiverOutside
  /-- Raised by a VAL step with RESP_LEN < 3 or RX_COUNT > RESP_LEN, where the validator is not defined
  (43_validator.md R140, R149). Safe. -/
  | validatorUndefined
deriving DecidableEq, Repr

/-- Why an instruction has no meaning. No arm of exec uses it: every instruction has its meaning. -/
inductive Refusal where
  /-- Would be raised by exec's arm for an instruction not modelled yet. Safe. -/
  | notModelled (mnemonic : String)
deriving DecidableEq, Repr

/-- STATUS = 0x00 (10_state.md R54). -/
def Status.zero : Status := ⟨false, false, false, false, false, false⟩

/-- FRAME0..FRAME6 = 0x00 (10_state.md R54). -/
def Frame.zero : Frame := ⟨0, 0, 0, 0, 0, 0, 0⟩

/-- Eight registers at 0x00. -/
def Lanes.zero : Lanes := ⟨0, 0, 0, 0, 0, 0, 0, 0⟩

/-- All decoder registers at 0x00 (10_state.md R54; 44_decoders.md R173). -/
def DecoderRegs.zero : DecoderRegs := ⟨0, .zero, .zero, .zero, .zero, 0⟩

/-- The machine right after block reset, `rst` just released (10_state.md R54; 70_reset_and_hazards.md R230). -/
def State.reset : State where
  cmd := 0
  arg1 := 0
  arg2 := 0
  arg3 := 0
  arg4 := 0
  status := .zero
  lcmd := 0
  expChk := 0
  rcvChk := 0
  rxCount := 0
  respLen := 0
  payLen := 0
  frame := .zero
  dec := .zero
  ph := .idle
  txi := 0
  rxi := 0
  wcnt := 0
  rb := []
  rst := false
  params := Config.params
  agenda := []
  answers := []
  draws := 0
  rbEpoch := 0
  trace := []
  hostReads := []

end Sys2Proof.Machine
end

