-- ==== Sys2Proof/Machine/Ops.lean ====
section
/-! DEFINITION. The shared operations over the response buffer, the outward events, the environment's answers and
the host's side (20_memory.md). The UPE has no exception entry and no return from one (60_exceptions.md R210,
R216), so none stands here; block reset (70_reset_and_hazards.md R230) does. -/

namespace Sys2Proof.Machine

/-- DEVICE_ID (00_scope.md R7). -/
def deviceId : Byte := 0x70

/-- 'A' (00_scope.md R7). PRESUMED hex value, log entry 19. -/
def statusA : Byte := 0x41

/-- 'C' (00_scope.md R7). PRESUMED hex value, log entry 19. -/
def statusC : Byte := 0x43

/-- RB_SIZE (00_scope.md R7). -/
def rbSize : Nat := 307

/-- N_SLOTS (00_scope.md R7). -/
def numSlots : Nat := 8

/-- HOST_SLOT_LEN (00_scope.md R7). -/
def hostSlotLen : Nat := 32

/-- DEV_SLOT_LEN (00_scope.md R7). -/
def devSlotLen : Nat := 38

/-- DEV_FNAME_LEN (00_scope.md R7). -/
def devFnameLen : Nat := 36

/-! ### The response buffer -/

/-- The byte listed at an index, if one is. -/
def Memory.lookup : Memory → Nat → Option Byte
  | [], _ => none
  | (a, b) :: m, x => if a = x then some b else Memory.lookup m x

/-- Lists `v` at index `x`, keeping the indices strictly rising. -/
def Memory.write : Memory → Nat → Byte → Memory
  | [], x, v => [(x, v)]
  | (a, b) :: m, x, v =>
    if x < a then (x, v) :: (a, b) :: m
    else if x = a then (x, v) :: m
    else (a, b) :: Memory.write m x v

/-- Writes bytes at consecutive indices, in index order (20_memory.md R60). -/
def Memory.writeBytes : Memory → Nat → List Byte → Memory
  | m, _, [] => m
  | m, a, b :: bs => Memory.writeBytes (Memory.write m a b) (a + 1) bs

/-- Indices strictly rising from `lo` on, none outside RB. -/
def Memory.wfFrom : Nat → Memory → Bool
  | _, [] => true
  | lo, (a, _) :: m => decide (lo ≤ a) && decide (a < rbSize) && Memory.wfFrom (a + 1) m

/-- The canonical form. An unlisted index reads as a free value (20_memory.md R62), so no entry can be one an unlisted
index would read as. -/
def Memory.wf (m : Memory) : Bool := Memory.wfFrom 0 m

/-- RB[a]: the listed byte, or the unspecified content since the last block reset (20_memory.md R62, log entry 5). -/
def State.rbByte (s : State) (a : Nat) : Byte := (s.rb.lookup a).getD (Config.rbUnspecified s.rbEpoch a)

/-- RB[a..a+n). -/
def State.rbSlice (s : State) (a n : Nat) : List Byte := (List.range n).map fun k => s.rbByte (a + k)

/-- MemRead(a, n), defined only for a + n ≤ 307 (20_memory.md R60). -/
def State.memRead (s : State) (a n : Nat) : Option (List Byte) :=
  if a + n ≤ rbSize then some (s.rbSlice a n) else none

/-- RB[a..) takes the bytes `bs`, in index order. -/
def State.fill (s : State) (a : Nat) (bs : List Byte) : State := { s with rb := s.rb.writeBytes a bs }

/-- MemWrite(a, n, v), defined only for a + n ≤ 307 (20_memory.md R60). -/
def State.memWrite (s : State) (a : Nat) (bs : List Byte) : Option State :=
  if a + bs.length ≤ rbSize then some (s.fill a bs) else none

/-! ### Events, answers, host reads -/

/-- Emit(ev) (00_scope.md R12): the event leaves the UPE after those before it (20_memory.md R72). -/
def State.emit (s : State) (e : Event) : State := { s with trace := s.trace ++ [e] }

/-- Emits events in order. -/
def State.emitAll (s : State) (es : List Event) : State := { s with trace := s.trace ++ es }

/-- The answer the environment gives in this receive step (20_memory.md R67): the next one the state holds, or a free
draw when it holds none (log entry 4). -/
def State.answer (s : State) : SerialAnswer :=
  match s.answers with
  | a :: _ => a
  | [] => Config.serialDraw s.draws

/-- The state after one answer is used. -/
def State.useAnswer (s : State) : State :=
  match s.answers with
  | _ :: rest => { s with answers := rest }
  | [] => { s with draws := s.draws + 1 }

/-- A host read returns `v`, zero-extended to 16 bits (10_state.md R20); nothing else changes (20_memory.md R68). -/
def State.deliver (s : State) (v : Half) : State := { s with hostReads := s.hostReads ++ [v] }

/-- e.PH <- phase (00_scope.md R12). -/
def State.enter (s : State) (ph : Phase) : State := { s with ph := ph }

/-! ### Block reset -/

/-- A host operation has no effect while `rst` is asserted (70_reset_and_hazards.md R230). -/
def whileReleased (s : State) (out : Host.Outcome State Fault Refusal) : Host.Outcome State Fault Refusal :=
  if s.rst then .next s else out

/-- `rst` is asserted (70_reset_and_hazards.md R230, R231): every register and hidden element takes its reset value,
RB becomes unspecified, no event is emitted. What is outside the UPE stays (log entry 12). -/
def State.blockReset (s : State) : State :=
  { State.reset with
    rst := true
    params := s.params
    agenda := s.agenda
    answers := s.answers
    draws := s.draws
    rbEpoch := s.rbEpoch + 1
    trace := s.trace
    hostReads := s.hostReads }

end Sys2Proof.Machine
end

