-- ==== Sys2Proof/Machine/Flags.lean ====
section
/-! DEFINITION. The STATUS register as a byte (10_state.md R24 to R31) and per-slot bit masks (10_state.md R46, R51). -/

namespace Sys2Proof.Machine

/-- STATUS.DV reads PV AND CV (10_state.md R29). -/
def Status.dv (st : Status) : Bool := st.pv && st.cv

/-- STATUS, from the reserved bit 7 down to BUSY in bit 0 (10_state.md R24). -/
def Status.byte (st : Status) : Byte :=
  0#1 ++ BitVec.ofBool st.rsp ++ BitVec.ofBool st.ill ++ BitVec.ofBool st.dv ++ BitVec.ofBool st.cv
    ++ BitVec.ofBool st.pv ++ BitVec.ofBool st.done ++ BitVec.ofBool st.busy

/-- Bit i is `f i`, for the eight slots (44_decoders.md R164, R170). -/
def slotMask (f : Nat → Bool) : Byte :=
  BitVec.ofBool (f 7) ++ BitVec.ofBool (f 6) ++ BitVec.ofBool (f 5) ++ BitVec.ofBool (f 4)
    ++ BitVec.ofBool (f 3) ++ BitVec.ofBool (f 2) ++ BitVec.ofBool (f 1) ++ BitVec.ofBool (f 0)

/-- Lane i is `f i`, for the eight slots (44_decoders.md R163, R167). -/
def slotLanes (f : Nat → Byte) : Lanes := ⟨f 0, f 1, f 2, f 3, f 4, f 5, f 6, f 7⟩

end Sys2Proof.Machine
end

