-- ==== Sys2Proof/Machine/Operands.lean ====
section
/-! DEFINITION. The operand forms: a host register read or stored by name (10_state.md R20, R39; 45_commands.md R181,
R182), and an index of the read window (20_memory.md R61). -/

namespace Sys2Proof.Machine

/-- The register of slot k. -/
def Lanes.get (x : Lanes) (k : Fin 8) : Byte :=
  match k with
  | 0 => x.l0
  | 1 => x.l1
  | 2 => x.l2
  | 3 => x.l3
  | 4 => x.l4
  | 5 => x.l5
  | 6 => x.l6
  | 7 => x.l7

/-- FRAMEk (10_state.md R38). -/
def Frame.get (x : Frame) (k : Fin 7) : Byte :=
  match k with
  | 0 => x.deviceId
  | 1 => x.command
  | 2 => x.arg1
  | 3 => x.arg2
  | 4 => x.arg3
  | 5 => x.arg4
  | 6 => x.checksum

/-- An 8-bit register read as 16 bits (10_state.md R20). -/
def zext16 (b : Byte) : Half := b.setWidth 16

/-- The bits [7:0] an 8-bit register takes of a written value (10_state.md R20). -/
def low8 (v : Half) : Byte := v.setWidth 8

/-- What a read of a host register returns (45_commands.md R182): the whole register zero-extended, 0 for CTRL and
for an unassigned number (10_state.md R21, R39). -/
def State.readRegister (s : State) : Reg → Half
  | .ctrl => 0
  | .cmd => zext16 s.cmd
  | .arg1 => zext16 s.arg1
  | .arg2 => zext16 s.arg2
  | .arg3 => zext16 s.arg3
  | .arg4 => zext16 s.arg4
  | .status => zext16 s.status.byte
  | .lcmd => zext16 s.lcmd
  | .expChk => zext16 s.expChk
  | .rcvChk => zext16 s.rcvChk
  | .rxCount => s.rxCount
  | .respLen => s.respLen
  | .payLen => s.payLen
  | .frame k => zext16 (s.frame.get k)
  | .hostPresent => zext16 s.dec.hostPresent
  | .hostNlen k => zext16 (s.dec.hostNlen.get k)
  | .devHost k => zext16 (s.dec.devHost.get k)
  | .devMode k => zext16 (s.dec.devMode.get k)
  | .devFlen k => zext16 (s.dec.devFlen.get k)
  | .devEmpty => zext16 s.dec.devEmpty
  | .unassigned _ => 0

/-- What a host write stores (45_commands.md R181): CMD and ARG1..ARG4 take bits [7:0]; a read-only register and an
unassigned number ignore it (10_state.md R39). CTRL stores nothing: its START bit is a request (10_state.md R21). -/
def State.storeRegister (s : State) (r : Reg) (v : Half) : State :=
  match r with
  | .cmd => { s with cmd := low8 v }
  | .arg1 => { s with arg1 := low8 v }
  | .arg2 => { s with arg2 := low8 v }
  | .arg3 => { s with arg3 := low8 v }
  | .arg4 => { s with arg4 := low8 v }
  | .ctrl | .status | .lcmd | .expChk | .rcvChk | .rxCount | .respLen | .payLen | .frame _ | .hostPresent
  | .hostNlen _ | .devHost _ | .devMode _ | .devFlen _ | .devEmpty | .unassigned _ => s

/-- RDB(i) (20_memory.md R61): RB[i] when i < RESP_LEN, else 0x00. `none` when RB[i] does not exist (20_memory.md R60),
which takes a RESP_LEN above 307 (10_state.md R36). -/
def State.readWindow (s : State) (i : Half) : Option Byte :=
  if i.toNat < s.respLen.toNat then
    if i.toNat < rbSize then some (s.rbByte i.toNat) else none
  else some 0x00

/-- The START bit of a value written to CTRL (10_state.md R21). -/
def startBit (v : Half) : Bool := v.getLsbD 0

end Sys2Proof.Machine
end

