-- ==== Sys2Proof/Machine/Checksum.lean ====
section
/-! DEFINITION. The checksum generator (40_checksum.md R100). -/

namespace Sys2Proof.Machine

/-- One byte folded into the 16-bit accumulator with end-around carry (40_checksum.md R100). -/
def checksumStep (chk : BitVec 16) (b : Byte) : BitVec 16 :=
  let s := chk + b.setWidth 16
  (s >>> 8) + (s &&& 0xFF)

/-- The accumulator after a byte sequence, from 0 (40_checksum.md R100, R101). -/
def checksumAcc (bs : List Byte) : BitVec 16 := bs.foldl checksumStep 0

/-- checksum(B): the accumulator's low byte, not complemented (40_checksum.md R100). -/
def checksum (bs : List Byte) : Byte := (checksumAcc bs &&& 0xFF).setWidth 8

end Sys2Proof.Machine
end

