-- ==== Sys2Proof/Machine/Encoder.lean ====
section
/-! DEFINITION. The packet encoder (41_encoder.md): frame assembly, and the frame as the wire sees it. -/

namespace Sys2Proof.Machine

/-- The six bytes a frame's checksum covers (41_encoder.md R110). -/
def frameHead (c a1 a2 a3 a4 : Byte) : List Byte := [deviceId, c, a1, a2, a3, a4]

/-- encode(c, a1, a2, a3, a4) (41_encoder.md R110; 30_encoding.md R85). -/
def encodeFrame (c a1 a2 a3 a4 : Byte) : Frame where
  deviceId := deviceId
  command := c
  arg1 := a1
  arg2 := a2
  arg3 := a3
  arg4 := a4
  checksum := checksum (frameHead c a1 a2 a3 a4)

/-- The frame's bytes in wire order (20_memory.md R64; 30_encoding.md R85). -/
def Frame.bytes (x : Frame) : List Byte :=
  [x.deviceId, x.command, x.arg1, x.arg2, x.arg3, x.arg4, x.checksum]

/-- The byte TX sends at index e.TXI; there is none at 7 (10_state.md R42). -/
def Frame.byteAt (x : Frame) (i : BitVec 3) : Option Byte := x.bytes[i.toNat]?

end Sys2Proof.Machine
end

