-- ==== Sys2Proof/Machine/Receiver.lean ====
section
/-! DEFINITION. The timeout-bounded byte receiver (42_receiver.md): the engine's receive step and its pure form. -/

namespace Sys2Proof.Machine

/-- Entering reception (42_receiver.md R120). -/
def State.enterReception (s : State) : State := { s with rxi := 0, wcnt := 0, rxCount := 0, ph := .rx }

/-- What store(i, b) does once RB[i] is written (42_receiver.md R124), with i = e.RXI and L = RESP_LEN. -/
def State.stored (s : State) : State :=
  { s with
    rxCount := s.rxCount + 1
    wcnt := 0
    rxi := s.rxi + 1
    ph := if s.rxi.toNat + 1 = s.respLen.toNat then .val else s.ph }

/-- What abort(i) does once RB[i..L) is filled (42_receiver.md R126). -/
def State.aborted (s : State) : State := { s with wcnt := 0, ph := .val }

/-- A false Poll is counted (42_receiver.md R121). -/
def State.missed (s : State) : State := { s with wcnt := s.wcnt + 1 }

/-- store(i, b) (42_receiver.md R124). -/
def rxStore (b : Byte) (s : State) : Host.Outcome State Fault Refusal :=
  match s.memWrite s.rxi.toNat [b] with
  | none => .fault .rbOutside
  | some t => .next t.stored

/-- abort(i) (42_receiver.md R126): zero-fill RB[i..L) and stop, with i = e.RXI and L = RESP_LEN. -/
def rxAbort (s : State) : Host.Outcome State Fault Refusal :=
  match s.memWrite s.rxi.toNat (List.replicate (s.respLen.toNat - s.rxi.toNat) 0x00) with
  | none => .fault .rbOutside
  | some t => .next t.aborted

/-- A false Poll (42_receiver.md R121, R122): count it, and time out when the count reaches P_MAX_WAIT. -/
def rxMiss (s : State) : Host.Outcome State Fault Refusal :=
  if s.wcnt + 1 = s.params.maxWait.polls then rxAbort s.missed else .next s.missed

/-- The events of one receive step with its answer: one Poll, and one Rd exactly when it answers true
(42_receiver.md R121, R123). -/
def answerEvents : SerialAnswer → List Event
  | .notReady => [.poll false]
  | .ready r => [.poll true, .rd r]

/-- The answer of this receive step is used and its events leave the UPE. -/
def State.heard (s : State) : State := s.useAnswer.emitAll (answerEvents s.answer)

/-- rx_step() (42_receiver.md R121). -/
def rxStep (s : State) : Host.Outcome State Fault Refusal :=
  if s.rxi.toNat < s.respLen.toNat then
    match s.answer with
    | .notReady => rxMiss s.heard
    | .ready (.byte b) => rxStore b s.heard
    | .ready .noData => rxAbort s.heard
  else .fault .receiverOutside

/-- The bytes received and the number of answers used, with `left` positions to fill and `w` false Polls so far at the
first of them, under the budget `m`; `none` when the answers end before reception does. -/
def receiveBytes (m : Nat) : (left w : Nat) → List SerialAnswer → Option (List Byte × Nat)
  | 0, _, _ => some ([], 0)
  | _ + 1, _, [] => none
  | left + 1, w, .notReady :: as =>
    if w + 1 = m then some ([], 1)
    else (receiveBytes m (left + 1) (w + 1) as).map fun r => (r.1, r.2 + 1)
  | _ + 1, _, .ready .noData :: _ => some ([], 1)
  | left + 1, _, .ready (.byte b) :: as => (receiveBytes m left 0 as).map fun r => (b :: r.1, r.2 + 1)

/-- What rx(L, M, A) returns (42_receiver.md R132). -/
structure Reception where
  buffer : List Byte
  count : Nat
  used : Nat
deriving DecidableEq, Repr

/-- rx(L, M, A) (42_receiver.md R132): the buffer with its zero fill, the bytes received, the answers used. -/
def receive (len m : Nat) (as : List SerialAnswer) : Option Reception :=
  (receiveBytes m len 0 as).map fun r =>
    { buffer := r.1 ++ List.replicate (len - r.1.length) 0x00, count := r.1.length, used := r.2 }

end Sys2Proof.Machine
end

