-- ==== Sys2Proof/Machine/Validator.lean ====
section
/-! DEFINITION. The response frame validator (43_validator.md). -/

namespace Sys2Proof.Machine

/-- The validator's result (43_validator.md R140). -/
structure Verdict where
  pv : Bool
  cv : Bool
  expected : Byte
  received : Byte
deriving DecidableEq, Repr

/-- The payload of a response of length `len`: `len - 3` bytes from offset 2 (43_validator.md R144). -/
def payload (buf : List Byte) (len : Nat) : List Byte := (buf.drop 2).take (len - 3)

/-- validate(RB, L, n) (43_validator.md R140 to R143, R147, R148). -/
def validate (buf : List Byte) (len n : Nat) : Verdict :=
  if n < len then ⟨false, false, 0x00, 0x00⟩
  else if buf.getD 0 0 ≠ statusA ∨ buf.getD 1 0 ≠ statusC then ⟨false, false, 0x00, 0x00⟩
  else
    let expected := checksum (payload buf len)
    let received := buf.getD (len - 1) 0
    ⟨true, expected == received, expected, received⟩

end Sys2Proof.Machine
end

