-- ==== Sys2Proof/Machine/Decoders.lean ====
section
/-! DEFINITION. The fixed-record decoders (44_decoders.md). -/

namespace Sys2Proof.Machine

/-- The index of the first 0x00, or the length if there is none (44_decoders.md R165, R169). -/
def nulLength : List Byte → Nat
  | [] => 0
  | b :: bs => if b = 0x00 then 0 else nulLength bs + 1

/-- H_i, host slot i of the payload (44_decoders.md R163). -/
def State.hostSlot (s : State) (i : Nat) : List Byte := s.rbSlice (2 + hostSlotLen * i) hostSlotLen

/-- D_i, device slot i of the payload (44_decoders.md R167). -/
def State.devSlot (s : State) (i : Nat) : List Byte := s.rbSlice (2 + devSlotLen * i) devSlotLen

/-- F_i, the filename bytes of device slot i (44_decoders.md R169). -/
def State.devFilename (s : State) (i : Nat) : List Byte := (s.devSlot i).drop 2

/-- present_i (44_decoders.md R164). -/
def slotPresent (h : List Byte) : Bool := h.any fun b => b != 0x00

/-- empty_i (44_decoders.md R170). -/
def filenameEmpty (f : List Byte) : Bool := f.all fun b => b == 0x00

/-- decode_ssid() writes no register (44_decoders.md R162). -/
def decodeSsid (s : State) : DecoderRegs := s.dec

/-- decode_hosts() (44_decoders.md R163 to R165). -/
def decodeHosts (s : State) : DecoderRegs :=
  { s.dec with
    hostPresent := slotMask fun i => slotPresent (s.hostSlot i)
    hostNlen := slotLanes fun i => BitVec.ofNat 8 (nulLength (s.hostSlot i)) }

/-- decode_devslots() (44_decoders.md R167 to R170). -/
def decodeDevSlots (s : State) : DecoderRegs :=
  { s.dec with
    devHost := slotLanes fun i => (s.devSlot i).getD 0 0
    devMode := slotLanes fun i => (s.devSlot i).getD 1 0
    devFlen := slotLanes fun i => BitVec.ofNat 8 (nulLength (s.devFilename i))
    devEmpty := slotMask fun i => filenameEmpty (s.devFilename i) }

/-- dec_step()'s choice of decoder, by LCMD and only when DV = 1 (44_decoders.md R160, R161, R173). -/
def decodeSelected (s : State) : DecoderRegs :=
  if s.status.dv then
    match Command.ofCode s.lcmd with
    | some .getSsid => decodeSsid s
    | some .getHosts => decodeHosts s
    | some .getDevSlots => decodeDevSlots s
    | some .reset => s.dec
    | none => s.dec
  else s.dec

end Sys2Proof.Machine
end

