-- ==== Sys2Proof/Machine/Commands.lean ====
section
/-! DEFINITION. The four command words and the start request (45_commands.md R185 to R190, R197). A command word's
execution is its start request; the transaction it starts runs as engine steps (Machine/Engine.lean; log entry 1). -/

namespace Sys2Proof.Machine

/-- PAY_LEN of a response length (45_commands.md R190; 10_state.md R37). -/
def payLenOf (len : Half) : Half := if 0 < len.toNat then len - 3 else 0

/-- What every accepted start request clears (45_commands.md R190, the lines before the test of the code), with LCMD
latched. -/
def clearResults (c : Byte) (s : State) : State :=
  { s with
    lcmd := c
    status := { s.status with pv := false, cv := false, done := false }
    expChk := 0
    rcvChk := 0
    rxCount := 0
    dec := .zero }

/-- A start request with a legal code, accepted (45_commands.md R190). -/
def acceptStart (c : Command) (a1 a2 a3 a4 : Byte) (s : State) : State :=
  let t := clearResults c.code s
  { t with
    status := { t.status with ill := false, rsp := c.expectsResponse, busy := true }
    respLen := c.respLen
    payLen := payLenOf c.respLen
    frame := encodeFrame c.code a1 a2 a3 a4
    txi := 0
    rxi := 0
    wcnt := 0
    ph := .cfgIn }

/-- A start request with an illegal code, accepted (45_commands.md R189). e.TXI, e.RXI and e.WCNT stay: R190's lines
for them stand after its 'stop' (log entry 11). -/
def illegalStart (c : Byte) (s : State) : State :=
  let t := clearResults c s
  { t with
    frame := .zero
    respLen := 0
    payLen := 0
    status := { busy := false, done := true, pv := false, cv := false, ill := true, rsp := false } }

/-- A start request is ignored while a transaction is in progress (45_commands.md R197). -/
def whenIdle (s : State) (t : State) : Host.Outcome State Fault Refusal :=
  if s.ph = .idle then .next t else .next s

/-- RESET (45_commands.md R185). -/
def execReset (a1 a2 a3 a4 : Byte) (s : State) : Host.Outcome State Fault Refusal :=
  whileReleased s (whenIdle s (acceptStart .reset a1 a2 a3 a4 s))

/-- GET_SSID (45_commands.md R186). -/
def execGetSsid (a1 a2 a3 a4 : Byte) (s : State) : Host.Outcome State Fault Refusal :=
  whileReleased s (whenIdle s (acceptStart .getSsid a1 a2 a3 a4 s))

/-- GET_HOSTS (45_commands.md R187). -/
def execGetHosts (a1 a2 a3 a4 : Byte) (s : State) : Host.Outcome State Fault Refusal :=
  whileReleased s (whenIdle s (acceptStart .getHosts a1 a2 a3 a4 s))

/-- GET_DEVSLOTS (45_commands.md R188). -/
def execGetDevSlots (a1 a2 a3 a4 : Byte) (s : State) : Host.Outcome State Fault Refusal :=
  whileReleased s (whenIdle s (acceptStart .getDevSlots a1 a2 a3 a4 s))

/-- start_request() (45_commands.md R189, R190, R197): the command word is read from CMD and ARG1..ARG4
(30_encoding.md R80), and runs, or its code is illegal. -/
def startRequest (s : State) : Host.Outcome State Fault Refusal :=
  match Command.ofCode s.cmd with
  | some .reset => execReset s.arg1 s.arg2 s.arg3 s.arg4 s
  | some .getSsid => execGetSsid s.arg1 s.arg2 s.arg3 s.arg4 s
  | some .getHosts => execGetHosts s.arg1 s.arg2 s.arg3 s.arg4 s
  | some .getDevSlots => execGetDevSlots s.arg1 s.arg2 s.arg3 s.arg4 s
  | none => whileReleased s (whenIdle s (illegalStart s.cmd s))

end Sys2Proof.Machine
end

