-- ==== Sys2Proof/Machine/HostOps.lean ====
section
/-! DEFINITION. The host operations (45_commands.md R180 to R182; 20_memory.md R61; 30_encoding.md R92). -/

namespace Sys2Proof.Machine

/-- WR r, v (45_commands.md R181). -/
def execWr (r : Reg) (v : Half) (s : State) : Host.Outcome State Fault Refusal :=
  whileReleased s
    (if r = .ctrl ∧ startBit v = true then startRequest s else .next (s.storeRegister r v))

/-- RD r (45_commands.md R182). -/
def execRd (r : Reg) (s : State) : Host.Outcome State Fault Refusal :=
  whileReleased s (.next (s.deliver (s.readRegister r)))

/-- RDB i (20_memory.md R61). -/
def execRdb (i : Half) (s : State) : Host.Outcome State Fault Refusal :=
  whileReleased s
    (match s.readWindow i with
     | some b => .next (s.deliver (zext16 b))
     | none => .fault .rbOutside)

/-- op = 11 is ignored and has no effect (30_encoding.md R92). -/
def execNop (s : State) : Host.Outcome State Fault Refusal :=
  whileReleased s (.next s)

end Sys2Proof.Machine
end

