-- ==== Sys2Proof/Machine/Dispatch.lean ====
section
/-! DEFINITION. One arm per instruction. -/

namespace Sys2Proof.Machine

def exec (i : Instr) (s : State) : Host.Outcome State Fault Refusal :=
  match i with
  | .reset a1 a2 a3 a4 => Sys2Proof.Machine.execReset a1 a2 a3 a4 s
  | .getSsid a1 a2 a3 a4 => Sys2Proof.Machine.execGetSsid a1 a2 a3 a4 s
  | .getHosts a1 a2 a3 a4 => Sys2Proof.Machine.execGetHosts a1 a2 a3 a4 s
  | .getDevSlots a1 a2 a3 a4 => Sys2Proof.Machine.execGetDevSlots a1 a2 a3 a4 s
  | .wr r v => Sys2Proof.Machine.execWr r v s
  | .rd r => Sys2Proof.Machine.execRd r s
  | .rdb index => Sys2Proof.Machine.execRdb index s
  | .nop => Sys2Proof.Machine.execNop s

end Sys2Proof.Machine
end

