-- ==== Sys2Proof/Machine/Engine.lean ====
section
/-! DEFINITION. The engine's steps (45_commands.md R191 to R196, R198). -/

namespace Sys2Proof.Machine

/-- CFG_IN step (45_commands.md R191). -/
def cfgInStep (s : State) : Host.Outcome State Fault Refusal :=
  .next ((s.emit (.cfgEnter s.params.portCfg)).enter .tx)

/-- e.TXI advances by one (41_encoder.md R112). -/
def State.nextByte (s : State) : State := { s with txi := s.txi + 1 }

/-- The transaction ends: BUSY <- 0, DONE <- 1, e.PH <- IDLE (45_commands.md R196). -/
def State.finish (s : State) : State :=
  { s with status := { s.status with busy := false, done := true }, ph := .idle }

/-- The verdict goes to PV, CV, EXP_CHK and RCV_CHK (43_validator.md R145). -/
def State.report (s : State) (v : Verdict) : State :=
  { s with
    status := { s.status with pv := v.pv, cv := v.cv }
    expChk := v.expected
    rcvChk := v.received }

/-- TX step (45_commands.md R192; 41_encoder.md R112), and the entry of reception (42_receiver.md R120). -/
def txStep (s : State) : Host.Outcome State Fault Refusal :=
  match s.frame.byteAt s.txi with
  | none => .fault .frameOutside
  | some b =>
    if s.txi.toNat < 6 then .next (s.emit (.tx b)).nextByte
    else if s.respLen = 0 then .next ((s.emit (.tx b)).enter .cfgOut)
    else .next (s.emit (.tx b)).enterReception

/-- VAL step (45_commands.md R194; 43_validator.md R145), with L = RESP_LEN and n = RX_COUNT. -/
def valStep (s : State) : Host.Outcome State Fault Refusal :=
  if 3 ≤ s.respLen.toNat ∧ s.rxCount.toNat ≤ s.respLen.toNat then
    match s.memRead 0 s.respLen.toNat with
    | none => .fault .rbOutside
    | some buf => .next ((s.report (validate buf s.respLen.toNat s.rxCount.toNat)).enter .dec)
  else .fault .validatorUndefined

/-- DEC step (45_commands.md R195; 44_decoders.md R160). -/
def decStep (s : State) : Host.Outcome State Fault Refusal :=
  .next { s with dec := decodeSelected s, ph := .cfgOut }

/-- CFG_OUT step (45_commands.md R196). -/
def cfgOutStep (s : State) : Host.Outcome State Fault Refusal :=
  .next (s.emit .cfgExit).finish

/-- The engine's one step, named by e.PH; in IDLE it has none (45_commands.md R198), and none while `rst` is asserted
(70_reset_and_hazards.md R230). -/
def engineStep (s : State) : Host.Outcome State Fault Refusal :=
  if s.rst then .next s
  else
    match s.ph with
    | .idle => .next s
    | .cfgIn => cfgInStep s
    | .tx => txStep s
    | .rx => rxStep s
    | .val => valStep s
    | .dec => decStep s
    | .cfgOut => cfgOutStep s

end Sys2Proof.Machine
end

