-- ==== Sys2Proof/Machine/Schedule.lean ====
section
/-! DEFINITION. One turn of the total order of host operations, engine steps and `rst` (20_memory.md R70), and where a
word waits to be run next. -/

namespace Sys2Proof.Machine

/-- `rst` is released (70_reset_and_hazards.md R230). -/
def State.released (s : State) : State := { s with rst := false }

/-- The five command registers hold a command word (30_encoding.md R80). -/
def State.holding (s : State) (w : BitVec 40) : State :=
  { s with
    cmd := w.extractLsb' 0 8
    arg1 := w.extractLsb' 8 8
    arg2 := w.extractLsb' 16 8
    arg3 := w.extractLsb' 24 8
    arg4 := w.extractLsb' 32 8 }

/-- The agenda without its first turn. -/
def State.withAgenda (s : State) (ts : List Turn) : State := { s with agenda := ts }

/-- What a turn does once it has left the agenda. -/
def takeTurn (t : Turn) (s : State) : Host.Outcome State Fault Refusal :=
  match t with
  | .host w => exec (decodeHostWord w) s
  | .engine => engineStep s
  | .assertRst => .next s.blockReset
  | .releaseRst => .next s.released

/-- The next turn of the agenda, or the engine's when the agenda is empty: the engine is scheduled whenever
e.PH is not IDLE (70_reset_and_hazards.md R240; log entry 2). -/
def nextTurn (s : State) : Host.Outcome State Fault Refusal :=
  match s.agenda with
  | [] => engineStep s
  | t :: rest => takeTurn t (s.withAgenda rest)

/-- The state with the turns `ts` lined up before those it holds. -/
def State.lineUp (s : State) (ts : List Turn) : State := s.withAgenda (ts ++ s.agenda)

/-- WR CTRL, 1 as a word: the start request (30_encoding.md R92). -/
def startWord : BitVec 32 := 0x00000001

/-- A HOST32 word placed to be the host's next operation, with `rst` released. -/
def placeHostWord (w : BitVec 32) (s : State) : State := s.released.lineUp [.host w]

/-- A command word placed in CMD and ARG1..ARG4 (30_encoding.md R80), with the start request that runs it placed to be the host's
next operation and `rst` released. -/
def placeCommandWord (w : BitVec 40) (s : State) : State := (s.released.holding w).lineUp [.host startWord]

/-- Places a word numbered as spec/opcode_table.json numbers it (see `decodeTableWord`; log entries 3 and 15). -/
def placeTableWord (nbits w : Nat) (s : State) : State :=
  if nbits = 32 then placeHostWord (BitVec.ofNat 32 w) s
  else placeCommandWord (BitVec.ofNat 40 (w % 2 ^ nbits)) s

end Sys2Proof.Machine
end

