-- ==== Sys2Proof/Machine/Step.lean ====
section
/-! DEFINITION. The machine's step, and where its next instruction is placed. -/

namespace Sys2Proof.Machine

/-- One host operation, engine step or change of `rst` (00_scope.md R13; 20_memory.md R70). -/
def step (s : State) : Host.Outcome State Fault Refusal := nextTurn s

/-- The state in which the very next step runs the instruction of a table word: for a HOST32 row the host's next
operation is that word, for a CW row the word stands in CMD and ARG1..ARG4 and the host's next operation is the start
request (log entry 3). -/
def State.withFetchWord (s : State) (nbits w : Nat) : State := placeTableWord nbits w s

end Sys2Proof.Machine
end

