-- ==== Sys2Proof/Machine/Assembly.lean ====
section
/-! DEFINITION. The assembly lines of host programs and the pseudo-instructions SEND and WAIT (30_encoding.md R90, R91).
Notation only: no behaviour of the machine depends on it (92_eei_decisions.md D21). -/

namespace Sys2Proof.Machine

/-- A line of a host program (30_encoding.md R90), with the value the line says the rules give, if it does. -/
inductive AsmLine where
  | op (i : Instr) (expected : Option Half)
  | send (c a1 a2 a3 a4 : Half)
  | wait
deriving DecidableEq, Repr

/-- The host operations of a line (30_encoding.md R91). WAIT stands for one of its reads of STATUS; `waitDone` says
whether it was the last. -/
def expandLine : AsmLine → List Instr
  | .op i _ => [i]
  | .send c a1 a2 a3 a4 => [.wr .cmd c, .wr .arg1 a1, .wr .arg2 a2, .wr .arg3 a3, .wr .arg4 a4, .wr .ctrl 1]
  | .wait => [.rd .status]

/-- WAIT ends when bit 1 (DONE) of the value read is 1 (30_encoding.md R91). -/
def waitDone (v : Half) : Bool := v.getLsbD 1

/-- The names of the single registers (10_state.md R20). -/
def singleNames : List (List Char × Reg) :=
  [("CTRL".toList, .ctrl), ("CMD".toList, .cmd), ("ARG1".toList, .arg1), ("ARG2".toList, .arg2),
   ("ARG3".toList, .arg3), ("ARG4".toList, .arg4), ("STATUS".toList, .status), ("LCMD".toList, .lcmd),
   ("EXP_CHK".toList, .expChk), ("RCV_CHK".toList, .rcvChk), ("RX_COUNT".toList, .rxCount),
   ("RESP_LEN".toList, .respLen), ("PAY_LEN".toList, .payLen), ("HOST_PRESENT".toList, .hostPresent),
   ("DEV_EMPTY".toList, .devEmpty)]

/-- The names of a family of registers, the numeric suffix written as part of the word (30_encoding.md R90). -/
def familyNames (name : String) (n : Nat) (r : Fin n → Reg) : List (List Char × Reg) :=
  (List.finRange n).map fun k => (name.toList ++ (toString k.val).toList, r k)

/-- The register names of 10_state.md R20. -/
def regNames : List (List Char × Reg) :=
  List.flatten
    [singleNames, familyNames "FRAME" 7 .frame, familyNames "HOST_NLEN" 8 .hostNlen,
     familyNames "DEV_HOST" 8 .devHost, familyNames "DEV_MODE" 8 .devMode, familyNames "DEV_FLEN" 8 .devFlen]

/-- The constants usable wherever a value is (30_encoding.md R91). -/
def valueNames : List (List Char × Half) :=
  [("RESET".toList, 0x00FF), ("GET_SSID".toList, 0x00FE), ("GET_HOSTS".toList, 0x00F4),
   ("GET_DEVSLOTS".toList, 0x00F2)]

/-- A digit's value in a base up to 16. -/
def digitValue (base : Nat) (c : Char) : Option Nat :=
  let k := c.toUpper.toNat
  let d := if 0x30 ≤ k ∧ k ≤ 0x39 then k - 0x30 else if 0x41 ≤ k ∧ k ≤ 0x46 then k - 0x37 else base
  if d < base then some d else none

/-- A non-empty run of digits, most significant first. -/
def parseDigits (base : Nat) : Nat → List Char → Option Nat
  | acc, [] => some acc
  | acc, c :: cs => (digitValue base c).bind fun d => parseDigits base (acc * base + d) cs

/-- A number, 0x-hexadecimal or decimal (30_encoding.md R90). -/
def parseNumber : List Char → Option Nat
  | [] => none
  | c :: cs => if c = '0' ∧ cs.head? = some 'x' ∧ cs.tail ≠ [] then parseDigits 16 0 cs.tail else parseDigits 10 0 (c :: cs)

/-- A value or an index, 0..0xFFFF (30_encoding.md R90). -/
def parseHalf (t : List Char) : Option Half :=
  (parseNumber t).bind fun n => if n ≤ 0xFFFF then some (BitVec.ofNat 16 n) else none

/-- A value: a number or one of the constants (30_encoding.md R90, R91). -/
def parseValue (t : List Char) : Option Half :=
  match valueNames.find? (fun p => p.1 == t) with
  | some p => some p.2
  | none => parseHalf t

/-- A register: a name, in either case, or a number 0x00..0xFF (30_encoding.md R90). -/
def parseReg (t : List Char) : Option Reg :=
  match regNames.find? (fun p => p.1 == t.map Char.toUpper) with
  | some p => some p.2
  | none => (parseNumber t).bind fun n => if n ≤ 0xFF then some (Reg.ofNumber (BitVec.ofNat 8 n)) else none

/-- The word a comma is. -/
def comma : List Char := [',']

/-- A finished word before the words after it. -/
def flushWord (word : List Char) (rest : List (List Char)) : List (List Char) :=
  if word.isEmpty then rest else word.reverse :: rest

/-- The words of a line: blanks separate them, a comma is a word, a semicolon begins a comment (30_encoding.md R90). -/
def lineWords : (word : List Char) → List Char → List (List Char)
  | word, [] => flushWord word []
  | word, c :: cs =>
    if c = ';' then flushWord word []
    else if c = ' ' ∨ c = '\t' then flushWord word (lineWords [] cs)
    else if c = ',' then flushWord word (comma :: lineWords [] cs)
    else lineWords (c :: word) cs

/-- The optional value a read line says the rules give (30_encoding.md R90). -/
def parseExpected : List (List Char) → Option (Option Half)
  | [] => some none
  | [arrow, v] => if arrow = "->".toList then (parseValue v).map some else none
  | _ => none

/-- The line of a WR, with the words after the mnemonic. -/
def parseWr : List (List Char) → Option AsmLine
  | [r, m, v] =>
    if m = comma then (parseReg r).bind fun r => (parseValue v).map fun v => .op (.wr r v) none else none
  | _ => none

/-- The line of an RD. -/
def parseRd : List (List Char) → Option AsmLine
  | r :: e => (parseReg r).bind fun r => (parseExpected e).map fun e => .op (.rd r) e
  | [] => none

/-- The line of an RDB. -/
def parseRdb : List (List Char) → Option AsmLine
  | i :: e => (parseHalf i).bind fun i => (parseExpected e).map fun e => .op (.rdb i) e
  | [] => none

/-- The line of a SEND (30_encoding.md R91): without arguments it writes zeros. -/
def parseSend : List (List Char) → Option AsmLine
  | [c] => (parseValue c).map fun c => .send c 0 0 0 0
  | [c, m1, a1, m2, a2, m3, a3, m4, a4] =>
    if [m1, m2, m3, m4] = [comma, comma, comma, comma] then
      (parseValue c).bind fun c => (parseValue a1).bind fun a1 => (parseValue a2).bind fun a2 =>
        (parseValue a3).bind fun a3 => (parseValue a4).map fun a4 => .send c a1 a2 a3 a4
    else none
  | _ => none

/-- An assembly line (30_encoding.md R90, R91); `none` for a text that is none. -/
def parseLine (text : List Char) : Option AsmLine :=
  match lineWords [] text with
  | op :: args =>
    if op = "WR".toList then parseWr args
    else if op = "RD".toList then parseRd args
    else if op = "RDB".toList then parseRdb args
    else if op = "SEND".toList then parseSend args
    else if op = "WAIT".toList then (if args.isEmpty then some .wait else none)
    else none
  | [] => none

end Sys2Proof.Machine
end

