-- ==== Sys2Proof/Safety.lean ====
section
/-! DEFINITION. The terms claims use: the outcome of a transaction (60_exceptions.md R211, R212), the views and display
order the results define (44_decoders.md R162, R165, R166, R169, R171), the events of an answer, and the
invariant of a machine that a run from reset can reach. -/

namespace Sys2Proof.Machine

/-! ### Outcomes and views -/

/-- The six outcomes of a transaction (60_exceptions.md R211). -/
inductive TransactionOutcome where
  | illegal
  | sent
  | short
  | protocol
  | checksum
  | ok
deriving DecidableEq, Repr

/-- outcome() (60_exceptions.md R212), to be read after DONE = 1. -/
def State.outcome (s : State) : TransactionOutcome :=
  if s.status.ill then .illegal
  else if !s.status.rsp then .sent
  else if s.rxCount.toNat < s.respLen.toNat then .short
  else if !s.status.pv then .protocol
  else if !s.status.cv then .checksum
  else .ok

/-- A region of RB as offset and length (00_scope.md, glossary). -/
structure View where
  offset : Nat
  length : Nat
deriving DecidableEq, Repr

/-- The payload view: offset 2, length PAY_LEN (43_validator.md R144). -/
def State.payloadView (s : State) : View := ⟨2, s.payLen.toNat⟩

/-- The printable name of host slot k (44_decoders.md R165). -/
def State.hostNameView (s : State) (k : Fin 8) : View := ⟨2 + hostSlotLen * k.val, (s.dec.hostNlen.get k).toNat⟩

/-- The displayed filename of device slot k (44_decoders.md R169). -/
def State.filenameView (s : State) (k : Fin 8) : View := ⟨4 + devSlotLen * k.val, (s.dec.devFlen.get k).toNat⟩

/-- The bytes of a view. -/
def State.viewBytes (s : State) (v : View) : List Byte := s.rbSlice v.offset v.length

/-- The positions, from 1, at which a display of the hosts lists a slot: exactly the present ones (44_decoders.md R166). -/
def State.hostPositions (s : State) : List Nat :=
  ((List.finRange 8).filter fun k => s.dec.hostPresent.getLsbD k.val).map fun k => k.val + 1

/-- What a display of the device slots lists: every slot, with its fields and whether it gets the empty-file marker
(44_decoders.md R171). -/
def State.deviceRows (s : State) : List (Byte × Byte × Bool) :=
  (List.finRange 8).map fun k => (s.dec.devHost.get k, s.dec.devMode.get k, s.dec.devEmpty.getLsbD k.val)

/-! ### Events -/

/-- The seven Tx events of a frame (41_encoder.md R112). -/
def frameEvents (x : Frame) : List Event := x.bytes.map .tx

/-- A next state changed by `f`; a stop stays. -/
def mapNext (f : State → State) : Host.Outcome State Fault Refusal → Host.Outcome State Fault Refusal
  | .next s => .next (f s)
  | .fault r => .fault r
  | .refused r => .refused r

/-! ### The invariant -/

/-- RESP_LEN of a latched code (10_state.md R36). -/
def respLenOf (c : Byte) : Half :=
  match Command.ofCode c with
  | some k => k.respLen
  | none => 0

/-- The frame a latched code leaves in FRAME0..FRAME6 with these arguments (41_encoder.md R111; 45_commands.md R189). -/
def frameOf (c a1 a2 a3 a4 : Byte) : Frame :=
  if (Command.ofCode c).isSome then encodeFrame c a1 a2 a3 a4 else .zero

/-- The transaction has not reached its VAL step. -/
def Phase.beforeVerdict : Phase → Bool
  | .cfgIn | .tx | .rx | .val => true
  | .idle | .dec | .cfgOut => false

/-- The transaction has not reached its DEC step. -/
def Phase.beforeDecoding : Phase → Bool
  | .cfgIn | .tx | .rx | .val | .dec => true
  | .idle | .cfgOut => false

/-- Reception is over, or there is no transaction in progress. -/
def Phase.afterReception : Phase → Bool
  | .val | .dec | .cfgOut | .idle => true
  | .cfgIn | .tx | .rx => false

/-- The registers that the command map and the sequencer tie together (10_state.md R25, R26, R30, R31, R36 to R38, R42). -/
structure ControlInv (s : State) : Prop where
  /-- BUSY is 1 exactly in a transaction (10_state.md R25). -/
  busy : s.status.busy = true ↔ s.ph ≠ .idle
  /-- BUSY and DONE are never 1 together (10_state.md R26). -/
  notBoth : ¬ (s.status.busy = true ∧ s.status.done = true)
  /-- A transaction in progress has a legal code (10_state.md R25). -/
  legal : s.ph ≠ .idle → (Command.ofCode s.lcmd).isSome = true
  /-- RESP_LEN is the latched code's (10_state.md R36). -/
  respLen : s.respLen = respLenOf s.lcmd
  /-- PAY_LEN follows RESP_LEN (10_state.md R37). -/
  payLen : s.payLen = payLenOf s.respLen
  /-- RSP says whether a response is expected (10_state.md R31). -/
  rsp : s.status.rsp = true ↔ 0 < s.respLen.toNat
  /-- ILL is 1 exactly when the finished request named an illegal code (10_state.md R30). -/
  ill : s.status.ill = true ↔ s.status.done = true ∧ Command.ofCode s.lcmd = none
  /-- The frame store holds the latched code's frame (10_state.md R38). -/
  frame : s.frame = frameOf s.lcmd s.frame.arg1 s.frame.arg2 s.frame.arg3 s.frame.arg4
  /-- e.TXI is 0..6 (10_state.md R42). -/
  txi : s.txi.toNat ≤ 6
  /-- Before the first start request after reset there is nothing to report (10_state.md R54). -/
  fresh : s.ph = .idle → s.status.done = false → s.respLen = 0

/-- The receiver's registers and buffer (10_state.md R35, R43, R44; 42_receiver.md R127, R128). -/
structure ReceiverInv (s : State) : Prop where
  /-- RB keeps its canonical form inside 0..306 (20_memory.md R60). -/
  rb : s.rb.wf = true
  /-- e.WCNT is below P_MAX_WAIT between steps (10_state.md R44). -/
  wcnt : s.wcnt < s.params.maxWait.polls
  /-- RX_COUNT is at most RESP_LEN (10_state.md R35). -/
  count : s.rxCount.toNat ≤ s.respLen.toNat
  /-- RX_COUNT is 0 before reception (42_receiver.md R120). -/
  countZero : s.ph = .cfgIn ∨ s.ph = .tx → s.rxCount = 0
  /-- In RX the position is below RESP_LEN and every byte below it has been received (42_receiver.md R121). -/
  position : s.ph = .rx → s.rxi.toNat < s.respLen.toNat ∧ s.rxCount = s.rxi
  /-- Every byte below the position is in RB (42_receiver.md R124). -/
  stored : s.ph = .rx → ∀ i, i < s.rxi.toNat → (s.rb.lookup i).isSome = true
  /-- VAL and DEC run only for a response (45_commands.md R184). -/
  response : s.ph = .val ∨ s.ph = .dec → 0 < s.respLen.toNat
  /-- After reception RB[0..L) is written (42_receiver.md R128). -/
  filled : s.ph.afterReception = true → ∀ i, i < s.respLen.toNat → (s.rb.lookup i).isSome = true
  /-- After reception RB[n..L) is the zero fill (42_receiver.md R127). -/
  zeroFill : s.ph.afterReception = true →
    ∀ i, s.rxCount.toNat ≤ i → i < s.respLen.toNat → s.rb.lookup i = some 0

/-- The results (10_state.md R27, R28, R33, R34; 43_validator.md R145; 44_decoders.md R173). -/
structure ResultInv (s : State) : Prop where
  /-- Before the VAL step, and without a response, nothing is reported (10_state.md R27, R28, R33, R34). -/
  unread : s.ph.beforeVerdict = true ∨ s.respLen = 0 →
    s.status.pv = false ∧ s.status.cv = false ∧ s.expChk = 0 ∧ s.rcvChk = 0
  /-- After it, the validator's verdict on the response stands in the registers (43_validator.md R145). -/
  verdict : s.ph.beforeVerdict = false → 0 < s.respLen.toNat →
    (⟨s.status.pv, s.status.cv, s.expChk, s.rcvChk⟩ : Verdict)
      = validate (s.rbSlice 0 s.respLen.toNat) s.respLen.toNat s.rxCount.toNat
  /-- Before the DEC step no decoder register holds a result (44_decoders.md R173). -/
  undecoded : s.ph.beforeDecoding = true → s.dec = .zero
  /-- After it, the decoder registers are what the selected decoder gives from zeros (44_decoders.md R160, R173). -/
  decoded : s.ph.beforeDecoding = false → s.dec = decodeSelected { s with dec := .zero }

/-- What holds in every state a run from reset reaches, whatever the host, the environment and `rst` do. -/
structure MachineInv (s : State) : Prop where
  control : ControlInv s
  receiver : ReceiverInv s
  result : ResultInv s

/-! ### States that differ in RB only -/

/-- How many bytes of RB, from index 0, the transaction in progress has written (42_receiver.md R128). -/
def State.rbWritten (s : State) : Nat :=
  match s.ph with
  | .cfgIn | .tx => 0
  | .rx => s.rxi.toNat
  | .val | .dec | .cfgOut | .idle => s.respLen.toNat

/-- The same state but for the bytes of RB that the transaction in progress has not written. -/
def SameButUnwritten (s t : State) : Prop :=
  { s with rb := [], rbEpoch := 0 } = { t with rb := [], rbEpoch := 0 }
    ∧ ∀ i, i < s.rbWritten → s.rbByte i = t.rbByte i

end Sys2Proof.Machine
end

