-- ==== Sys2Proof/Certificates/Slice0/Obligations.lean ====
section
/-! DEFINITION. The statements for the provers, family by family. `n ∈ …` below are register numbers of 10_state.md R20. -/

open Sys2Proof Sys2Proof.Machine

/-! ### Reset -/

/-- 10_state.md R54: after block reset every register reads 0, the engine is in IDLE with its indices 0, and RB is unspecified:
that each byte is a free value of its index is the model's choice (log entry 5), and the host's window shows none of it. -/
def Obligations.ResetHoldsTheSpecsValues : Prop :=
  (∀ n : Byte, State.reset.readRegister (Reg.ofNumber n) = 0)
  ∧ State.reset.ph = .idle ∧ State.reset.txi = 0 ∧ State.reset.rxi = 0 ∧ State.reset.wcnt = 0
  ∧ (∀ i, State.reset.rbByte i = Config.rbUnspecified 0 i) ∧ ∀ i : Half, State.reset.readWindow i = some 0

/-- The invariant holds right after block reset. -/
def Obligations.ResetMeetsTheInvariant : Prop := MachineInv State.reset

/-- 70_reset_and_hazards.md R230, R231: asserting `rst` gives every spec register and hidden element its R54 value and makes
RB unspecified (here: nothing listed, and a new epoch of free values, log entry 5); no event is emitted, whatever
the phase was. -/
def Obligations.AssertingRstAbandonsTheTransaction : Prop :=
  ∀ (s : State) (rest : List Turn), s.agenda = .assertRst :: rest →
    step s = .next
      { cmd := 0, arg1 := 0, arg2 := 0, arg3 := 0, arg4 := 0,
        status := ⟨false, false, false, false, false, false⟩, lcmd := 0, expChk := 0, rcvChk := 0,
        rxCount := 0, respLen := 0, payLen := 0, frame := ⟨0, 0, 0, 0, 0, 0, 0⟩,
        dec := ⟨0, .zero, .zero, .zero, .zero, 0⟩, ph := .idle, txi := 0, rxi := 0, wcnt := 0, rb := [],
        rst := true, params := s.params, agenda := rest, answers := s.answers, draws := s.draws,
        rbEpoch := s.rbEpoch + 1, trace := s.trace, hostReads := s.hostReads }

/-- 70_reset_and_hazards.md R230: while `rst` is asserted host operations have no effect, and the engine takes no
step. -/
def Obligations.NothingHappensWhileRstIsAsserted : Prop :=
  ∀ s : State, s.rst = true → (∀ i : Instr, exec i s = .next s) ∧ engineStep s = .next s

/-! ### The invariant -/

/-- Every step keeps the invariant, whatever the host, the environment and `rst` do. -/
def Obligations.EveryStepKeepsTheInvariant : Prop :=
  ∀ s t : State, MachineInv s → step s = .next t → MachineInv t

/-- 60_exceptions.md R210: no failure stops the UPE. From a state with the invariant a step answers a next state. -/
def Obligations.NoStepStopsUnderTheInvariant : Prop :=
  ∀ s : State, MachineInv s → ∃ t, step s = .next t

/-- Reached states: from reset, under any agenda and any answers, no run stops and every state it reaches keeps the
invariant. -/
def Obligations.EveryRunFromResetGoesOn : Prop :=
  ∀ (p : Params) (turns : List Turn) (answers : List SerialAnswer) (k : Nat),
    ∃ t : State, Sys2Proof.core.run k { State.reset with params := p, agenda := turns, answers := answers } = .next t
      ∧ MachineInv t

/-- 60_exceptions.md R211, R212: after DONE = 1 the registers show exactly one of the six outcomes, each with the register
values and the cause of R211's table. -/
def Obligations.OutcomesFollowTheRegisters : Prop :=
  ∀ s : State, MachineInv s → s.status.done = true →
    (s.outcome = .illegal ↔ Command.ofCode s.lcmd = none)
    ∧ (s.outcome = .illegal → s.status.ill = true ∧ s.status.rsp = false)
    ∧ (s.outcome = .sent ↔ s.lcmd = 0xFF)
    ∧ (s.outcome = .sent →
        s.status.rsp = false ∧ s.status.ill = false ∧ s.status.pv = false ∧ s.status.cv = false)
    ∧ (s.outcome = .short → s.status.rsp = true ∧ s.status.pv = false ∧ s.status.cv = false
        ∧ s.rxCount.toNat < s.respLen.toNat ∧ s.expChk = 0 ∧ s.rcvChk = 0)
    ∧ (s.outcome = .protocol → s.status.rsp = true ∧ s.status.pv = false ∧ s.status.cv = false
        ∧ s.rxCount = s.respLen ∧ s.expChk = 0 ∧ s.rcvChk = 0 ∧ (s.rbByte 0 ≠ 0x41 ∨ s.rbByte 1 ≠ 0x43))
    ∧ (s.outcome = .checksum → s.status.rsp = true ∧ s.status.pv = true ∧ s.status.cv = false
        ∧ s.rxCount = s.respLen ∧ s.expChk ≠ s.rcvChk ∧ s.expChk = checksum (s.rbSlice 2 (s.respLen.toNat - 3))
        ∧ s.rcvChk = s.rbByte (s.respLen.toNat - 1) ∧ s.rbByte 0 = 0x41 ∧ s.rbByte 1 = 0x43)
    ∧ (s.outcome = .ok → s.status.rsp = true ∧ s.status.pv = true ∧ s.status.cv = true
        ∧ s.rxCount = s.respLen ∧ s.expChk = s.rcvChk ∧ s.expChk = checksum (s.rbSlice 2 (s.respLen.toNat - 3))
        ∧ s.rcvChk = s.rbByte (s.respLen.toNat - 1) ∧ s.rbByte 0 = 0x41 ∧ s.rbByte 1 = 0x43)

/-- 44_decoders.md R173 and 10_state.md R46 to R51: outside a decoded response of its own command a decoder register is 0,
and a length register never exceeds its field. -/
def Obligations.DecoderRegistersKeepTheirRanges : Prop :=
  ∀ s : State, MachineInv s →
    (s.lcmd ≠ 0xF4 ∨ s.status.dv = false → s.dec.hostPresent = 0 ∧ s.dec.hostNlen = .zero)
    ∧ (s.lcmd ≠ 0xF2 ∨ s.status.dv = false →
        s.dec.devHost = .zero ∧ s.dec.devMode = .zero ∧ s.dec.devFlen = .zero ∧ s.dec.devEmpty = 0)
    ∧ (∀ k, (s.dec.hostNlen.get k).toNat ≤ 32 ∧ (s.dec.devFlen.get k).toNat ≤ 36)
    ∧ (∀ k : Fin 8, s.dec.devEmpty.getLsbD k.val = true → s.dec.devFlen.get k = 0)

/-! ### Encodings -/

/-- Decoding an encoded well-formed instruction gives it back, with every operand. -/
def Obligations.DecodingAnEncodingGivesTheInstruction : Prop :=
  ∀ i : Instr, i.wellFormed = true → decode (encode i) = .ok i

/-- Every word an assembler writes is the encoding of the well-formed instruction it decodes to. -/
def Obligations.EncodingADecodingGivesTheWord : Prop :=
  ∀ e : Encoded, e.wellFormed = true → ∃ i, decode e = .ok i ∧ i.wellFormed = true ∧ encode i = e

/-- 30_encoding.md R81: the code is matched exactly against the four codes and the arguments take no part in it; any other
code is refused by name. -/
def Obligations.CommandWordsAreSelectedByTheirCode : Prop :=
  ∀ a1 a2 a3 a4 : Byte,
    decodeCommandWord (commandWord 0xFF a1 a2 a3 a4) = .ok (.reset a1 a2 a3 a4)
    ∧ decodeCommandWord (commandWord 0xFE a1 a2 a3 a4) = .ok (.getSsid a1 a2 a3 a4)
    ∧ decodeCommandWord (commandWord 0xF4 a1 a2 a3 a4) = .ok (.getHosts a1 a2 a3 a4)
    ∧ decodeCommandWord (commandWord 0xF2 a1 a2 a3 a4) = .ok (.getDevSlots a1 a2 a3 a4)
    ∧ ∀ c : Byte, c ≠ 0xFF → c ≠ 0xFE → c ≠ 0xF4 → c ≠ 0xF2 →
        decodeCommandWord (commandWord c a1 a2 a3 a4) = .error (.illegalCode c)

/-- 30_encoding.md R92: the reserved bits of a host operation word, and the fields its operation ignores, do not change the
operation. -/
def Obligations.IgnoredHostWordBitsChangeNothing : Prop :=
  ∀ w u : BitVec 32,
    (w &&& 0xC0FFFFFF = u &&& 0xC0FFFFFF → decodeHostWord w = decodeHostWord u)
    ∧ (w.extractLsb' 30 2 = 0b01 → w &&& 0xC0FF0000 = u &&& 0xC0FF0000 → decodeHostWord w = decodeHostWord u)
    ∧ (w.extractLsb' 30 2 = 0b10 → w &&& 0xC000FFFF = u &&& 0xC000FFFF → decodeHostWord w = decodeHostWord u)
    ∧ (w.extractLsb' 30 2 = 0b11 → w &&& 0xC0000000 = u &&& 0xC0000000 → decodeHostWord w = decodeHostWord u)

/-- 30_encoding.md R92's example words, and one command word of each code. -/
def Obligations.SpecWordsDecode : Prop :=
  decode (.host32 0x000100FE) = .ok (.wr .cmd 0xFE)
  ∧ decode (.host32 0x00000001) = .ok (.wr .ctrl 1)
  ∧ decode (.host32 0x40060000) = .ok (.rd .status)
  ∧ decode (.host32 0x80000002) = .ok (.rdb 2)
  ∧ decode (.host32 0xC0000000) = .ok .nop
  ∧ decode (.cw 0x04030201FF) = .ok (.reset 1 2 3 4)
  ∧ decode (.cw 0x04030201FE) = .ok (.getSsid 1 2 3 4)
  ∧ decode (.cw 0x04030201F4) = .ok (.getHosts 1 2 3 4)
  ∧ decode (.cw 0x04030201F2) = .ok (.getDevSlots 1 2 3 4)
  ∧ decode (.cw 0x0403020112) = .error (.illegalCode 0x12)

/-! ### Steps run instructions -/

/-- A step runs the host operation whose word is next in the agenda. -/
def Obligations.StepRunsTheNextHostWord : Prop :=
  ∀ (s : State) (w : BitVec 32) (rest : List Turn) (i : Instr),
    s.agenda = .host w :: rest → decode (.host32 w) = .ok i → step s = exec i { s with agenda := rest }

/-- A step that makes a start request runs the command word that CMD and ARG1..ARG4 hold (30_encoding.md R80;
45_commands.md R190). -/
def Obligations.StepRunsTheCommandWord : Prop :=
  ∀ (s : State) (w : BitVec 32) (rest : List Turn) (v : Half) (i : Instr),
    s.agenda = .host w :: rest → decode (.host32 w) = .ok (.wr .ctrl v) → v.getLsbD 0 = true →
    decode (.cw (commandWord s.cmd s.arg1 s.arg2 s.arg3 s.arg4)) = .ok i →
    step s = exec i { s with agenda := rest }

/-- A step on a placed table word runs the instruction the word decodes to. -/
def Obligations.StepRunsAPlacedTableWord : Prop :=
  ∀ (s : State) (nbits w : Nat) (i : Instr), nbits = 32 ∨ nbits = 40 → decodeTableWord nbits w = some i →
    step (s.withFetchWord nbits w) = exec i { s.withFetchWord nbits w with agenda := s.agenda }

/-- The other turns: the engine's step, alone or in its turn, and the release of `rst` (20_memory.md R70; the agenda is
the model's, log entry 2). -/
def Obligations.StepTakesTheEnginesTurn : Prop :=
  ∀ s : State,
    (s.agenda = [] → step s = engineStep s)
    ∧ (∀ rest, s.agenda = .engine :: rest → step s = engineStep { s with agenda := rest })
    ∧ (∀ rest, s.agenda = .releaseRst :: rest → step s = .next { s with agenda := rest, rst := false })

/-- 00_scope.md R13, 42_receiver.md R123: a step emits at most one event, but for a true Poll with its one Rd; no Rd stands
alone, and no true Poll without its Rd. -/
def Obligations.StepEmitsAtMostOneEventOrPollWithRd : Prop :=
  ∀ s t : State, step s = .next t →
    ∃ es, t.trace = s.trace ++ es
      ∧ (es = [] ∨ (∃ e, es = [e] ∧ e ≠ .poll true ∧ ∀ r, e ≠ .rd r) ∨ ∃ r, es = [.poll true, .rd r])

/-- No step changes P_MAX_WAIT or P_PORT_CFG (00_scope.md R8, R9; that they stand in the state is log entry 6). -/
def Obligations.StepKeepsTheParameters : Prop :=
  ∀ s t : State, step s = .next t → t.params = s.params

/-! ### Command words -/

/-- RESET on an idle machine: its start request (45_commands.md R185, R190). Everything not named is unchanged. -/
def Obligations.ResetCommandStarts : Prop :=
  ∀ (s : State) (a1 a2 a3 a4 : Byte), s.rst = false → s.ph = .idle →
    exec (.reset a1 a2 a3 a4) s = .next { s with
      lcmd := 0xFF, status := ⟨true, false, false, false, false, false⟩, expChk := 0, rcvChk := 0, rxCount := 0,
      dec := .zero, respLen := 0, payLen := 0,
      frame := ⟨0x70, 0xFF, a1, a2, a3, a4, checksum [0x70, 0xFF, a1, a2, a3, a4]⟩,
      txi := 0, rxi := 0, wcnt := 0, ph := .cfgIn }

/-- GET_SSID on an idle machine: its start request (45_commands.md R186, R190). Everything not named is unchanged. -/
def Obligations.GetSsidStarts : Prop :=
  ∀ (s : State) (a1 a2 a3 a4 : Byte), s.rst = false → s.ph = .idle →
    exec (.getSsid a1 a2 a3 a4) s = .next { s with
      lcmd := 0xFE, status := ⟨true, false, false, false, false, true⟩, expChk := 0, rcvChk := 0, rxCount := 0,
      dec := .zero, respLen := 100, payLen := 97,
      frame := ⟨0x70, 0xFE, a1, a2, a3, a4, checksum [0x70, 0xFE, a1, a2, a3, a4]⟩,
      txi := 0, rxi := 0, wcnt := 0, ph := .cfgIn }

/-- GET_HOSTS on an idle machine: its start request (45_commands.md R187, R190). Everything not named is unchanged. -/
def Obligations.GetHostsStarts : Prop :=
  ∀ (s : State) (a1 a2 a3 a4 : Byte), s.rst = false → s.ph = .idle →
    exec (.getHosts a1 a2 a3 a4) s = .next { s with
      lcmd := 0xF4, status := ⟨true, false, false, false, false, true⟩, expChk := 0, rcvChk := 0, rxCount := 0,
      dec := .zero, respLen := 259, payLen := 256,
      frame := ⟨0x70, 0xF4, a1, a2, a3, a4, checksum [0x70, 0xF4, a1, a2, a3, a4]⟩,
      txi := 0, rxi := 0, wcnt := 0, ph := .cfgIn }

/-- GET_DEVSLOTS on an idle machine: its start request (45_commands.md R188, R190). Everything not named is
unchanged. -/
def Obligations.GetDevSlotsStarts : Prop :=
  ∀ (s : State) (a1 a2 a3 a4 : Byte), s.rst = false → s.ph = .idle →
    exec (.getDevSlots a1 a2 a3 a4) s = .next { s with
      lcmd := 0xF2, status := ⟨true, false, false, false, false, true⟩, expChk := 0, rcvChk := 0, rxCount := 0,
      dec := .zero, respLen := 307, payLen := 304,
      frame := ⟨0x70, 0xF2, a1, a2, a3, a4, checksum [0x70, 0xF2, a1, a2, a3, a4]⟩,
      txi := 0, rxi := 0, wcnt := 0, ph := .cfgIn }

/-- 45_commands.md R197: a start request while a transaction is in progress changes nothing. -/
def Obligations.StartWhileBusyIsIgnored : Prop :=
  ∀ s : State, s.rst = false → s.ph ≠ .idle →
    (∀ v : Half, v.getLsbD 0 = true → exec (.wr .ctrl v) s = .next s)
    ∧ ∀ a1 a2 a3 a4 : Byte,
        exec (.reset a1 a2 a3 a4) s = .next s ∧ exec (.getSsid a1 a2 a3 a4) s = .next s
        ∧ exec (.getHosts a1 a2 a3 a4) s = .next s ∧ exec (.getDevSlots a1 a2 a3 a4) s = .next s

/-- 45_commands.md R189: a start request with an illegal code. Everything not named is unchanged; no event is emitted. -/
def Obligations.StartWithAnIllegalCode : Prop :=
  ∀ (s : State) (v : Half), s.rst = false → s.ph = .idle → v.getLsbD 0 = true →
    s.cmd ≠ 0xFF → s.cmd ≠ 0xFE → s.cmd ≠ 0xF4 → s.cmd ≠ 0xF2 →
    exec (.wr .ctrl v) s = .next { s with
      lcmd := s.cmd, status := ⟨false, true, false, false, true, false⟩, expChk := 0, rcvChk := 0, rxCount := 0,
      dec := .zero, respLen := 0, payLen := 0, frame := ⟨0, 0, 0, 0, 0, 0, 0⟩ }

/-- 45_commands.md R190: a start request with a legal code runs the command word held in CMD and ARG1..ARG4. -/
def Obligations.StartRunsTheCommandInTheRegisters : Prop :=
  ∀ (s : State) (v : Half), v.getLsbD 0 = true →
    (s.cmd = 0xFF → exec (.wr .ctrl v) s = exec (.reset s.arg1 s.arg2 s.arg3 s.arg4) s)
    ∧ (s.cmd = 0xFE → exec (.wr .ctrl v) s = exec (.getSsid s.arg1 s.arg2 s.arg3 s.arg4) s)
    ∧ (s.cmd = 0xF4 → exec (.wr .ctrl v) s = exec (.getHosts s.arg1 s.arg2 s.arg3 s.arg4) s)
    ∧ (s.cmd = 0xF2 → exec (.wr .ctrl v) s = exec (.getDevSlots s.arg1 s.arg2 s.arg3 s.arg4) s)

/-! ### Host operations -/

/-- 45_commands.md R181, by register number: CMD and ARG1..ARG4 take the low byte, CTRL makes a start request or nothing, every
other number ignores the write, and no write faults. Everything not named is unchanged. -/
def Obligations.WriteStoresOrIsIgnored : Prop :=
  ∀ (s : State) (v : Half), s.rst = false →
    (v.getLsbD 0 = true → exec (.wr (Reg.ofNumber 0x00) v) s = startRequest s)
    ∧ (v.getLsbD 0 = false → exec (.wr (Reg.ofNumber 0x00) v) s = .next s)
    ∧ exec (.wr (Reg.ofNumber 0x01) v) s = .next { s with cmd := v.setWidth 8 }
    ∧ exec (.wr (Reg.ofNumber 0x02) v) s = .next { s with arg1 := v.setWidth 8 }
    ∧ exec (.wr (Reg.ofNumber 0x03) v) s = .next { s with arg2 := v.setWidth 8 }
    ∧ exec (.wr (Reg.ofNumber 0x04) v) s = .next { s with arg3 := v.setWidth 8 }
    ∧ exec (.wr (Reg.ofNumber 0x05) v) s = .next { s with arg4 := v.setWidth 8 }
    ∧ (∀ n : Byte, 0x06 ≤ n.toNat → exec (.wr (Reg.ofNumber n) v) s = .next s)
    ∧ ∃ t, startRequest s = .next t

/-- Every WR answers a next state. -/
def Obligations.EveryWriteCompletes : Prop :=
  ∀ (r : Reg) (v : Half) (s : State), ∃ t, exec (.wr r v) s = .next t ∧ t.trace = s.trace ∧ t.rb = s.rb

/-- 45_commands.md R182 with the map of 10_state.md R20: RD returns the register's value as 16 bits, 0 for CTRL and for every
number the map does not list, and changes nothing else. -/
def Obligations.ReadReturnsTheRegister : Prop :=
  ∀ s : State, s.rst = false →
    (∀ p ∈ ([(0x00, 0), (0x01, s.cmd.setWidth 16), (0x02, s.arg1.setWidth 16), (0x03, s.arg2.setWidth 16),
        (0x04, s.arg3.setWidth 16), (0x05, s.arg4.setWidth 16), (0x06, s.status.byte.setWidth 16),
        (0x07, s.lcmd.setWidth 16), (0x08, s.expChk.setWidth 16), (0x09, s.rcvChk.setWidth 16), (0x0A, s.rxCount),
        (0x0B, s.respLen), (0x0C, s.payLen), (0x10, s.frame.deviceId.setWidth 16),
        (0x11, s.frame.command.setWidth 16), (0x12, s.frame.arg1.setWidth 16), (0x13, s.frame.arg2.setWidth 16),
        (0x14, s.frame.arg3.setWidth 16), (0x15, s.frame.arg4.setWidth 16), (0x16, s.frame.checksum.setWidth 16),
        (0x20, s.dec.hostPresent.setWidth 16), (0x48, s.dec.devEmpty.setWidth 16)] : List (Byte × Half)),
      exec (.rd (Reg.ofNumber p.1)) s = .next { s with hostReads := s.hostReads ++ [p.2] })
    ∧ (∀ k : Fin 8,
        exec (.rd (Reg.ofNumber (BitVec.ofNat 8 (0x21 + k.val)))) s
          = .next { s with hostReads := s.hostReads ++ [(s.dec.hostNlen.get k).setWidth 16] }
        ∧ exec (.rd (Reg.ofNumber (BitVec.ofNat 8 (0x30 + k.val)))) s
          = .next { s with hostReads := s.hostReads ++ [(s.dec.devHost.get k).setWidth 16] }
        ∧ exec (.rd (Reg.ofNumber (BitVec.ofNat 8 (0x38 + k.val)))) s
          = .next { s with hostReads := s.hostReads ++ [(s.dec.devMode.get k).setWidth 16] }
        ∧ exec (.rd (Reg.ofNumber (BitVec.ofNat 8 (0x40 + k.val)))) s
          = .next { s with hostReads := s.hostReads ++ [(s.dec.devFlen.get k).setWidth 16] })
    ∧ ∀ n : Byte, (0x0D ≤ n.toNat ∧ n.toNat ≤ 0x0F) ∨ (0x17 ≤ n.toNat ∧ n.toNat ≤ 0x1F)
        ∨ (0x29 ≤ n.toNat ∧ n.toNat ≤ 0x2F) ∨ 0x49 ≤ n.toNat →
        exec (.rd (Reg.ofNumber n)) s = .next { s with hostReads := s.hostReads ++ [0] }

/-- 10_state.md R24, R29: the bits of STATUS. -/
def Obligations.StatusBitsStandWhereTheSpecSays : Prop :=
  ∀ st : Status,
    st.byte.getLsbD 0 = st.busy ∧ st.byte.getLsbD 1 = st.done ∧ st.byte.getLsbD 2 = st.pv
    ∧ st.byte.getLsbD 3 = st.cv ∧ st.byte.getLsbD 4 = (st.pv && st.cv) ∧ st.byte.getLsbD 5 = st.ill
    ∧ st.byte.getLsbD 6 = st.rsp ∧ st.byte.getLsbD 7 = false

/-- 20_memory.md R61: RDB returns RB[i] inside the window and 0x00 outside it, and changes nothing else. -/
def Obligations.BufferReadIsBoundedByTheWindow : Prop :=
  ∀ (s : State) (i : Half), s.rst = false → s.respLen.toNat ≤ 307 →
    exec (.rdb i) s = .next { s with hostReads := s.hostReads ++
      [if i.toNat < s.respLen.toNat then (s.rbByte i.toNat).setWidth 16 else 0] }

/-- 20_memory.md R60, R61; 60_exceptions.md R210: in a state with the invariant no RDB stops, at any index, and it changes
nothing but what the host has read (log entry 7). -/
def Obligations.BufferReadNeverStopsUnderTheInvariant : Prop :=
  ∀ (s : State) (i : Half), MachineInv s →
    ∃ t, exec (.rdb i) s = .next t ∧ { t with hostReads := s.hostReads } = s

/-- 30_encoding.md R92: op = 11 has no effect. -/
def Obligations.NoOperationHasNoEffect : Prop := ∀ s : State, exec .nop s = .next s

/-- 20_memory.md R60, R68, R70: a host operation or command word emits no event, writes no byte of RB, and never writes the
parameters, the environment's answers, or, but for CMD and ARG1..ARG4 of the register written, a host-owned register. -/
def Obligations.HostOperationsEmitNothingAndKeepTheBuffer : Prop :=
  ∀ (i : Instr) (s t : State), exec i s = .next t →
    t.trace = s.trace ∧ (∀ a, t.rbByte a = s.rbByte a) ∧ t.rb = s.rb ∧ t.answers = s.answers ∧ t.draws = s.draws
    ∧ t.params = s.params ∧ t.agenda = s.agenda ∧ t.rst = s.rst ∧ t.rbEpoch = s.rbEpoch
    ∧ (t.cmd = s.cmd ∨ ∃ v, i = .wr .cmd v) ∧ (t.arg1 = s.arg1 ∨ ∃ v, i = .wr .arg1 v)
    ∧ (t.arg2 = s.arg2 ∨ ∃ v, i = .wr .arg2 v) ∧ (t.arg3 = s.arg3 ∨ ∃ v, i = .wr .arg3 v)
    ∧ (t.arg4 = s.arg4 ∨ ∃ v, i = .wr .arg4 v)

/-- 30_encoding.md R91: the six operations of SEND start the command with its arguments. -/
def Obligations.SendStartsTheCommand : Prop :=
  ∀ (s : State) (c : Command) (a1 a2 a3 a4 : Byte) (rest : List Turn), s.rst = false → s.ph = .idle →
    s.agenda = (expandLine (.send (c.code.setWidth 16) (a1.setWidth 16) (a2.setWidth 16) (a3.setWidth 16)
        (a4.setWidth 16))).map (fun i => match encode i with | .host32 w => Turn.host w | .cw _ => Turn.engine)
      ++ rest →
    Sys2Proof.core.run 6 s
      = exec (c.instr a1 a2 a3 a4) { s with
          cmd := c.code, arg1 := a1, arg2 := a2, arg3 := a3, arg4 := a4, agenda := rest }

/-! ### Engine steps -/

/-- 45_commands.md R198: in IDLE the engine has no step. -/
def Obligations.EngineWaitsInIdle : Prop := ∀ s : State, s.ph = .idle → engineStep s = .next s

/-- 45_commands.md R191. -/
def Obligations.CfgInStepEntersTx : Prop :=
  ∀ s : State, s.rst = false → s.ph = .cfgIn →
    engineStep s = .next { s with trace := s.trace ++ [.cfgEnter s.params.portCfg], ph := .tx }

/-- 45_commands.md R192, 42_receiver.md R120: one Tx per step, in frame order; after the last, RX or, without a response,
CFG_OUT. -/
def Obligations.TxStepSendsTheNextFrameByte : Prop :=
  ∀ s : State, s.rst = false → s.ph = .tx →
    (∀ k : Fin 7, k.val < 6 → s.txi = BitVec.ofNat 3 k.val →
      engineStep s = .next { s with
        trace := s.trace ++ [.tx (s.frame.get k)], txi := BitVec.ofNat 3 (k.val + 1) })
    ∧ (s.txi = 6 → s.respLen = 0 →
      engineStep s = .next { s with trace := s.trace ++ [.tx s.frame.checksum], ph := .cfgOut })
    ∧ (s.txi = 6 → s.respLen ≠ 0 →
      engineStep s = .next { s with
        trace := s.trace ++ [.tx s.frame.checksum], rxi := 0, wcnt := 0, rxCount := 0, ph := .rx })

/-- 42_receiver.md R121, R122, R124 to R126: a false Poll counts, the P_MAX_WAIT-th times out; a byte is stored; a timeout or a
read with no data zero-fills the rest. `a` is the environment's answer and `u` the state after it is used, from the
answers at hand or as a free draw (log entry 4). Everything else, and every other byte of RB, is unchanged. -/
def Obligations.RxStepCountsStoresOrAborts : Prop :=
  ∀ (s u : State) (a : SerialAnswer), s.rst = false → s.ph = .rx →
    (s.answers = a :: u.answers ∧ u = { s with answers := u.answers })
      ∨ (s.answers = [] ∧ a = Config.serialDraw s.draws ∧ u = { s with draws := s.draws + 1 }) →
    s.rxi.toNat < s.respLen.toNat → s.respLen.toNat ≤ 307 →
    (a = .notReady → s.wcnt + 1 ≠ s.params.maxWait.polls →
      engineStep s = .next { u with trace := s.trace ++ [.poll false], wcnt := s.wcnt + 1 })
    ∧ ((a = .notReady ∧ s.wcnt + 1 = s.params.maxWait.polls) ∨ a = .ready .noData →
      ∃ t, engineStep s = .next t
        ∧ { t with rb := s.rb } = { u with trace := s.trace ++ answerEvents a, wcnt := 0, ph := .val }
        ∧ ∀ i, t.rbByte i = if s.rxi.toNat ≤ i ∧ i < s.respLen.toNat then 0 else s.rbByte i)
    ∧ ∀ b, a = .ready (.byte b) →
      ∃ t, engineStep s = .next t
        ∧ { t with rb := s.rb } = { u with
            trace := s.trace ++ [.poll true, .rd (.byte b)], rxCount := s.rxCount + 1, wcnt := 0,
            rxi := s.rxi + 1, ph := if s.rxi.toNat + 1 = s.respLen.toNat then .val else .rx }
        ∧ ∀ i, t.rbByte i = if i = s.rxi.toNat then b else s.rbByte i

/-- 43_validator.md R140 to R143, R145, R147: the three rules in order, and the four results written in one step. -/
def Obligations.ValStepWritesTheVerdict : Prop :=
  ∀ s : State, s.rst = false → s.ph = .val → 3 ≤ s.respLen.toNat → s.respLen.toNat ≤ 307 →
    s.rxCount.toNat ≤ s.respLen.toNat →
    engineStep s =
      if s.rxCount.toNat < s.respLen.toNat ∨ s.rbByte 0 ≠ 0x41 ∨ s.rbByte 1 ≠ 0x43 then
        .next { s with
          status := { s.status with pv := false, cv := false }, expChk := 0, rcvChk := 0, ph := .dec }
      else
        .next { s with
          status := { s.status with
            pv := true
            cv := checksum (s.rbSlice 2 (s.respLen.toNat - 3)) == s.rbByte (s.respLen.toNat - 1) }
          expChk := checksum (s.rbSlice 2 (s.respLen.toNat - 3))
          rcvChk := s.rbByte (s.respLen.toNat - 1)
          ph := .dec }

/-- 44_decoders.md R160, R163 to R165: a decoded get-hosts response. Presence is any non-zero byte of the 32; the length is the
first zero's index, or 32. Everything else is unchanged. -/
def Obligations.DecStepDecodesHosts : Prop :=
  ∀ s : State, s.rst = false → s.ph = .dec → s.status.pv = true → s.status.cv = true → s.lcmd = 0xF4 →
    ∃ t, engineStep s = .next t
      ∧ t = { s with dec := { s.dec with hostPresent := t.dec.hostPresent, hostNlen := t.dec.hostNlen }, ph := .cfgOut }
      ∧ ∀ i : Fin 8,
          (t.dec.hostPresent.getLsbD i.val = true ↔ ∃ j, j < 32 ∧ s.rbByte (2 + 32 * i.val + j) ≠ 0)
          ∧ (t.dec.hostNlen.get i).toNat ≤ 32
          ∧ (∀ j, j < (t.dec.hostNlen.get i).toNat → s.rbByte (2 + 32 * i.val + j) ≠ 0)
          ∧ ((t.dec.hostNlen.get i).toNat < 32 → s.rbByte (2 + 32 * i.val + (t.dec.hostNlen.get i).toNat) = 0)

/-- 44_decoders.md R160, R167 to R170: a decoded get-device-slots response. Everything else is unchanged. -/
def Obligations.DecStepDecodesDeviceSlots : Prop :=
  ∀ s : State, s.rst = false → s.ph = .dec → s.status.pv = true → s.status.cv = true → s.lcmd = 0xF2 →
    ∃ t, engineStep s = .next t
      ∧ t = { s with
          dec := { s.dec with
            devHost := t.dec.devHost, devMode := t.dec.devMode, devFlen := t.dec.devFlen, devEmpty := t.dec.devEmpty }
          ph := .cfgOut }
      ∧ ∀ i : Fin 8,
          t.dec.devHost.get i = s.rbByte (2 + 38 * i.val)
          ∧ t.dec.devMode.get i = s.rbByte (3 + 38 * i.val)
          ∧ (t.dec.devFlen.get i).toNat ≤ 36
          ∧ (∀ j, j < (t.dec.devFlen.get i).toNat → s.rbByte (4 + 38 * i.val + j) ≠ 0)
          ∧ ((t.dec.devFlen.get i).toNat < 36 → s.rbByte (4 + 38 * i.val + (t.dec.devFlen.get i).toNat) = 0)
          ∧ (t.dec.devEmpty.getLsbD i.val = true ↔ ∀ j, j < 36 → s.rbByte (4 + 38 * i.val + j) = 0)

/-- 44_decoders.md R160 to R162, R173: with DV = 0, for the SSID, and for any other code, the DEC step writes no register. -/
def Obligations.DecStepWritesNothingElsewhere : Prop :=
  ∀ s : State, s.rst = false → s.ph = .dec →
    s.status.pv = false ∨ s.status.cv = false ∨ (s.lcmd ≠ 0xF4 ∧ s.lcmd ≠ 0xF2) →
    engineStep s = .next { s with ph := .cfgOut }

/-- 45_commands.md R196. -/
def Obligations.CfgOutStepEndsTheTransaction : Prop :=
  ∀ s : State, s.rst = false → s.ph = .cfgOut →
    engineStep s = .next { s with
      trace := s.trace ++ [.cfgExit], status := { s.status with busy := false, done := true }, ph := .idle }

/-- 20_memory.md R74, 70_reset_and_hazards.md R236: a host write to a register other than CTRL commutes with the engine's step: the
transaction in progress does not see it. -/
def Obligations.HostWritesDoNotDisturbTheEngine : Prop :=
  ∀ (s : State) (r : Reg) (v : Half),
    engineStep (s.storeRegister r v) = mapNext (fun t => t.storeRegister r v) (engineStep s)

/-- 20_memory.md R70: the engine never writes CMD or ARG1..ARG4, a start request's inputs. -/
def Obligations.EngineKeepsTheHostsRegisters : Prop :=
  ∀ s t : State, engineStep s = .next t →
    t.cmd = s.cmd ∧ t.arg1 = s.arg1 ∧ t.arg2 = s.arg2 ∧ t.arg3 = s.arg3 ∧ t.arg4 = s.arg4
    ∧ t.lcmd = s.lcmd ∧ t.frame = s.frame ∧ t.respLen = s.respLen ∧ t.payLen = s.payLen
    ∧ t.hostReads = s.hostReads ∧ t.rst = s.rst ∧ t.agenda = s.agenda ∧ t.rbEpoch = s.rbEpoch

/-! ### Checksum and frame -/

/-- 40_checksum.md R102: the closed form. -/
def Obligations.ChecksumClosedForm : Prop :=
  ∀ bs : List Byte,
    (checksum bs).toNat =
      if (bs.map BitVec.toNat).sum = 0 then 0 else ((bs.map BitVec.toNat).sum - 1) % 255 + 1

/-- 40_checksum.md R101: the accumulator never leaves 0..0xFF, and the sum before the fold never exceeds 0x1FE. -/
def Obligations.ChecksumAccumulatorStaysInAByte : Prop :=
  ∀ (bs : List Byte) (b : Byte),
    (checksumAcc bs).toNat ≤ 0xFF ∧ (checksumAcc bs + b.setWidth 16).toNat ≤ 0x1FE

/-- 40_checksum.md R103: the four weaknesses, kept as they are. -/
def Obligations.ChecksumWeaknessesAreKept : Prop :=
  (∀ bs cs : List Byte, bs.Perm cs → checksum bs = checksum cs)
  ∧ (∀ bs : List Byte, checksum bs = 0 ↔ ∀ b ∈ bs, b = 0)
  ∧ (∀ (xs ys : List Byte) (a b : Byte), a ≠ b →
      (checksum (xs ++ a :: ys) = checksum (xs ++ b :: ys) ↔
        ((a = 0x00 ∧ b = 0xFF) ∨ (a = 0xFF ∧ b = 0x00)) ∧ ∃ c ∈ xs ++ ys, c ≠ 0))
  ∧ (∀ xs ys : List Byte, checksum (xs ++ 0x00 :: ys) = checksum (xs ++ ys))

/-- 41_encoder.md R110: the seven bytes of a frame, and a checksum that is never 0x00. -/
def Obligations.FrameIsHeadAndChecksum : Prop :=
  ∀ c a1 a2 a3 a4 : Byte,
    (encodeFrame c a1 a2 a3 a4).bytes
      = [0x70, c, a1, a2, a3, a4] ++ [checksum [0x70, c, a1, a2, a3, a4]]
    ∧ (encodeFrame c a1 a2 a3 a4).checksum ≠ 0

/-- 41_encoder.md R114: the four frames with zero arguments, and byte 6 the checksum of bytes 0 to 5. -/
def Obligations.FramesWithZeroArguments : Prop :=
  (encodeFrame 0xFF 0 0 0 0).bytes = [0x70, 0xFF, 0x00, 0x00, 0x00, 0x00, 0x70]
  ∧ (encodeFrame 0xFE 0 0 0 0).bytes = [0x70, 0xFE, 0x00, 0x00, 0x00, 0x00, 0x6F]
  ∧ (encodeFrame 0xF4 0 0 0 0).bytes = [0x70, 0xF4, 0x00, 0x00, 0x00, 0x00, 0x65]
  ∧ (encodeFrame 0xF2 0 0 0 0).bytes = [0x70, 0xF2, 0x00, 0x00, 0x00, 0x00, 0x63]
  ∧ ∀ c : Byte, (encodeFrame c 0 0 0 0).bytes[6]? = some (checksum ((encodeFrame c 0 0 0 0).bytes.take 6))

/-- 43_validator.md R149: swapping payload bytes, or any permutation of them, is never detected. -/
def Obligations.PayloadPermutationIsNotDetected : Prop :=
  ∀ (p q : List Byte) (c0 c1 tail : Byte) (n : Nat), p.Perm q →
    validate (c0 :: c1 :: (p ++ [tail])) (p.length + 3) n
      = validate (c0 :: c1 :: (q ++ [tail])) (p.length + 3) n

/-! ### Transactions -/

/-- 45_commands.md R185, R199; 20_memory.md R72: a RESET transaction of an engine left alone takes nine steps, sends its seven frame
bytes between CfgEnter and CfgExit, and ends with DONE alone. -/
def Obligations.ResetTransactionTakesNineSteps : Prop :=
  ∀ (s : State) (a1 a2 a3 a4 : Byte), s.rst = false → s.ph = .idle → s.agenda = [] →
    ∃ t : State, exec (.reset a1 a2 a3 a4) s = .next t
      ∧ Sys2Proof.core.run 9 t = .next { t with
          trace := s.trace ++ [.cfgEnter s.params.portCfg] ++ frameEvents (encodeFrame 0xFF a1 a2 a3 a4) ++ [.cfgExit]
          status := ⟨false, true, false, false, false, false⟩
          txi := 6
          ph := .idle }
      ∧ ∀ k, k < 9 → ∃ u : State, Sys2Proof.core.run k t = .next u ∧ u.status.busy = true

/-- 45_commands.md R199: a transaction with a response of an engine left alone ends, with DONE = 1, after at least 12 and at
most 11 + L × P_MAX_WAIT steps, whatever the environment answers, and is BUSY until then. -/
def Obligations.ResponseTransactionEndsInBoundedSteps : Prop :=
  ∀ (s : State) (c : Command) (a1 a2 a3 a4 : Byte), c ≠ .reset → s.rst = false → s.ph = .idle → s.agenda = [] →
    ∃ (t : State) (k : Nat), exec (c.instr a1 a2 a3 a4) s = .next t
      ∧ 12 ≤ k ∧ k ≤ 11 + c.respLen.toNat * s.params.maxWait.polls
      ∧ (∃ u : State, Sys2Proof.core.run k t = .next u
          ∧ u.ph = .idle ∧ u.status.busy = false ∧ u.status.done = true ∧ u.lcmd = c.code)
      ∧ ∀ j, j < k → ∃ u : State, Sys2Proof.core.run j t = .next u ∧ u.status.busy = true

/-- 20_memory.md R72: the events of a response transaction of an engine left alone: CfgEnter, the seven Tx in frame order, Poll
and Rd events only, CfgExit. -/
def Obligations.ResponseTransactionTraceShape : Prop :=
  ∀ (s : State) (c : Command) (a1 a2 a3 a4 : Byte), c ≠ .reset → s.rst = false → s.ph = .idle → s.agenda = [] →
    ∃ (t u : State) (k : Nat) (heard : List SerialAnswer), exec (c.instr a1 a2 a3 a4) s = .next t
      ∧ Sys2Proof.core.run k t = .next u ∧ u.ph = .idle
      ∧ u.trace = s.trace ++ [.cfgEnter s.params.portCfg] ++ frameEvents (encodeFrame c.code a1 a2 a3 a4)
          ++ heard.flatMap answerEvents ++ [.cfgExit]
      ∧ k = 11 + heard.length

/-- 42_receiver.md R132, R127: the engine's reception is rx(L, M, A): same buffer, same count, same answers used, and RB outside
[0..L) unchanged. -/
def Obligations.ReceptionRefinesTheFunctionRx : Prop :=
  ∀ (s : State) (r : Reception), s.rst = false → s.agenda = [] → s.ph = .rx → s.rxi = 0 → s.wcnt = 0 → s.rxCount = 0 →
    1 ≤ s.respLen.toNat → s.respLen.toNat ≤ 307 →
    receive s.respLen.toNat s.params.maxWait.polls s.answers = some r →
    ∃ t : State, Sys2Proof.core.run r.used s = .next t ∧ t.ph = .val ∧ t.rxCount.toNat = r.count
      ∧ t.rbSlice 0 s.respLen.toNat = r.buffer
      ∧ (∀ i, s.respLen.toNat ≤ i → t.rbByte i = s.rbByte i)
      ∧ t.answers = s.answers.drop r.used
      ∧ t.trace = s.trace ++ (s.answers.take r.used).flatMap answerEvents

/-- 42_receiver.md R127, R128, R130 for rx(L, M, A): it returns L bytes, the count is at most L and the bytes from the count on
are zeros, and it uses at most L × M answers. -/
def Obligations.RxReturnsLBytesWithinItsBudget : Prop :=
  ∀ (len m : Nat) (as : List SerialAnswer) (r : Reception), 1 ≤ m → receive len m as = some r →
    r.buffer.length = len ∧ r.count ≤ len ∧ r.buffer.drop r.count = List.replicate (len - r.count) 0
    ∧ r.used ≤ len * m ∧ r.used ≤ as.length

/-- 45_commands.md R186 to R188 on a valid response: prefix 'A' 'C', any payload, its checksum. After 11 + L steps the outcome is OK
and the payload stands in RB[2..L-2]. -/
def Obligations.ValidResponseIsDeliveredUnmodified : Prop :=
  ∀ (s : State) (c : Command) (a1 a2 a3 a4 : Byte) (p : List Byte) (more : List SerialAnswer), c ≠ .reset →
    s.rst = false → s.ph = .idle → s.agenda = [] → p.length + 3 = c.respLen.toNat →
    s.answers = ([0x41, 0x43] ++ p ++ [checksum p]).map (fun b => .ready (.byte b)) ++ more →
    ∃ t u : State, exec (c.instr a1 a2 a3 a4) s = .next t
      ∧ Sys2Proof.core.run (11 + c.respLen.toNat) t = .next u
      ∧ u.ph = .idle ∧ u.outcome = .ok ∧ u.status.byte = 0x5E ∧ u.rxCount = c.respLen
      ∧ u.viewBytes u.payloadView = p ∧ u.expChk = checksum p ∧ u.rcvChk = checksum p ∧ u.answers = more

/-- 20_memory.md R62, 42_receiver.md R128: what RB held before the transaction wrote it does not matter: two states that differ only
there take engine steps to states that differ only there. -/
def Obligations.UnwrittenBufferContentDoesNotMatter : Prop :=
  ∀ s t s' : State, MachineInv s → SameButUnwritten s t → engineStep s = .next s' →
    ∃ t', engineStep t = .next t' ∧ SameButUnwritten s' t'
end

