-- ==== Sys2Proof/Laws/Codec.lean ====
section
/-! SUPPORT. The pieces of the two word formats: fields of an assembled word, register numbers, command codes. -/

namespace Sys2Proof

@[simp] theorem commandWord_code (c a1 a2 a3 a4 : Byte) :
    (commandWord c a1 a2 a3 a4).extractLsb' 0 8 = c := by
  ext i hi
  simp only [commandWord, BitVec.getElem_extractLsb']
  grind

@[simp] theorem commandWord_a1 (c a1 a2 a3 a4 : Byte) :
    (commandWord c a1 a2 a3 a4).extractLsb' 8 8 = a1 := by
  ext i hi
  simp only [commandWord, BitVec.getElem_extractLsb']
  grind

@[simp] theorem commandWord_a2 (c a1 a2 a3 a4 : Byte) :
    (commandWord c a1 a2 a3 a4).extractLsb' 16 8 = a2 := by
  ext i hi
  simp only [commandWord, BitVec.getElem_extractLsb']
  grind

@[simp] theorem commandWord_a3 (c a1 a2 a3 a4 : Byte) :
    (commandWord c a1 a2 a3 a4).extractLsb' 24 8 = a3 := by
  ext i hi
  simp only [commandWord, BitVec.getElem_extractLsb']
  grind

@[simp] theorem commandWord_a4 (c a1 a2 a3 a4 : Byte) :
    (commandWord c a1 a2 a3 a4).extractLsb' 32 8 = a4 := by
  ext i hi
  simp only [commandWord, BitVec.getElem_extractLsb']
  grind

@[simp] theorem hostWord_op (op : BitVec 2) (r : Byte) (v : Half) : (hostWord op r v).extractLsb' 30 2 = op := by
  ext i hi
  simp only [hostWord, BitVec.getElem_extractLsb']
  grind

@[simp] theorem hostWord_reserved (op : BitVec 2) (r : Byte) (v : Half) :
    (hostWord op r v).extractLsb' 24 6 = 0 := by
  ext i hi
  simp only [hostWord, BitVec.getElem_extractLsb']
  grind

@[simp] theorem hostWord_reg (op : BitVec 2) (r : Byte) (v : Half) : (hostWord op r v).extractLsb' 16 8 = r := by
  ext i hi
  simp only [hostWord, BitVec.getElem_extractLsb']
  grind

@[simp] theorem hostWord_val (op : BitVec 2) (r : Byte) (v : Half) : (hostWord op r v).extractLsb' 0 16 = v := by
  ext i hi
  simp only [hostWord, BitVec.getElem_extractLsb']
  grind

/-- Each number names one register, and the register's number is that number. -/
theorem number_ofNumber : ∀ n : Byte, (Reg.ofNumber n).number = n := by decide

/-- A number names a register term that is well formed. -/
theorem wellFormed_ofNumber : ∀ n : Byte, (Reg.ofNumber n).wellFormed = true := by decide

/-- A well-formed register term is the one its number names. -/
theorem ofNumber_number (r : Reg) (h : r.wellFormed = true) : Reg.ofNumber r.number = r := by
  have unassigned : ∀ n : Byte, (!assignedNumber n) = true → Reg.ofNumber n = .unassigned n := by decide
  cases r with
  | frame k => revert k; decide
  | hostNlen k => revert k; decide
  | devHost k => revert k; decide
  | devMode k => revert k; decide
  | devFlen k => revert k; decide
  | unassigned n => exact unassigned n h
  | _ => rfl

@[simp] theorem ofCode_code (c : Command) : Command.ofCode c.code = some c := by cases c <;> rfl

/-- A code names a command exactly when it is the command's code (30_encoding.md R81). -/
theorem ofCode_eq_some {b : Byte} {c : Command} : Command.ofCode b = some c ↔ b = c.code := by
  constructor
  · have : ∀ (b : Byte) (c : Command), Command.ofCode b = some c → b = c.code := by
      intro b c
      cases c <;> revert b <;> decide
    exact this b c
  · rintro rfl
    simp

end Sys2Proof
end

