-- ==== Sys2Proof/Laws/State.lean ====
section
/-! SUPPORT. One lemma per field per named update of the state. -/

namespace Sys2Proof.Machine

/-! ### emit -/

@[simp] theorem emit_cmd (s : State) (e : Event) : (s.emit e).cmd = s.cmd := rfl
@[simp] theorem emit_arg1 (s : State) (e : Event) : (s.emit e).arg1 = s.arg1 := rfl
@[simp] theorem emit_arg2 (s : State) (e : Event) : (s.emit e).arg2 = s.arg2 := rfl
@[simp] theorem emit_arg3 (s : State) (e : Event) : (s.emit e).arg3 = s.arg3 := rfl
@[simp] theorem emit_arg4 (s : State) (e : Event) : (s.emit e).arg4 = s.arg4 := rfl
@[simp] theorem emit_status (s : State) (e : Event) : (s.emit e).status = s.status := rfl
@[simp] theorem emit_lcmd (s : State) (e : Event) : (s.emit e).lcmd = s.lcmd := rfl
@[simp] theorem emit_expChk (s : State) (e : Event) : (s.emit e).expChk = s.expChk := rfl
@[simp] theorem emit_rcvChk (s : State) (e : Event) : (s.emit e).rcvChk = s.rcvChk := rfl
@[simp] theorem emit_rxCount (s : State) (e : Event) : (s.emit e).rxCount = s.rxCount := rfl
@[simp] theorem emit_respLen (s : State) (e : Event) : (s.emit e).respLen = s.respLen := rfl
@[simp] theorem emit_payLen (s : State) (e : Event) : (s.emit e).payLen = s.payLen := rfl
@[simp] theorem emit_frame (s : State) (e : Event) : (s.emit e).frame = s.frame := rfl
@[simp] theorem emit_dec (s : State) (e : Event) : (s.emit e).dec = s.dec := rfl
@[simp] theorem emit_ph (s : State) (e : Event) : (s.emit e).ph = s.ph := rfl
@[simp] theorem emit_txi (s : State) (e : Event) : (s.emit e).txi = s.txi := rfl
@[simp] theorem emit_rxi (s : State) (e : Event) : (s.emit e).rxi = s.rxi := rfl
@[simp] theorem emit_wcnt (s : State) (e : Event) : (s.emit e).wcnt = s.wcnt := rfl
@[simp] theorem emit_rb (s : State) (e : Event) : (s.emit e).rb = s.rb := rfl
@[simp] theorem emit_rst (s : State) (e : Event) : (s.emit e).rst = s.rst := rfl
@[simp] theorem emit_params (s : State) (e : Event) : (s.emit e).params = s.params := rfl
@[simp] theorem emit_agenda (s : State) (e : Event) : (s.emit e).agenda = s.agenda := rfl
@[simp] theorem emit_answers (s : State) (e : Event) : (s.emit e).answers = s.answers := rfl
@[simp] theorem emit_draws (s : State) (e : Event) : (s.emit e).draws = s.draws := rfl
@[simp] theorem emit_rbEpoch (s : State) (e : Event) : (s.emit e).rbEpoch = s.rbEpoch := rfl
@[simp] theorem emit_trace (s : State) (e : Event) : (s.emit e).trace = s.trace ++ [e] := rfl
@[simp] theorem emit_hostReads (s : State) (e : Event) : (s.emit e).hostReads = s.hostReads := rfl

/-! ### emitAll -/

@[simp] theorem emitAll_cmd (s : State) (es : List Event) : (s.emitAll es).cmd = s.cmd := rfl
@[simp] theorem emitAll_arg1 (s : State) (es : List Event) : (s.emitAll es).arg1 = s.arg1 := rfl
@[simp] theorem emitAll_arg2 (s : State) (es : List Event) : (s.emitAll es).arg2 = s.arg2 := rfl
@[simp] theorem emitAll_arg3 (s : State) (es : List Event) : (s.emitAll es).arg3 = s.arg3 := rfl
@[simp] theorem emitAll_arg4 (s : State) (es : List Event) : (s.emitAll es).arg4 = s.arg4 := rfl
@[simp] theorem emitAll_status (s : State) (es : List Event) : (s.emitAll es).status = s.status := rfl
@[simp] theorem emitAll_lcmd (s : State) (es : List Event) : (s.emitAll es).lcmd = s.lcmd := rfl
@[simp] theorem emitAll_expChk (s : State) (es : List Event) : (s.emitAll es).expChk = s.expChk := rfl
@[simp] theorem emitAll_rcvChk (s : State) (es : List Event) : (s.emitAll es).rcvChk = s.rcvChk := rfl
@[simp] theorem emitAll_rxCount (s : State) (es : List Event) : (s.emitAll es).rxCount = s.rxCount := rfl
@[simp] theorem emitAll_respLen (s : State) (es : List Event) : (s.emitAll es).respLen = s.respLen := rfl
@[simp] theorem emitAll_payLen (s : State) (es : List Event) : (s.emitAll es).payLen = s.payLen := rfl
@[simp] theorem emitAll_frame (s : State) (es : List Event) : (s.emitAll es).frame = s.frame := rfl
@[simp] theorem emitAll_dec (s : State) (es : List Event) : (s.emitAll es).dec = s.dec := rfl
@[simp] theorem emitAll_ph (s : State) (es : List Event) : (s.emitAll es).ph = s.ph := rfl
@[simp] theorem emitAll_txi (s : State) (es : List Event) : (s.emitAll es).txi = s.txi := rfl
@[simp] theorem emitAll_rxi (s : State) (es : List Event) : (s.emitAll es).rxi = s.rxi := rfl
@[simp] theorem emitAll_wcnt (s : State) (es : List Event) : (s.emitAll es).wcnt = s.wcnt := rfl
@[simp] theorem emitAll_rb (s : State) (es : List Event) : (s.emitAll es).rb = s.rb := rfl
@[simp] theorem emitAll_rst (s : State) (es : List Event) : (s.emitAll es).rst = s.rst := rfl
@[simp] theorem emitAll_params (s : State) (es : List Event) : (s.emitAll es).params = s.params := rfl
@[simp] theorem emitAll_agenda (s : State) (es : List Event) : (s.emitAll es).agenda = s.agenda := rfl
@[simp] theorem emitAll_answers (s : State) (es : List Event) : (s.emitAll es).answers = s.answers := rfl
@[simp] theorem emitAll_draws (s : State) (es : List Event) : (s.emitAll es).draws = s.draws := rfl
@[simp] theorem emitAll_rbEpoch (s : State) (es : List Event) : (s.emitAll es).rbEpoch = s.rbEpoch := rfl
@[simp] theorem emitAll_trace (s : State) (es : List Event) : (s.emitAll es).trace = s.trace ++ es := rfl
@[simp] theorem emitAll_hostReads (s : State) (es : List Event) : (s.emitAll es).hostReads = s.hostReads := rfl

/-! ### fill -/

@[simp] theorem fill_cmd (s : State) (a : Nat) (bs : List Byte) : (s.fill a bs).cmd = s.cmd := rfl
@[simp] theorem fill_arg1 (s : State) (a : Nat) (bs : List Byte) : (s.fill a bs).arg1 = s.arg1 := rfl
@[simp] theorem fill_arg2 (s : State) (a : Nat) (bs : List Byte) : (s.fill a bs).arg2 = s.arg2 := rfl
@[simp] theorem fill_arg3 (s : State) (a : Nat) (bs : List Byte) : (s.fill a bs).arg3 = s.arg3 := rfl
@[simp] theorem fill_arg4 (s : State) (a : Nat) (bs : List Byte) : (s.fill a bs).arg4 = s.arg4 := rfl
@[simp] theorem fill_status (s : State) (a : Nat) (bs : List Byte) : (s.fill a bs).status = s.status := rfl
@[simp] theorem fill_lcmd (s : State) (a : Nat) (bs : List Byte) : (s.fill a bs).lcmd = s.lcmd := rfl
@[simp] theorem fill_expChk (s : State) (a : Nat) (bs : List Byte) : (s.fill a bs).expChk = s.expChk := rfl
@[simp] theorem fill_rcvChk (s : State) (a : Nat) (bs : List Byte) : (s.fill a bs).rcvChk = s.rcvChk := rfl
@[simp] theorem fill_rxCount (s : State) (a : Nat) (bs : List Byte) : (s.fill a bs).rxCount = s.rxCount := rfl
@[simp] theorem fill_respLen (s : State) (a : Nat) (bs : List Byte) : (s.fill a bs).respLen = s.respLen := rfl
@[simp] theorem fill_payLen (s : State) (a : Nat) (bs : List Byte) : (s.fill a bs).payLen = s.payLen := rfl
@[simp] theorem fill_frame (s : State) (a : Nat) (bs : List Byte) : (s.fill a bs).frame = s.frame := rfl
@[simp] theorem fill_dec (s : State) (a : Nat) (bs : List Byte) : (s.fill a bs).dec = s.dec := rfl
@[simp] theorem fill_ph (s : State) (a : Nat) (bs : List Byte) : (s.fill a bs).ph = s.ph := rfl
@[simp] theorem fill_txi (s : State) (a : Nat) (bs : List Byte) : (s.fill a bs).txi = s.txi := rfl
@[simp] theorem fill_rxi (s : State) (a : Nat) (bs : List Byte) : (s.fill a bs).rxi = s.rxi := rfl
@[simp] theorem fill_wcnt (s : State) (a : Nat) (bs : List Byte) : (s.fill a bs).wcnt = s.wcnt := rfl
@[simp] theorem fill_rb (s : State) (a : Nat) (bs : List Byte) : (s.fill a bs).rb = s.rb.writeBytes a bs := rfl
@[simp] theorem fill_rst (s : State) (a : Nat) (bs : List Byte) : (s.fill a bs).rst = s.rst := rfl
@[simp] theorem fill_params (s : State) (a : Nat) (bs : List Byte) : (s.fill a bs).params = s.params := rfl
@[simp] theorem fill_agenda (s : State) (a : Nat) (bs : List Byte) : (s.fill a bs).agenda = s.agenda := rfl
@[simp] theorem fill_answers (s : State) (a : Nat) (bs : List Byte) : (s.fill a bs).answers = s.answers := rfl
@[simp] theorem fill_draws (s : State) (a : Nat) (bs : List Byte) : (s.fill a bs).draws = s.draws := rfl
@[simp] theorem fill_rbEpoch (s : State) (a : Nat) (bs : List Byte) : (s.fill a bs).rbEpoch = s.rbEpoch := rfl
@[simp] theorem fill_trace (s : State) (a : Nat) (bs : List Byte) : (s.fill a bs).trace = s.trace := rfl
@[simp] theorem fill_hostReads (s : State) (a : Nat) (bs : List Byte) : (s.fill a bs).hostReads = s.hostReads := rfl

/-! ### deliver -/

@[simp] theorem deliver_cmd (s : State) (v : Half) : (s.deliver v).cmd = s.cmd := rfl
@[simp] theorem deliver_arg1 (s : State) (v : Half) : (s.deliver v).arg1 = s.arg1 := rfl
@[simp] theorem deliver_arg2 (s : State) (v : Half) : (s.deliver v).arg2 = s.arg2 := rfl
@[simp] theorem deliver_arg3 (s : State) (v : Half) : (s.deliver v).arg3 = s.arg3 := rfl
@[simp] theorem deliver_arg4 (s : State) (v : Half) : (s.deliver v).arg4 = s.arg4 := rfl
@[simp] theorem deliver_status (s : State) (v : Half) : (s.deliver v).status = s.status := rfl
@[simp] theorem deliver_lcmd (s : State) (v : Half) : (s.deliver v).lcmd = s.lcmd := rfl
@[simp] theorem deliver_expChk (s : State) (v : Half) : (s.deliver v).expChk = s.expChk := rfl
@[simp] theorem deliver_rcvChk (s : State) (v : Half) : (s.deliver v).rcvChk = s.rcvChk := rfl
@[simp] theorem deliver_rxCount (s : State) (v : Half) : (s.deliver v).rxCount = s.rxCount := rfl
@[simp] theorem deliver_respLen (s : State) (v : Half) : (s.deliver v).respLen = s.respLen := rfl
@[simp] theorem deliver_payLen (s : State) (v : Half) : (s.deliver v).payLen = s.payLen := rfl
@[simp] theorem deliver_frame (s : State) (v : Half) : (s.deliver v).frame = s.frame := rfl
@[simp] theorem deliver_dec (s : State) (v : Half) : (s.deliver v).dec = s.dec := rfl
@[simp] theorem deliver_ph (s : State) (v : Half) : (s.deliver v).ph = s.ph := rfl
@[simp] theorem deliver_txi (s : State) (v : Half) : (s.deliver v).txi = s.txi := rfl
@[simp] theorem deliver_rxi (s : State) (v : Half) : (s.deliver v).rxi = s.rxi := rfl
@[simp] theorem deliver_wcnt (s : State) (v : Half) : (s.deliver v).wcnt = s.wcnt := rfl
@[simp] theorem deliver_rb (s : State) (v : Half) : (s.deliver v).rb = s.rb := rfl
@[simp] theorem deliver_rst (s : State) (v : Half) : (s.deliver v).rst = s.rst := rfl
@[simp] theorem deliver_params (s : State) (v : Half) : (s.deliver v).params = s.params := rfl
@[simp] theorem deliver_agenda (s : State) (v : Half) : (s.deliver v).agenda = s.agenda := rfl
@[simp] theorem deliver_answers (s : State) (v : Half) : (s.deliver v).answers = s.answers := rfl
@[simp] theorem deliver_draws (s : State) (v : Half) : (s.deliver v).draws = s.draws := rfl
@[simp] theorem deliver_rbEpoch (s : State) (v : Half) : (s.deliver v).rbEpoch = s.rbEpoch := rfl
@[simp] theorem deliver_trace (s : State) (v : Half) : (s.deliver v).trace = s.trace := rfl
@[simp] theorem deliver_hostReads (s : State) (v : Half) : (s.deliver v).hostReads = s.hostReads ++ [v] := rfl

/-! ### enter -/

@[simp] theorem enter_cmd (s : State) (p : Phase) : (s.enter p).cmd = s.cmd := rfl
@[simp] theorem enter_arg1 (s : State) (p : Phase) : (s.enter p).arg1 = s.arg1 := rfl
@[simp] theorem enter_arg2 (s : State) (p : Phase) : (s.enter p).arg2 = s.arg2 := rfl
@[simp] theorem enter_arg3 (s : State) (p : Phase) : (s.enter p).arg3 = s.arg3 := rfl
@[simp] theorem enter_arg4 (s : State) (p : Phase) : (s.enter p).arg4 = s.arg4 := rfl
@[simp] theorem enter_status (s : State) (p : Phase) : (s.enter p).status = s.status := rfl
@[simp] theorem enter_lcmd (s : State) (p : Phase) : (s.enter p).lcmd = s.lcmd := rfl
@[simp] theorem enter_expChk (s : State) (p : Phase) : (s.enter p).expChk = s.expChk := rfl
@[simp] theorem enter_rcvChk (s : State) (p : Phase) : (s.enter p).rcvChk = s.rcvChk := rfl
@[simp] theorem enter_rxCount (s : State) (p : Phase) : (s.enter p).rxCount = s.rxCount := rfl
@[simp] theorem enter_respLen (s : State) (p : Phase) : (s.enter p).respLen = s.respLen := rfl
@[simp] theorem enter_payLen (s : State) (p : Phase) : (s.enter p).payLen = s.payLen := rfl
@[simp] theorem enter_frame (s : State) (p : Phase) : (s.enter p).frame = s.frame := rfl
@[simp] theorem enter_dec (s : State) (p : Phase) : (s.enter p).dec = s.dec := rfl
@[simp] theorem enter_ph (s : State) (p : Phase) : (s.enter p).ph = p := rfl
@[simp] theorem enter_txi (s : State) (p : Phase) : (s.enter p).txi = s.txi := rfl
@[simp] theorem enter_rxi (s : State) (p : Phase) : (s.enter p).rxi = s.rxi := rfl
@[simp] theorem enter_wcnt (s : State) (p : Phase) : (s.enter p).wcnt = s.wcnt := rfl
@[simp] theorem enter_rb (s : State) (p : Phase) : (s.enter p).rb = s.rb := rfl
@[simp] theorem enter_rst (s : State) (p : Phase) : (s.enter p).rst = s.rst := rfl
@[simp] theorem enter_params (s : State) (p : Phase) : (s.enter p).params = s.params := rfl
@[simp] theorem enter_agenda (s : State) (p : Phase) : (s.enter p).agenda = s.agenda := rfl
@[simp] theorem enter_answers (s : State) (p : Phase) : (s.enter p).answers = s.answers := rfl
@[simp] theorem enter_draws (s : State) (p : Phase) : (s.enter p).draws = s.draws := rfl
@[simp] theorem enter_rbEpoch (s : State) (p : Phase) : (s.enter p).rbEpoch = s.rbEpoch := rfl
@[simp] theorem enter_trace (s : State) (p : Phase) : (s.enter p).trace = s.trace := rfl
@[simp] theorem enter_hostReads (s : State) (p : Phase) : (s.enter p).hostReads = s.hostReads := rfl

/-! ### withAgenda -/

@[simp] theorem withAgenda_cmd (s : State) (ts : List Turn) : (s.withAgenda ts).cmd = s.cmd := rfl
@[simp] theorem withAgenda_arg1 (s : State) (ts : List Turn) : (s.withAgenda ts).arg1 = s.arg1 := rfl
@[simp] theorem withAgenda_arg2 (s : State) (ts : List Turn) : (s.withAgenda ts).arg2 = s.arg2 := rfl
@[simp] theorem withAgenda_arg3 (s : State) (ts : List Turn) : (s.withAgenda ts).arg3 = s.arg3 := rfl
@[simp] theorem withAgenda_arg4 (s : State) (ts : List Turn) : (s.withAgenda ts).arg4 = s.arg4 := rfl
@[simp] theorem withAgenda_status (s : State) (ts : List Turn) : (s.withAgenda ts).status = s.status := rfl
@[simp] theorem withAgenda_lcmd (s : State) (ts : List Turn) : (s.withAgenda ts).lcmd = s.lcmd := rfl
@[simp] theorem withAgenda_expChk (s : State) (ts : List Turn) : (s.withAgenda ts).expChk = s.expChk := rfl
@[simp] theorem withAgenda_rcvChk (s : State) (ts : List Turn) : (s.withAgenda ts).rcvChk = s.rcvChk := rfl
@[simp] theorem withAgenda_rxCount (s : State) (ts : List Turn) : (s.withAgenda ts).rxCount = s.rxCount := rfl
@[simp] theorem withAgenda_respLen (s : State) (ts : List Turn) : (s.withAgenda ts).respLen = s.respLen := rfl
@[simp] theorem withAgenda_payLen (s : State) (ts : List Turn) : (s.withAgenda ts).payLen = s.payLen := rfl
@[simp] theorem withAgenda_frame (s : State) (ts : List Turn) : (s.withAgenda ts).frame = s.frame := rfl
@[simp] theorem withAgenda_dec (s : State) (ts : List Turn) : (s.withAgenda ts).dec = s.dec := rfl
@[simp] theorem withAgenda_ph (s : State) (ts : List Turn) : (s.withAgenda ts).ph = s.ph := rfl
@[simp] theorem withAgenda_txi (s : State) (ts : List Turn) : (s.withAgenda ts).txi = s.txi := rfl
@[simp] theorem withAgenda_rxi (s : State) (ts : List Turn) : (s.withAgenda ts).rxi = s.rxi := rfl
@[simp] theorem withAgenda_wcnt (s : State) (ts : List Turn) : (s.withAgenda ts).wcnt = s.wcnt := rfl
@[simp] theorem withAgenda_rb (s : State) (ts : List Turn) : (s.withAgenda ts).rb = s.rb := rfl
@[simp] theorem withAgenda_rst (s : State) (ts : List Turn) : (s.withAgenda ts).rst = s.rst := rfl
@[simp] theorem withAgenda_params (s : State) (ts : List Turn) : (s.withAgenda ts).params = s.params := rfl
@[simp] theorem withAgenda_agenda (s : State) (ts : List Turn) : (s.withAgenda ts).agenda = ts := rfl
@[simp] theorem withAgenda_answers (s : State) (ts : List Turn) : (s.withAgenda ts).answers = s.answers := rfl
@[simp] theorem withAgenda_draws (s : State) (ts : List Turn) : (s.withAgenda ts).draws = s.draws := rfl
@[simp] theorem withAgenda_rbEpoch (s : State) (ts : List Turn) : (s.withAgenda ts).rbEpoch = s.rbEpoch := rfl
@[simp] theorem withAgenda_trace (s : State) (ts : List Turn) : (s.withAgenda ts).trace = s.trace := rfl
@[simp] theorem withAgenda_hostReads (s : State) (ts : List Turn) : (s.withAgenda ts).hostReads = s.hostReads := rfl

/-! ### lineUp -/

@[simp] theorem lineUp_cmd (s : State) (ts : List Turn) : (s.lineUp ts).cmd = s.cmd := rfl
@[simp] theorem lineUp_arg1 (s : State) (ts : List Turn) : (s.lineUp ts).arg1 = s.arg1 := rfl
@[simp] theorem lineUp_arg2 (s : State) (ts : List Turn) : (s.lineUp ts).arg2 = s.arg2 := rfl
@[simp] theorem lineUp_arg3 (s : State) (ts : List Turn) : (s.lineUp ts).arg3 = s.arg3 := rfl
@[simp] theorem lineUp_arg4 (s : State) (ts : List Turn) : (s.lineUp ts).arg4 = s.arg4 := rfl
@[simp] theorem lineUp_status (s : State) (ts : List Turn) : (s.lineUp ts).status = s.status := rfl
@[simp] theorem lineUp_lcmd (s : State) (ts : List Turn) : (s.lineUp ts).lcmd = s.lcmd := rfl
@[simp] theorem lineUp_expChk (s : State) (ts : List Turn) : (s.lineUp ts).expChk = s.expChk := rfl
@[simp] theorem lineUp_rcvChk (s : State) (ts : List Turn) : (s.lineUp ts).rcvChk = s.rcvChk := rfl
@[simp] theorem lineUp_rxCount (s : State) (ts : List Turn) : (s.lineUp ts).rxCount = s.rxCount := rfl
@[simp] theorem lineUp_respLen (s : State) (ts : List Turn) : (s.lineUp ts).respLen = s.respLen := rfl
@[simp] theorem lineUp_payLen (s : State) (ts : List Turn) : (s.lineUp ts).payLen = s.payLen := rfl
@[simp] theorem lineUp_frame (s : State) (ts : List Turn) : (s.lineUp ts).frame = s.frame := rfl
@[simp] theorem lineUp_dec (s : State) (ts : List Turn) : (s.lineUp ts).dec = s.dec := rfl
@[simp] theorem lineUp_ph (s : State) (ts : List Turn) : (s.lineUp ts).ph = s.ph := rfl
@[simp] theorem lineUp_txi (s : State) (ts : List Turn) : (s.lineUp ts).txi = s.txi := rfl
@[simp] theorem lineUp_rxi (s : State) (ts : List Turn) : (s.lineUp ts).rxi = s.rxi := rfl
@[simp] theorem lineUp_wcnt (s : State) (ts : List Turn) : (s.lineUp ts).wcnt = s.wcnt := rfl
@[simp] theorem lineUp_rb (s : State) (ts : List Turn) : (s.lineUp ts).rb = s.rb := rfl
@[simp] theorem lineUp_rst (s : State) (ts : List Turn) : (s.lineUp ts).rst = s.rst := rfl
@[simp] theorem lineUp_params (s : State) (ts : List Turn) : (s.lineUp ts).params = s.params := rfl
@[simp] theorem lineUp_agenda (s : State) (ts : List Turn) : (s.lineUp ts).agenda = ts ++ s.agenda := rfl
@[simp] theorem lineUp_answers (s : State) (ts : List Turn) : (s.lineUp ts).answers = s.answers := rfl
@[simp] theorem lineUp_draws (s : State) (ts : List Turn) : (s.lineUp ts).draws = s.draws := rfl
@[simp] theorem lineUp_rbEpoch (s : State) (ts : List Turn) : (s.lineUp ts).rbEpoch = s.rbEpoch := rfl
@[simp] theorem lineUp_trace (s : State) (ts : List Turn) : (s.lineUp ts).trace = s.trace := rfl
@[simp] theorem lineUp_hostReads (s : State) (ts : List Turn) : (s.lineUp ts).hostReads = s.hostReads := rfl

/-! ### released -/

@[simp] theorem released_cmd (s : State) : (s.released).cmd = s.cmd := rfl
@[simp] theorem released_arg1 (s : State) : (s.released).arg1 = s.arg1 := rfl
@[simp] theorem released_arg2 (s : State) : (s.released).arg2 = s.arg2 := rfl
@[simp] theorem released_arg3 (s : State) : (s.released).arg3 = s.arg3 := rfl
@[simp] theorem released_arg4 (s : State) : (s.released).arg4 = s.arg4 := rfl
@[simp] theorem released_status (s : State) : (s.released).status = s.status := rfl
@[simp] theorem released_lcmd (s : State) : (s.released).lcmd = s.lcmd := rfl
@[simp] theorem released_expChk (s : State) : (s.released).expChk = s.expChk := rfl
@[simp] theorem released_rcvChk (s : State) : (s.released).rcvChk = s.rcvChk := rfl
@[simp] theorem released_rxCount (s : State) : (s.released).rxCount = s.rxCount := rfl
@[simp] theorem released_respLen (s : State) : (s.released).respLen = s.respLen := rfl
@[simp] theorem released_payLen (s : State) : (s.released).payLen = s.payLen := rfl
@[simp] theorem released_frame (s : State) : (s.released).frame = s.frame := rfl
@[simp] theorem released_dec (s : State) : (s.released).dec = s.dec := rfl
@[simp] theorem released_ph (s : State) : (s.released).ph = s.ph := rfl
@[simp] theorem released_txi (s : State) : (s.released).txi = s.txi := rfl
@[simp] theorem released_rxi (s : State) : (s.released).rxi = s.rxi := rfl
@[simp] theorem released_wcnt (s : State) : (s.released).wcnt = s.wcnt := rfl
@[simp] theorem released_rb (s : State) : (s.released).rb = s.rb := rfl
@[simp] theorem released_rst (s : State) : (s.released).rst = false := rfl
@[simp] theorem released_params (s : State) : (s.released).params = s.params := rfl
@[simp] theorem released_agenda (s : State) : (s.released).agenda = s.agenda := rfl
@[simp] theorem released_answers (s : State) : (s.released).answers = s.answers := rfl
@[simp] theorem released_draws (s : State) : (s.released).draws = s.draws := rfl
@[simp] theorem released_rbEpoch (s : State) : (s.released).rbEpoch = s.rbEpoch := rfl
@[simp] theorem released_trace (s : State) : (s.released).trace = s.trace := rfl
@[simp] theorem released_hostReads (s : State) : (s.released).hostReads = s.hostReads := rfl

/-! ### holding -/

@[simp] theorem holding_cmd (s : State) (w : BitVec 40) : (s.holding w).cmd = w.extractLsb' 0 8 := rfl
@[simp] theorem holding_arg1 (s : State) (w : BitVec 40) : (s.holding w).arg1 = w.extractLsb' 8 8 := rfl
@[simp] theorem holding_arg2 (s : State) (w : BitVec 40) : (s.holding w).arg2 = w.extractLsb' 16 8 := rfl
@[simp] theorem holding_arg3 (s : State) (w : BitVec 40) : (s.holding w).arg3 = w.extractLsb' 24 8 := rfl
@[simp] theorem holding_arg4 (s : State) (w : BitVec 40) : (s.holding w).arg4 = w.extractLsb' 32 8 := rfl
@[simp] theorem holding_status (s : State) (w : BitVec 40) : (s.holding w).status = s.status := rfl
@[simp] theorem holding_lcmd (s : State) (w : BitVec 40) : (s.holding w).lcmd = s.lcmd := rfl
@[simp] theorem holding_expChk (s : State) (w : BitVec 40) : (s.holding w).expChk = s.expChk := rfl
@[simp] theorem holding_rcvChk (s : State) (w : BitVec 40) : (s.holding w).rcvChk = s.rcvChk := rfl
@[simp] theorem holding_rxCount (s : State) (w : BitVec 40) : (s.holding w).rxCount = s.rxCount := rfl
@[simp] theorem holding_respLen (s : State) (w : BitVec 40) : (s.holding w).respLen = s.respLen := rfl
@[simp] theorem holding_payLen (s : State) (w : BitVec 40) : (s.holding w).payLen = s.payLen := rfl
@[simp] theorem holding_frame (s : State) (w : BitVec 40) : (s.holding w).frame = s.frame := rfl
@[simp] theorem holding_dec (s : State) (w : BitVec 40) : (s.holding w).dec = s.dec := rfl
@[simp] theorem holding_ph (s : State) (w : BitVec 40) : (s.holding w).ph = s.ph := rfl
@[simp] theorem holding_txi (s : State) (w : BitVec 40) : (s.holding w).txi = s.txi := rfl
@[simp] theorem holding_rxi (s : State) (w : BitVec 40) : (s.holding w).rxi = s.rxi := rfl
@[simp] theorem holding_wcnt (s : State) (w : BitVec 40) : (s.holding w).wcnt = s.wcnt := rfl
@[simp] theorem holding_rb (s : State) (w : BitVec 40) : (s.holding w).rb = s.rb := rfl
@[simp] theorem holding_rst (s : State) (w : BitVec 40) : (s.holding w).rst = s.rst := rfl
@[simp] theorem holding_params (s : State) (w : BitVec 40) : (s.holding w).params = s.params := rfl
@[simp] theorem holding_agenda (s : State) (w : BitVec 40) : (s.holding w).agenda = s.agenda := rfl
@[simp] theorem holding_answers (s : State) (w : BitVec 40) : (s.holding w).answers = s.answers := rfl
@[simp] theorem holding_draws (s : State) (w : BitVec 40) : (s.holding w).draws = s.draws := rfl
@[simp] theorem holding_rbEpoch (s : State) (w : BitVec 40) : (s.holding w).rbEpoch = s.rbEpoch := rfl
@[simp] theorem holding_trace (s : State) (w : BitVec 40) : (s.holding w).trace = s.trace := rfl
@[simp] theorem holding_hostReads (s : State) (w : BitVec 40) : (s.holding w).hostReads = s.hostReads := rfl

/-! ### useAnswer -/

@[simp] theorem useAnswer_cmd (s : State) : (s.useAnswer).cmd = s.cmd := by unfold State.useAnswer; split <;> rfl
@[simp] theorem useAnswer_arg1 (s : State) : (s.useAnswer).arg1 = s.arg1 := by unfold State.useAnswer; split <;> rfl
@[simp] theorem useAnswer_arg2 (s : State) : (s.useAnswer).arg2 = s.arg2 := by unfold State.useAnswer; split <;> rfl
@[simp] theorem useAnswer_arg3 (s : State) : (s.useAnswer).arg3 = s.arg3 := by unfold State.useAnswer; split <;> rfl
@[simp] theorem useAnswer_arg4 (s : State) : (s.useAnswer).arg4 = s.arg4 := by unfold State.useAnswer; split <;> rfl
@[simp] theorem useAnswer_status (s : State) : (s.useAnswer).status = s.status := by unfold State.useAnswer; split <;> rfl
@[simp] theorem useAnswer_lcmd (s : State) : (s.useAnswer).lcmd = s.lcmd := by unfold State.useAnswer; split <;> rfl
@[simp] theorem useAnswer_expChk (s : State) : (s.useAnswer).expChk = s.expChk := by unfold State.useAnswer; split <;> rfl
@[simp] theorem useAnswer_rcvChk (s : State) : (s.useAnswer).rcvChk = s.rcvChk := by unfold State.useAnswer; split <;> rfl
@[simp] theorem useAnswer_rxCount (s : State) : (s.useAnswer).rxCount = s.rxCount := by unfold State.useAnswer; split <;> rfl
@[simp] theorem useAnswer_respLen (s : State) : (s.useAnswer).respLen = s.respLen := by unfold State.useAnswer; split <;> rfl
@[simp] theorem useAnswer_payLen (s : State) : (s.useAnswer).payLen = s.payLen := by unfold State.useAnswer; split <;> rfl
@[simp] theorem useAnswer_frame (s : State) : (s.useAnswer).frame = s.frame := by unfold State.useAnswer; split <;> rfl
@[simp] theorem useAnswer_dec (s : State) : (s.useAnswer).dec = s.dec := by unfold State.useAnswer; split <;> rfl
@[simp] theorem useAnswer_ph (s : State) : (s.useAnswer).ph = s.ph := by unfold State.useAnswer; split <;> rfl
@[simp] theorem useAnswer_txi (s : State) : (s.useAnswer).txi = s.txi := by unfold State.useAnswer; split <;> rfl
@[simp] theorem useAnswer_rxi (s : State) : (s.useAnswer).rxi = s.rxi := by unfold State.useAnswer; split <;> rfl
@[simp] theorem useAnswer_wcnt (s : State) : (s.useAnswer).wcnt = s.wcnt := by unfold State.useAnswer; split <;> rfl
@[simp] theorem useAnswer_rb (s : State) : (s.useAnswer).rb = s.rb := by unfold State.useAnswer; split <;> rfl
@[simp] theorem useAnswer_rst (s : State) : (s.useAnswer).rst = s.rst := by unfold State.useAnswer; split <;> rfl
@[simp] theorem useAnswer_params (s : State) : (s.useAnswer).params = s.params := by unfold State.useAnswer; split <;> rfl
@[simp] theorem useAnswer_agenda (s : State) : (s.useAnswer).agenda = s.agenda := by unfold State.useAnswer; split <;> rfl
@[simp] theorem useAnswer_answers (s : State) : (s.useAnswer).answers = s.answers.tail := by unfold State.useAnswer; split <;> simp_all
@[simp] theorem useAnswer_draws (s : State) : (s.useAnswer).draws = if s.answers = [] then s.draws + 1 else s.draws := by unfold State.useAnswer; split <;> simp_all
@[simp] theorem useAnswer_rbEpoch (s : State) : (s.useAnswer).rbEpoch = s.rbEpoch := by unfold State.useAnswer; split <;> rfl
@[simp] theorem useAnswer_trace (s : State) : (s.useAnswer).trace = s.trace := by unfold State.useAnswer; split <;> rfl
@[simp] theorem useAnswer_hostReads (s : State) : (s.useAnswer).hostReads = s.hostReads := by unfold State.useAnswer; split <;> rfl

/-! ### heard -/

@[simp] theorem heard_cmd (s : State) : (s.heard).cmd = s.cmd := by simp [State.heard]
@[simp] theorem heard_arg1 (s : State) : (s.heard).arg1 = s.arg1 := by simp [State.heard]
@[simp] theorem heard_arg2 (s : State) : (s.heard).arg2 = s.arg2 := by simp [State.heard]
@[simp] theorem heard_arg3 (s : State) : (s.heard).arg3 = s.arg3 := by simp [State.heard]
@[simp] theorem heard_arg4 (s : State) : (s.heard).arg4 = s.arg4 := by simp [State.heard]
@[simp] theorem heard_status (s : State) : (s.heard).status = s.status := by simp [State.heard]
@[simp] theorem heard_lcmd (s : State) : (s.heard).lcmd = s.lcmd := by simp [State.heard]
@[simp] theorem heard_expChk (s : State) : (s.heard).expChk = s.expChk := by simp [State.heard]
@[simp] theorem heard_rcvChk (s : State) : (s.heard).rcvChk = s.rcvChk := by simp [State.heard]
@[simp] theorem heard_rxCount (s : State) : (s.heard).rxCount = s.rxCount := by simp [State.heard]
@[simp] theorem heard_respLen (s : State) : (s.heard).respLen = s.respLen := by simp [State.heard]
@[simp] theorem heard_payLen (s : State) : (s.heard).payLen = s.payLen := by simp [State.heard]
@[simp] theorem heard_frame (s : State) : (s.heard).frame = s.frame := by simp [State.heard]
@[simp] theorem heard_dec (s : State) : (s.heard).dec = s.dec := by simp [State.heard]
@[simp] theorem heard_ph (s : State) : (s.heard).ph = s.ph := by simp [State.heard]
@[simp] theorem heard_txi (s : State) : (s.heard).txi = s.txi := by simp [State.heard]
@[simp] theorem heard_rxi (s : State) : (s.heard).rxi = s.rxi := by simp [State.heard]
@[simp] theorem heard_wcnt (s : State) : (s.heard).wcnt = s.wcnt := by simp [State.heard]
@[simp] theorem heard_rb (s : State) : (s.heard).rb = s.rb := by simp [State.heard]
@[simp] theorem heard_rst (s : State) : (s.heard).rst = s.rst := by simp [State.heard]
@[simp] theorem heard_params (s : State) : (s.heard).params = s.params := by simp [State.heard]
@[simp] theorem heard_agenda (s : State) : (s.heard).agenda = s.agenda := by simp [State.heard]
@[simp] theorem heard_answers (s : State) : (s.heard).answers = s.answers.tail := by simp [State.heard]
@[simp] theorem heard_draws (s : State) : (s.heard).draws = if s.answers = [] then s.draws + 1 else s.draws := by simp [State.heard]
@[simp] theorem heard_rbEpoch (s : State) : (s.heard).rbEpoch = s.rbEpoch := by simp [State.heard]
@[simp] theorem heard_trace (s : State) : (s.heard).trace = s.trace ++ answerEvents s.answer := by simp [State.heard]
@[simp] theorem heard_hostReads (s : State) : (s.heard).hostReads = s.hostReads := by simp [State.heard]

/-! ### storeRegister -/

@[simp] theorem storeRegister_cmd (s : State) (r : Reg) (v : Half) : (s.storeRegister r v).cmd = if r = .cmd then low8 v else s.cmd := by cases r <;> rfl
@[simp] theorem storeRegister_arg1 (s : State) (r : Reg) (v : Half) : (s.storeRegister r v).arg1 = if r = .arg1 then low8 v else s.arg1 := by cases r <;> rfl
@[simp] theorem storeRegister_arg2 (s : State) (r : Reg) (v : Half) : (s.storeRegister r v).arg2 = if r = .arg2 then low8 v else s.arg2 := by cases r <;> rfl
@[simp] theorem storeRegister_arg3 (s : State) (r : Reg) (v : Half) : (s.storeRegister r v).arg3 = if r = .arg3 then low8 v else s.arg3 := by cases r <;> rfl
@[simp] theorem storeRegister_arg4 (s : State) (r : Reg) (v : Half) : (s.storeRegister r v).arg4 = if r = .arg4 then low8 v else s.arg4 := by cases r <;> rfl
@[simp] theorem storeRegister_status (s : State) (r : Reg) (v : Half) : (s.storeRegister r v).status = s.status := by cases r <;> rfl
@[simp] theorem storeRegister_lcmd (s : State) (r : Reg) (v : Half) : (s.storeRegister r v).lcmd = s.lcmd := by cases r <;> rfl
@[simp] theorem storeRegister_expChk (s : State) (r : Reg) (v : Half) : (s.storeRegister r v).expChk = s.expChk := by cases r <;> rfl
@[simp] theorem storeRegister_rcvChk (s : State) (r : Reg) (v : Half) : (s.storeRegister r v).rcvChk = s.rcvChk := by cases r <;> rfl
@[simp] theorem storeRegister_rxCount (s : State) (r : Reg) (v : Half) : (s.storeRegister r v).rxCount = s.rxCount := by cases r <;> rfl
@[simp] theorem storeRegister_respLen (s : State) (r : Reg) (v : Half) : (s.storeRegister r v).respLen = s.respLen := by cases r <;> rfl
@[simp] theorem storeRegister_payLen (s : State) (r : Reg) (v : Half) : (s.storeRegister r v).payLen = s.payLen := by cases r <;> rfl
@[simp] theorem storeRegister_frame (s : State) (r : Reg) (v : Half) : (s.storeRegister r v).frame = s.frame := by cases r <;> rfl
@[simp] theorem storeRegister_dec (s : State) (r : Reg) (v : Half) : (s.storeRegister r v).dec = s.dec := by cases r <;> rfl
@[simp] theorem storeRegister_ph (s : State) (r : Reg) (v : Half) : (s.storeRegister r v).ph = s.ph := by cases r <;> rfl
@[simp] theorem storeRegister_txi (s : State) (r : Reg) (v : Half) : (s.storeRegister r v).txi = s.txi := by cases r <;> rfl
@[simp] theorem storeRegister_rxi (s : State) (r : Reg) (v : Half) : (s.storeRegister r v).rxi = s.rxi := by cases r <;> rfl
@[simp] theorem storeRegister_wcnt (s : State) (r : Reg) (v : Half) : (s.storeRegister r v).wcnt = s.wcnt := by cases r <;> rfl
@[simp] theorem storeRegister_rb (s : State) (r : Reg) (v : Half) : (s.storeRegister r v).rb = s.rb := by cases r <;> rfl
@[simp] theorem storeRegister_rst (s : State) (r : Reg) (v : Half) : (s.storeRegister r v).rst = s.rst := by cases r <;> rfl
@[simp] theorem storeRegister_params (s : State) (r : Reg) (v : Half) : (s.storeRegister r v).params = s.params := by cases r <;> rfl
@[simp] theorem storeRegister_agenda (s : State) (r : Reg) (v : Half) : (s.storeRegister r v).agenda = s.agenda := by cases r <;> rfl
@[simp] theorem storeRegister_answers (s : State) (r : Reg) (v : Half) : (s.storeRegister r v).answers = s.answers := by cases r <;> rfl
@[simp] theorem storeRegister_draws (s : State) (r : Reg) (v : Half) : (s.storeRegister r v).draws = s.draws := by cases r <;> rfl
@[simp] theorem storeRegister_rbEpoch (s : State) (r : Reg) (v : Half) : (s.storeRegister r v).rbEpoch = s.rbEpoch := by cases r <;> rfl
@[simp] theorem storeRegister_trace (s : State) (r : Reg) (v : Half) : (s.storeRegister r v).trace = s.trace := by cases r <;> rfl
@[simp] theorem storeRegister_hostReads (s : State) (r : Reg) (v : Half) : (s.storeRegister r v).hostReads = s.hostReads := by cases r <;> rfl

/-! ### enterReception -/

@[simp] theorem enterReception_cmd (s : State) : (s.enterReception).cmd = s.cmd := rfl
@[simp] theorem enterReception_arg1 (s : State) : (s.enterReception).arg1 = s.arg1 := rfl
@[simp] theorem enterReception_arg2 (s : State) : (s.enterReception).arg2 = s.arg2 := rfl
@[simp] theorem enterReception_arg3 (s : State) : (s.enterReception).arg3 = s.arg3 := rfl
@[simp] theorem enterReception_arg4 (s : State) : (s.enterReception).arg4 = s.arg4 := rfl
@[simp] theorem enterReception_status (s : State) : (s.enterReception).status = s.status := rfl
@[simp] theorem enterReception_lcmd (s : State) : (s.enterReception).lcmd = s.lcmd := rfl
@[simp] theorem enterReception_expChk (s : State) : (s.enterReception).expChk = s.expChk := rfl
@[simp] theorem enterReception_rcvChk (s : State) : (s.enterReception).rcvChk = s.rcvChk := rfl
@[simp] theorem enterReception_rxCount (s : State) : (s.enterReception).rxCount = 0 := rfl
@[simp] theorem enterReception_respLen (s : State) : (s.enterReception).respLen = s.respLen := rfl
@[simp] theorem enterReception_payLen (s : State) : (s.enterReception).payLen = s.payLen := rfl
@[simp] theorem enterReception_frame (s : State) : (s.enterReception).frame = s.frame := rfl
@[simp] theorem enterReception_dec (s : State) : (s.enterReception).dec = s.dec := rfl
@[simp] theorem enterReception_ph (s : State) : (s.enterReception).ph = .rx := rfl
@[simp] theorem enterReception_txi (s : State) : (s.enterReception).txi = s.txi := rfl
@[simp] theorem enterReception_rxi (s : State) : (s.enterReception).rxi = 0 := rfl
@[simp] theorem enterReception_wcnt (s : State) : (s.enterReception).wcnt = 0 := rfl
@[simp] theorem enterReception_rb (s : State) : (s.enterReception).rb = s.rb := rfl
@[simp] theorem enterReception_rst (s : State) : (s.enterReception).rst = s.rst := rfl
@[simp] theorem enterReception_params (s : State) : (s.enterReception).params = s.params := rfl
@[simp] theorem enterReception_agenda (s : State) : (s.enterReception).agenda = s.agenda := rfl
@[simp] theorem enterReception_answers (s : State) : (s.enterReception).answers = s.answers := rfl
@[simp] theorem enterReception_draws (s : State) : (s.enterReception).draws = s.draws := rfl
@[simp] theorem enterReception_rbEpoch (s : State) : (s.enterReception).rbEpoch = s.rbEpoch := rfl
@[simp] theorem enterReception_trace (s : State) : (s.enterReception).trace = s.trace := rfl
@[simp] theorem enterReception_hostReads (s : State) : (s.enterReception).hostReads = s.hostReads := rfl

/-! ### stored -/

@[simp] theorem stored_cmd (s : State) : (s.stored).cmd = s.cmd := rfl
@[simp] theorem stored_arg1 (s : State) : (s.stored).arg1 = s.arg1 := rfl
@[simp] theorem stored_arg2 (s : State) : (s.stored).arg2 = s.arg2 := rfl
@[simp] theorem stored_arg3 (s : State) : (s.stored).arg3 = s.arg3 := rfl
@[simp] theorem stored_arg4 (s : State) : (s.stored).arg4 = s.arg4 := rfl
@[simp] theorem stored_status (s : State) : (s.stored).status = s.status := rfl
@[simp] theorem stored_lcmd (s : State) : (s.stored).lcmd = s.lcmd := rfl
@[simp] theorem stored_expChk (s : State) : (s.stored).expChk = s.expChk := rfl
@[simp] theorem stored_rcvChk (s : State) : (s.stored).rcvChk = s.rcvChk := rfl
@[simp] theorem stored_rxCount (s : State) : (s.stored).rxCount = s.rxCount + 1 := rfl
@[simp] theorem stored_respLen (s : State) : (s.stored).respLen = s.respLen := rfl
@[simp] theorem stored_payLen (s : State) : (s.stored).payLen = s.payLen := rfl
@[simp] theorem stored_frame (s : State) : (s.stored).frame = s.frame := rfl
@[simp] theorem stored_dec (s : State) : (s.stored).dec = s.dec := rfl
@[simp] theorem stored_ph (s : State) : (s.stored).ph = if s.rxi.toNat + 1 = s.respLen.toNat then .val else s.ph := rfl
@[simp] theorem stored_txi (s : State) : (s.stored).txi = s.txi := rfl
@[simp] theorem stored_rxi (s : State) : (s.stored).rxi = s.rxi + 1 := rfl
@[simp] theorem stored_wcnt (s : State) : (s.stored).wcnt = 0 := rfl
@[simp] theorem stored_rb (s : State) : (s.stored).rb = s.rb := rfl
@[simp] theorem stored_rst (s : State) : (s.stored).rst = s.rst := rfl
@[simp] theorem stored_params (s : State) : (s.stored).params = s.params := rfl
@[simp] theorem stored_agenda (s : State) : (s.stored).agenda = s.agenda := rfl
@[simp] theorem stored_answers (s : State) : (s.stored).answers = s.answers := rfl
@[simp] theorem stored_draws (s : State) : (s.stored).draws = s.draws := rfl
@[simp] theorem stored_rbEpoch (s : State) : (s.stored).rbEpoch = s.rbEpoch := rfl
@[simp] theorem stored_trace (s : State) : (s.stored).trace = s.trace := rfl
@[simp] theorem stored_hostReads (s : State) : (s.stored).hostReads = s.hostReads := rfl

/-! ### aborted -/

@[simp] theorem aborted_cmd (s : State) : (s.aborted).cmd = s.cmd := rfl
@[simp] theorem aborted_arg1 (s : State) : (s.aborted).arg1 = s.arg1 := rfl
@[simp] theorem aborted_arg2 (s : State) : (s.aborted).arg2 = s.arg2 := rfl
@[simp] theorem aborted_arg3 (s : State) : (s.aborted).arg3 = s.arg3 := rfl
@[simp] theorem aborted_arg4 (s : State) : (s.aborted).arg4 = s.arg4 := rfl
@[simp] theorem aborted_status (s : State) : (s.aborted).status = s.status := rfl
@[simp] theorem aborted_lcmd (s : State) : (s.aborted).lcmd = s.lcmd := rfl
@[simp] theorem aborted_expChk (s : State) : (s.aborted).expChk = s.expChk := rfl
@[simp] theorem aborted_rcvChk (s : State) : (s.aborted).rcvChk = s.rcvChk := rfl
@[simp] theorem aborted_rxCount (s : State) : (s.aborted).rxCount = s.rxCount := rfl
@[simp] theorem aborted_respLen (s : State) : (s.aborted).respLen = s.respLen := rfl
@[simp] theorem aborted_payLen (s : State) : (s.aborted).payLen = s.payLen := rfl
@[simp] theorem aborted_frame (s : State) : (s.aborted).frame = s.frame := rfl
@[simp] theorem aborted_dec (s : State) : (s.aborted).dec = s.dec := rfl
@[simp] theorem aborted_ph (s : State) : (s.aborted).ph = .val := rfl
@[simp] theorem aborted_txi (s : State) : (s.aborted).txi = s.txi := rfl
@[simp] theorem aborted_rxi (s : State) : (s.aborted).rxi = s.rxi := rfl
@[simp] theorem aborted_wcnt (s : State) : (s.aborted).wcnt = 0 := rfl
@[simp] theorem aborted_rb (s : State) : (s.aborted).rb = s.rb := rfl
@[simp] theorem aborted_rst (s : State) : (s.aborted).rst = s.rst := rfl
@[simp] theorem aborted_params (s : State) : (s.aborted).params = s.params := rfl
@[simp] theorem aborted_agenda (s : State) : (s.aborted).agenda = s.agenda := rfl
@[simp] theorem aborted_answers (s : State) : (s.aborted).answers = s.answers := rfl
@[simp] theorem aborted_draws (s : State) : (s.aborted).draws = s.draws := rfl
@[simp] theorem aborted_rbEpoch (s : State) : (s.aborted).rbEpoch = s.rbEpoch := rfl
@[simp] theorem aborted_trace (s : State) : (s.aborted).trace = s.trace := rfl
@[simp] theorem aborted_hostReads (s : State) : (s.aborted).hostReads = s.hostReads := rfl

/-! ### missed -/

@[simp] theorem missed_cmd (s : State) : (s.missed).cmd = s.cmd := rfl
@[simp] theorem missed_arg1 (s : State) : (s.missed).arg1 = s.arg1 := rfl
@[simp] theorem missed_arg2 (s : State) : (s.missed).arg2 = s.arg2 := rfl
@[simp] theorem missed_arg3 (s : State) : (s.missed).arg3 = s.arg3 := rfl
@[simp] theorem missed_arg4 (s : State) : (s.missed).arg4 = s.arg4 := rfl
@[simp] theorem missed_status (s : State) : (s.missed).status = s.status := rfl
@[simp] theorem missed_lcmd (s : State) : (s.missed).lcmd = s.lcmd := rfl
@[simp] theorem missed_expChk (s : State) : (s.missed).expChk = s.expChk := rfl
@[simp] theorem missed_rcvChk (s : State) : (s.missed).rcvChk = s.rcvChk := rfl
@[simp] theorem missed_rxCount (s : State) : (s.missed).rxCount = s.rxCount := rfl
@[simp] theorem missed_respLen (s : State) : (s.missed).respLen = s.respLen := rfl
@[simp] theorem missed_payLen (s : State) : (s.missed).payLen = s.payLen := rfl
@[simp] theorem missed_frame (s : State) : (s.missed).frame = s.frame := rfl
@[simp] theorem missed_dec (s : State) : (s.missed).dec = s.dec := rfl
@[simp] theorem missed_ph (s : State) : (s.missed).ph = s.ph := rfl
@[simp] theorem missed_txi (s : State) : (s.missed).txi = s.txi := rfl
@[simp] theorem missed_rxi (s : State) : (s.missed).rxi = s.rxi := rfl
@[simp] theorem missed_wcnt (s : State) : (s.missed).wcnt = s.wcnt + 1 := rfl
@[simp] theorem missed_rb (s : State) : (s.missed).rb = s.rb := rfl
@[simp] theorem missed_rst (s : State) : (s.missed).rst = s.rst := rfl
@[simp] theorem missed_params (s : State) : (s.missed).params = s.params := rfl
@[simp] theorem missed_agenda (s : State) : (s.missed).agenda = s.agenda := rfl
@[simp] theorem missed_answers (s : State) : (s.missed).answers = s.answers := rfl
@[simp] theorem missed_draws (s : State) : (s.missed).draws = s.draws := rfl
@[simp] theorem missed_rbEpoch (s : State) : (s.missed).rbEpoch = s.rbEpoch := rfl
@[simp] theorem missed_trace (s : State) : (s.missed).trace = s.trace := rfl
@[simp] theorem missed_hostReads (s : State) : (s.missed).hostReads = s.hostReads := rfl

/-! ### nextByte -/

@[simp] theorem nextByte_cmd (s : State) : (s.nextByte).cmd = s.cmd := rfl
@[simp] theorem nextByte_arg1 (s : State) : (s.nextByte).arg1 = s.arg1 := rfl
@[simp] theorem nextByte_arg2 (s : State) : (s.nextByte).arg2 = s.arg2 := rfl
@[simp] theorem nextByte_arg3 (s : State) : (s.nextByte).arg3 = s.arg3 := rfl
@[simp] theorem nextByte_arg4 (s : State) : (s.nextByte).arg4 = s.arg4 := rfl
@[simp] theorem nextByte_status (s : State) : (s.nextByte).status = s.status := rfl
@[simp] theorem nextByte_lcmd (s : State) : (s.nextByte).lcmd = s.lcmd := rfl
@[simp] theorem nextByte_expChk (s : State) : (s.nextByte).expChk = s.expChk := rfl
@[simp] theorem nextByte_rcvChk (s : State) : (s.nextByte).rcvChk = s.rcvChk := rfl
@[simp] theorem nextByte_rxCount (s : State) : (s.nextByte).rxCount = s.rxCount := rfl
@[simp] theorem nextByte_respLen (s : State) : (s.nextByte).respLen = s.respLen := rfl
@[simp] theorem nextByte_payLen (s : State) : (s.nextByte).payLen = s.payLen := rfl
@[simp] theorem nextByte_frame (s : State) : (s.nextByte).frame = s.frame := rfl
@[simp] theorem nextByte_dec (s : State) : (s.nextByte).dec = s.dec := rfl
@[simp] theorem nextByte_ph (s : State) : (s.nextByte).ph = s.ph := rfl
@[simp] theorem nextByte_txi (s : State) : (s.nextByte).txi = s.txi + 1 := rfl
@[simp] theorem nextByte_rxi (s : State) : (s.nextByte).rxi = s.rxi := rfl
@[simp] theorem nextByte_wcnt (s : State) : (s.nextByte).wcnt = s.wcnt := rfl
@[simp] theorem nextByte_rb (s : State) : (s.nextByte).rb = s.rb := rfl
@[simp] theorem nextByte_rst (s : State) : (s.nextByte).rst = s.rst := rfl
@[simp] theorem nextByte_params (s : State) : (s.nextByte).params = s.params := rfl
@[simp] theorem nextByte_agenda (s : State) : (s.nextByte).agenda = s.agenda := rfl
@[simp] theorem nextByte_answers (s : State) : (s.nextByte).answers = s.answers := rfl
@[simp] theorem nextByte_draws (s : State) : (s.nextByte).draws = s.draws := rfl
@[simp] theorem nextByte_rbEpoch (s : State) : (s.nextByte).rbEpoch = s.rbEpoch := rfl
@[simp] theorem nextByte_trace (s : State) : (s.nextByte).trace = s.trace := rfl
@[simp] theorem nextByte_hostReads (s : State) : (s.nextByte).hostReads = s.hostReads := rfl

/-! ### finish -/

@[simp] theorem finish_cmd (s : State) : (s.finish).cmd = s.cmd := rfl
@[simp] theorem finish_arg1 (s : State) : (s.finish).arg1 = s.arg1 := rfl
@[simp] theorem finish_arg2 (s : State) : (s.finish).arg2 = s.arg2 := rfl
@[simp] theorem finish_arg3 (s : State) : (s.finish).arg3 = s.arg3 := rfl
@[simp] theorem finish_arg4 (s : State) : (s.finish).arg4 = s.arg4 := rfl
@[simp] theorem finish_status (s : State) : (s.finish).status = { s.status with busy := false, done := true } := rfl
@[simp] theorem finish_lcmd (s : State) : (s.finish).lcmd = s.lcmd := rfl
@[simp] theorem finish_expChk (s : State) : (s.finish).expChk = s.expChk := rfl
@[simp] theorem finish_rcvChk (s : State) : (s.finish).rcvChk = s.rcvChk := rfl
@[simp] theorem finish_rxCount (s : State) : (s.finish).rxCount = s.rxCount := rfl
@[simp] theorem finish_respLen (s : State) : (s.finish).respLen = s.respLen := rfl
@[simp] theorem finish_payLen (s : State) : (s.finish).payLen = s.payLen := rfl
@[simp] theorem finish_frame (s : State) : (s.finish).frame = s.frame := rfl
@[simp] theorem finish_dec (s : State) : (s.finish).dec = s.dec := rfl
@[simp] theorem finish_ph (s : State) : (s.finish).ph = .idle := rfl
@[simp] theorem finish_txi (s : State) : (s.finish).txi = s.txi := rfl
@[simp] theorem finish_rxi (s : State) : (s.finish).rxi = s.rxi := rfl
@[simp] theorem finish_wcnt (s : State) : (s.finish).wcnt = s.wcnt := rfl
@[simp] theorem finish_rb (s : State) : (s.finish).rb = s.rb := rfl
@[simp] theorem finish_rst (s : State) : (s.finish).rst = s.rst := rfl
@[simp] theorem finish_params (s : State) : (s.finish).params = s.params := rfl
@[simp] theorem finish_agenda (s : State) : (s.finish).agenda = s.agenda := rfl
@[simp] theorem finish_answers (s : State) : (s.finish).answers = s.answers := rfl
@[simp] theorem finish_draws (s : State) : (s.finish).draws = s.draws := rfl
@[simp] theorem finish_rbEpoch (s : State) : (s.finish).rbEpoch = s.rbEpoch := rfl
@[simp] theorem finish_trace (s : State) : (s.finish).trace = s.trace := rfl
@[simp] theorem finish_hostReads (s : State) : (s.finish).hostReads = s.hostReads := rfl

/-! ### report -/

@[simp] theorem report_cmd (s : State) (v : Verdict) : (s.report v).cmd = s.cmd := rfl
@[simp] theorem report_arg1 (s : State) (v : Verdict) : (s.report v).arg1 = s.arg1 := rfl
@[simp] theorem report_arg2 (s : State) (v : Verdict) : (s.report v).arg2 = s.arg2 := rfl
@[simp] theorem report_arg3 (s : State) (v : Verdict) : (s.report v).arg3 = s.arg3 := rfl
@[simp] theorem report_arg4 (s : State) (v : Verdict) : (s.report v).arg4 = s.arg4 := rfl
@[simp] theorem report_status (s : State) (v : Verdict) : (s.report v).status = { s.status with pv := v.pv, cv := v.cv } := rfl
@[simp] theorem report_lcmd (s : State) (v : Verdict) : (s.report v).lcmd = s.lcmd := rfl
@[simp] theorem report_expChk (s : State) (v : Verdict) : (s.report v).expChk = v.expected := rfl
@[simp] theorem report_rcvChk (s : State) (v : Verdict) : (s.report v).rcvChk = v.received := rfl
@[simp] theorem report_rxCount (s : State) (v : Verdict) : (s.report v).rxCount = s.rxCount := rfl
@[simp] theorem report_respLen (s : State) (v : Verdict) : (s.report v).respLen = s.respLen := rfl
@[simp] theorem report_payLen (s : State) (v : Verdict) : (s.report v).payLen = s.payLen := rfl
@[simp] theorem report_frame (s : State) (v : Verdict) : (s.report v).frame = s.frame := rfl
@[simp] theorem report_dec (s : State) (v : Verdict) : (s.report v).dec = s.dec := rfl
@[simp] theorem report_ph (s : State) (v : Verdict) : (s.report v).ph = s.ph := rfl
@[simp] theorem report_txi (s : State) (v : Verdict) : (s.report v).txi = s.txi := rfl
@[simp] theorem report_rxi (s : State) (v : Verdict) : (s.report v).rxi = s.rxi := rfl
@[simp] theorem report_wcnt (s : State) (v : Verdict) : (s.report v).wcnt = s.wcnt := rfl
@[simp] theorem report_rb (s : State) (v : Verdict) : (s.report v).rb = s.rb := rfl
@[simp] theorem report_rst (s : State) (v : Verdict) : (s.report v).rst = s.rst := rfl
@[simp] theorem report_params (s : State) (v : Verdict) : (s.report v).params = s.params := rfl
@[simp] theorem report_agenda (s : State) (v : Verdict) : (s.report v).agenda = s.agenda := rfl
@[simp] theorem report_answers (s : State) (v : Verdict) : (s.report v).answers = s.answers := rfl
@[simp] theorem report_draws (s : State) (v : Verdict) : (s.report v).draws = s.draws := rfl
@[simp] theorem report_rbEpoch (s : State) (v : Verdict) : (s.report v).rbEpoch = s.rbEpoch := rfl
@[simp] theorem report_trace (s : State) (v : Verdict) : (s.report v).trace = s.trace := rfl
@[simp] theorem report_hostReads (s : State) (v : Verdict) : (s.report v).hostReads = s.hostReads := rfl

/-! ### clearResults -/

@[simp] theorem clearResults_cmd (c : Byte) (s : State) : (clearResults c s).cmd = s.cmd := rfl
@[simp] theorem clearResults_arg1 (c : Byte) (s : State) : (clearResults c s).arg1 = s.arg1 := rfl
@[simp] theorem clearResults_arg2 (c : Byte) (s : State) : (clearResults c s).arg2 = s.arg2 := rfl
@[simp] theorem clearResults_arg3 (c : Byte) (s : State) : (clearResults c s).arg3 = s.arg3 := rfl
@[simp] theorem clearResults_arg4 (c : Byte) (s : State) : (clearResults c s).arg4 = s.arg4 := rfl
@[simp] theorem clearResults_status (c : Byte) (s : State) : (clearResults c s).status = { s.status with pv := false, cv := false, done := false } := rfl
@[simp] theorem clearResults_lcmd (c : Byte) (s : State) : (clearResults c s).lcmd = c := rfl
@[simp] theorem clearResults_expChk (c : Byte) (s : State) : (clearResults c s).expChk = 0 := rfl
@[simp] theorem clearResults_rcvChk (c : Byte) (s : State) : (clearResults c s).rcvChk = 0 := rfl
@[simp] theorem clearResults_rxCount (c : Byte) (s : State) : (clearResults c s).rxCount = 0 := rfl
@[simp] theorem clearResults_respLen (c : Byte) (s : State) : (clearResults c s).respLen = s.respLen := rfl
@[simp] theorem clearResults_payLen (c : Byte) (s : State) : (clearResults c s).payLen = s.payLen := rfl
@[simp] theorem clearResults_frame (c : Byte) (s : State) : (clearResults c s).frame = s.frame := rfl
@[simp] theorem clearResults_dec (c : Byte) (s : State) : (clearResults c s).dec = .zero := rfl
@[simp] theorem clearResults_ph (c : Byte) (s : State) : (clearResults c s).ph = s.ph := rfl
@[simp] theorem clearResults_txi (c : Byte) (s : State) : (clearResults c s).txi = s.txi := rfl
@[simp] theorem clearResults_rxi (c : Byte) (s : State) : (clearResults c s).rxi = s.rxi := rfl
@[simp] theorem clearResults_wcnt (c : Byte) (s : State) : (clearResults c s).wcnt = s.wcnt := rfl
@[simp] theorem clearResults_rb (c : Byte) (s : State) : (clearResults c s).rb = s.rb := rfl
@[simp] theorem clearResults_rst (c : Byte) (s : State) : (clearResults c s).rst = s.rst := rfl
@[simp] theorem clearResults_params (c : Byte) (s : State) : (clearResults c s).params = s.params := rfl
@[simp] theorem clearResults_agenda (c : Byte) (s : State) : (clearResults c s).agenda = s.agenda := rfl
@[simp] theorem clearResults_answers (c : Byte) (s : State) : (clearResults c s).answers = s.answers := rfl
@[simp] theorem clearResults_draws (c : Byte) (s : State) : (clearResults c s).draws = s.draws := rfl
@[simp] theorem clearResults_rbEpoch (c : Byte) (s : State) : (clearResults c s).rbEpoch = s.rbEpoch := rfl
@[simp] theorem clearResults_trace (c : Byte) (s : State) : (clearResults c s).trace = s.trace := rfl
@[simp] theorem clearResults_hostReads (c : Byte) (s : State) : (clearResults c s).hostReads = s.hostReads := rfl

/-! ### acceptStart -/

@[simp] theorem acceptStart_cmd (c : Command) (a1 a2 a3 a4 : Byte) (s : State) : (acceptStart c a1 a2 a3 a4 s).cmd = s.cmd := rfl
@[simp] theorem acceptStart_arg1 (c : Command) (a1 a2 a3 a4 : Byte) (s : State) : (acceptStart c a1 a2 a3 a4 s).arg1 = s.arg1 := rfl
@[simp] theorem acceptStart_arg2 (c : Command) (a1 a2 a3 a4 : Byte) (s : State) : (acceptStart c a1 a2 a3 a4 s).arg2 = s.arg2 := rfl
@[simp] theorem acceptStart_arg3 (c : Command) (a1 a2 a3 a4 : Byte) (s : State) : (acceptStart c a1 a2 a3 a4 s).arg3 = s.arg3 := rfl
@[simp] theorem acceptStart_arg4 (c : Command) (a1 a2 a3 a4 : Byte) (s : State) : (acceptStart c a1 a2 a3 a4 s).arg4 = s.arg4 := rfl
@[simp] theorem acceptStart_status (c : Command) (a1 a2 a3 a4 : Byte) (s : State) : (acceptStart c a1 a2 a3 a4 s).status = ⟨true, false, false, false, false, c.expectsResponse⟩ := rfl
@[simp] theorem acceptStart_lcmd (c : Command) (a1 a2 a3 a4 : Byte) (s : State) : (acceptStart c a1 a2 a3 a4 s).lcmd = c.code := rfl
@[simp] theorem acceptStart_expChk (c : Command) (a1 a2 a3 a4 : Byte) (s : State) : (acceptStart c a1 a2 a3 a4 s).expChk = 0 := rfl
@[simp] theorem acceptStart_rcvChk (c : Command) (a1 a2 a3 a4 : Byte) (s : State) : (acceptStart c a1 a2 a3 a4 s).rcvChk = 0 := rfl
@[simp] theorem acceptStart_rxCount (c : Command) (a1 a2 a3 a4 : Byte) (s : State) : (acceptStart c a1 a2 a3 a4 s).rxCount = 0 := rfl
@[simp] theorem acceptStart_respLen (c : Command) (a1 a2 a3 a4 : Byte) (s : State) : (acceptStart c a1 a2 a3 a4 s).respLen = c.respLen := rfl
@[simp] theorem acceptStart_payLen (c : Command) (a1 a2 a3 a4 : Byte) (s : State) : (acceptStart c a1 a2 a3 a4 s).payLen = payLenOf c.respLen := rfl
@[simp] theorem acceptStart_frame (c : Command) (a1 a2 a3 a4 : Byte) (s : State) : (acceptStart c a1 a2 a3 a4 s).frame = encodeFrame c.code a1 a2 a3 a4 := rfl
@[simp] theorem acceptStart_dec (c : Command) (a1 a2 a3 a4 : Byte) (s : State) : (acceptStart c a1 a2 a3 a4 s).dec = .zero := rfl
@[simp] theorem acceptStart_ph (c : Command) (a1 a2 a3 a4 : Byte) (s : State) : (acceptStart c a1 a2 a3 a4 s).ph = .cfgIn := rfl
@[simp] theorem acceptStart_txi (c : Command) (a1 a2 a3 a4 : Byte) (s : State) : (acceptStart c a1 a2 a3 a4 s).txi = 0 := rfl
@[simp] theorem acceptStart_rxi (c : Command) (a1 a2 a3 a4 : Byte) (s : State) : (acceptStart c a1 a2 a3 a4 s).rxi = 0 := rfl
@[simp] theorem acceptStart_wcnt (c : Command) (a1 a2 a3 a4 : Byte) (s : State) : (acceptStart c a1 a2 a3 a4 s).wcnt = 0 := rfl
@[simp] theorem acceptStart_rb (c : Command) (a1 a2 a3 a4 : Byte) (s : State) : (acceptStart c a1 a2 a3 a4 s).rb = s.rb := rfl
@[simp] theorem acceptStart_rst (c : Command) (a1 a2 a3 a4 : Byte) (s : State) : (acceptStart c a1 a2 a3 a4 s).rst = s.rst := rfl
@[simp] theorem acceptStart_params (c : Command) (a1 a2 a3 a4 : Byte) (s : State) : (acceptStart c a1 a2 a3 a4 s).params = s.params := rfl
@[simp] theorem acceptStart_agenda (c : Command) (a1 a2 a3 a4 : Byte) (s : State) : (acceptStart c a1 a2 a3 a4 s).agenda = s.agenda := rfl
@[simp] theorem acceptStart_answers (c : Command) (a1 a2 a3 a4 : Byte) (s : State) : (acceptStart c a1 a2 a3 a4 s).answers = s.answers := rfl
@[simp] theorem acceptStart_draws (c : Command) (a1 a2 a3 a4 : Byte) (s : State) : (acceptStart c a1 a2 a3 a4 s).draws = s.draws := rfl
@[simp] theorem acceptStart_rbEpoch (c : Command) (a1 a2 a3 a4 : Byte) (s : State) : (acceptStart c a1 a2 a3 a4 s).rbEpoch = s.rbEpoch := rfl
@[simp] theorem acceptStart_trace (c : Command) (a1 a2 a3 a4 : Byte) (s : State) : (acceptStart c a1 a2 a3 a4 s).trace = s.trace := rfl
@[simp] theorem acceptStart_hostReads (c : Command) (a1 a2 a3 a4 : Byte) (s : State) : (acceptStart c a1 a2 a3 a4 s).hostReads = s.hostReads := rfl

/-! ### illegalStart -/

@[simp] theorem illegalStart_cmd (c : Byte) (s : State) : (illegalStart c s).cmd = s.cmd := rfl
@[simp] theorem illegalStart_arg1 (c : Byte) (s : State) : (illegalStart c s).arg1 = s.arg1 := rfl
@[simp] theorem illegalStart_arg2 (c : Byte) (s : State) : (illegalStart c s).arg2 = s.arg2 := rfl
@[simp] theorem illegalStart_arg3 (c : Byte) (s : State) : (illegalStart c s).arg3 = s.arg3 := rfl
@[simp] theorem illegalStart_arg4 (c : Byte) (s : State) : (illegalStart c s).arg4 = s.arg4 := rfl
@[simp] theorem illegalStart_status (c : Byte) (s : State) : (illegalStart c s).status = ⟨false, true, false, false, true, false⟩ := rfl
@[simp] theorem illegalStart_lcmd (c : Byte) (s : State) : (illegalStart c s).lcmd = c := rfl
@[simp] theorem illegalStart_expChk (c : Byte) (s : State) : (illegalStart c s).expChk = 0 := rfl
@[simp] theorem illegalStart_rcvChk (c : Byte) (s : State) : (illegalStart c s).rcvChk = 0 := rfl
@[simp] theorem illegalStart_rxCount (c : Byte) (s : State) : (illegalStart c s).rxCount = 0 := rfl
@[simp] theorem illegalStart_respLen (c : Byte) (s : State) : (illegalStart c s).respLen = 0 := rfl
@[simp] theorem illegalStart_payLen (c : Byte) (s : State) : (illegalStart c s).payLen = 0 := rfl
@[simp] theorem illegalStart_frame (c : Byte) (s : State) : (illegalStart c s).frame = .zero := rfl
@[simp] theorem illegalStart_dec (c : Byte) (s : State) : (illegalStart c s).dec = .zero := rfl
@[simp] theorem illegalStart_ph (c : Byte) (s : State) : (illegalStart c s).ph = s.ph := rfl
@[simp] theorem illegalStart_txi (c : Byte) (s : State) : (illegalStart c s).txi = s.txi := rfl
@[simp] theorem illegalStart_rxi (c : Byte) (s : State) : (illegalStart c s).rxi = s.rxi := rfl
@[simp] theorem illegalStart_wcnt (c : Byte) (s : State) : (illegalStart c s).wcnt = s.wcnt := rfl
@[simp] theorem illegalStart_rb (c : Byte) (s : State) : (illegalStart c s).rb = s.rb := rfl
@[simp] theorem illegalStart_rst (c : Byte) (s : State) : (illegalStart c s).rst = s.rst := rfl
@[simp] theorem illegalStart_params (c : Byte) (s : State) : (illegalStart c s).params = s.params := rfl
@[simp] theorem illegalStart_agenda (c : Byte) (s : State) : (illegalStart c s).agenda = s.agenda := rfl
@[simp] theorem illegalStart_answers (c : Byte) (s : State) : (illegalStart c s).answers = s.answers := rfl
@[simp] theorem illegalStart_draws (c : Byte) (s : State) : (illegalStart c s).draws = s.draws := rfl
@[simp] theorem illegalStart_rbEpoch (c : Byte) (s : State) : (illegalStart c s).rbEpoch = s.rbEpoch := rfl
@[simp] theorem illegalStart_trace (c : Byte) (s : State) : (illegalStart c s).trace = s.trace := rfl
@[simp] theorem illegalStart_hostReads (c : Byte) (s : State) : (illegalStart c s).hostReads = s.hostReads := rfl

/-! ### blockReset -/

@[simp] theorem blockReset_cmd (s : State) : (s.blockReset).cmd = State.reset.cmd := rfl
@[simp] theorem blockReset_arg1 (s : State) : (s.blockReset).arg1 = State.reset.arg1 := rfl
@[simp] theorem blockReset_arg2 (s : State) : (s.blockReset).arg2 = State.reset.arg2 := rfl
@[simp] theorem blockReset_arg3 (s : State) : (s.blockReset).arg3 = State.reset.arg3 := rfl
@[simp] theorem blockReset_arg4 (s : State) : (s.blockReset).arg4 = State.reset.arg4 := rfl
@[simp] theorem blockReset_status (s : State) : (s.blockReset).status = State.reset.status := rfl
@[simp] theorem blockReset_lcmd (s : State) : (s.blockReset).lcmd = State.reset.lcmd := rfl
@[simp] theorem blockReset_expChk (s : State) : (s.blockReset).expChk = State.reset.expChk := rfl
@[simp] theorem blockReset_rcvChk (s : State) : (s.blockReset).rcvChk = State.reset.rcvChk := rfl
@[simp] theorem blockReset_rxCount (s : State) : (s.blockReset).rxCount = State.reset.rxCount := rfl
@[simp] theorem blockReset_respLen (s : State) : (s.blockReset).respLen = State.reset.respLen := rfl
@[simp] theorem blockReset_payLen (s : State) : (s.blockReset).payLen = State.reset.payLen := rfl
@[simp] theorem blockReset_frame (s : State) : (s.blockReset).frame = State.reset.frame := rfl
@[simp] theorem blockReset_dec (s : State) : (s.blockReset).dec = State.reset.dec := rfl
@[simp] theorem blockReset_ph (s : State) : (s.blockReset).ph = State.reset.ph := rfl
@[simp] theorem blockReset_txi (s : State) : (s.blockReset).txi = State.reset.txi := rfl
@[simp] theorem blockReset_rxi (s : State) : (s.blockReset).rxi = State.reset.rxi := rfl
@[simp] theorem blockReset_wcnt (s : State) : (s.blockReset).wcnt = State.reset.wcnt := rfl
@[simp] theorem blockReset_rb (s : State) : (s.blockReset).rb = State.reset.rb := rfl
@[simp] theorem blockReset_rst (s : State) : (s.blockReset).rst = true := rfl
@[simp] theorem blockReset_params (s : State) : (s.blockReset).params = s.params := rfl
@[simp] theorem blockReset_agenda (s : State) : (s.blockReset).agenda = s.agenda := rfl
@[simp] theorem blockReset_answers (s : State) : (s.blockReset).answers = s.answers := rfl
@[simp] theorem blockReset_draws (s : State) : (s.blockReset).draws = s.draws := rfl
@[simp] theorem blockReset_rbEpoch (s : State) : (s.blockReset).rbEpoch = s.rbEpoch + 1 := rfl
@[simp] theorem blockReset_trace (s : State) : (s.blockReset).trace = s.trace := rfl
@[simp] theorem blockReset_hostReads (s : State) : (s.blockReset).hostReads = s.hostReads := rfl

/-! ### reset -/

@[simp] theorem reset_cmd : State.reset.cmd = 0 := rfl
@[simp] theorem reset_arg1 : State.reset.arg1 = 0 := rfl
@[simp] theorem reset_arg2 : State.reset.arg2 = 0 := rfl
@[simp] theorem reset_arg3 : State.reset.arg3 = 0 := rfl
@[simp] theorem reset_arg4 : State.reset.arg4 = 0 := rfl
@[simp] theorem reset_status : State.reset.status = .zero := rfl
@[simp] theorem reset_lcmd : State.reset.lcmd = 0 := rfl
@[simp] theorem reset_expChk : State.reset.expChk = 0 := rfl
@[simp] theorem reset_rcvChk : State.reset.rcvChk = 0 := rfl
@[simp] theorem reset_rxCount : State.reset.rxCount = 0 := rfl
@[simp] theorem reset_respLen : State.reset.respLen = 0 := rfl
@[simp] theorem reset_payLen : State.reset.payLen = 0 := rfl
@[simp] theorem reset_frame : State.reset.frame = .zero := rfl
@[simp] theorem reset_dec : State.reset.dec = .zero := rfl
@[simp] theorem reset_ph : State.reset.ph = .idle := rfl
@[simp] theorem reset_txi : State.reset.txi = 0 := rfl
@[simp] theorem reset_rxi : State.reset.rxi = 0 := rfl
@[simp] theorem reset_wcnt : State.reset.wcnt = 0 := rfl
@[simp] theorem reset_rb : State.reset.rb = [] := rfl
@[simp] theorem reset_rst : State.reset.rst = false := rfl
@[simp] theorem reset_params : State.reset.params = Config.params := rfl
@[simp] theorem reset_agenda : State.reset.agenda = [] := rfl
@[simp] theorem reset_answers : State.reset.answers = [] := rfl
@[simp] theorem reset_draws : State.reset.draws = 0 := rfl
@[simp] theorem reset_rbEpoch : State.reset.rbEpoch = 0 := rfl
@[simp] theorem reset_trace : State.reset.trace = [] := rfl
@[simp] theorem reset_hostReads : State.reset.hostReads = [] := rfl

end Sys2Proof.Machine
end

