-- ==== Sys2Proof/Laws/Memory.lean ====
section
/-! SUPPORT. The response buffer: what a read after a write gives, and that every write keeps the canonical form. -/

namespace Sys2Proof.Machine

theorem Memory.lookup_write (m : Memory) (x : Nat) (v : Byte) (y : Nat) :
    (Memory.write m x v).lookup y = if x = y then some v else Memory.lookup m y := by
  induction m with
  | nil => simp [Memory.write, Memory.lookup]
  | cons p m ih =>
    obtain ⟨a, b⟩ := p
    unfold Memory.write
    split
    · simp [Memory.lookup]
    · split
      · rename_i h
        subst h
        by_cases hy : x = y <;> simp [Memory.lookup, hy]
      · rename_i hlt hne
        simp only [Memory.lookup, ih]
        by_cases ha : a = y
        · subst ha
          simp [hne]
        · simp [ha]

theorem Memory.lookup_writeBytes (bs : List Byte) (m : Memory) (a y : Nat) :
    (Memory.writeBytes m a bs).lookup y
      = if a ≤ y ∧ y < a + bs.length then some (bs.getD (y - a) 0) else Memory.lookup m y := by
  induction bs generalizing m a with
  | nil =>
    have h : ¬ (a ≤ y ∧ y < a + ([] : List Byte).length) := by
      simp
    rw [if_neg h]
    rfl
  | cons b bs ih =>
    simp only [Memory.writeBytes, ih, Memory.lookup_write, List.length_cons]
    by_cases h1 : a + 1 ≤ y ∧ y < a + 1 + bs.length
    · have h2 : a ≤ y ∧ y < a + (bs.length + 1) := by omega
      have h3 : y - a = (y - (a + 1)) + 1 := by omega
      rw [if_pos h1, if_pos h2, h3]
      simp
    · rw [if_neg h1]
      by_cases h4 : a = y
      · subst h4
        simp
      · have h5 : ¬ (a ≤ y ∧ y < a + (bs.length + 1)) := by omega
        rw [if_neg h4, if_neg h5]

theorem Memory.wfFrom_mono (m : Memory) (lo lo' : Nat) (h : lo' ≤ lo) (hm : Memory.wfFrom lo m = true) :
    Memory.wfFrom lo' m = true := by
  cases m with
  | nil => rfl
  | cons p m =>
    simp only [Memory.wfFrom, Bool.and_eq_true, decide_eq_true_eq] at hm ⊢
    exact ⟨⟨by omega, hm.1.2⟩, hm.2⟩

theorem Memory.wfFrom_write (m : Memory) (lo x : Nat) (v : Byte) (hlo : lo ≤ x) (hx : x < rbSize)
    (hm : Memory.wfFrom lo m = true) : Memory.wfFrom lo (Memory.write m x v) = true := by
  induction m generalizing lo with
  | nil => simp [Memory.write, Memory.wfFrom, hlo, hx]
  | cons p m ih =>
    obtain ⟨a, b⟩ := p
    simp only [Memory.wfFrom, Bool.and_eq_true, decide_eq_true_eq] at hm
    unfold Memory.write
    split
    · simp only [Memory.wfFrom, Bool.and_eq_true, decide_eq_true_eq]
      exact ⟨⟨hlo, hx⟩, ⟨by omega, hm.1.2⟩, hm.2⟩
    · split
      · rename_i h
        subst h
        simp only [Memory.wfFrom, Bool.and_eq_true, decide_eq_true_eq]
        exact ⟨⟨hlo, hx⟩, hm.2⟩
      · simp only [Memory.wfFrom, Bool.and_eq_true, decide_eq_true_eq]
        exact ⟨hm.1, ih (a + 1) (by omega) hm.2⟩

/-- A write inside RB keeps the canonical form. -/
theorem Memory.wf_write (m : Memory) (x : Nat) (v : Byte) (hx : x < rbSize) (hm : m.wf = true) :
    (Memory.write m x v).wf = true :=
  Memory.wfFrom_write m 0 x v (Nat.zero_le _) hx hm

/-- Consecutive writes inside RB keep the canonical form. -/
theorem Memory.wf_writeBytes (bs : List Byte) (m : Memory) (a : Nat) (h : a + bs.length ≤ rbSize)
    (hm : m.wf = true) : (Memory.writeBytes m a bs).wf = true := by
  induction bs generalizing m a with
  | nil => exact hm
  | cons b bs ih =>
    simp only [List.length_cons] at h
    exact ih (Memory.write m a b) (a + 1) (by omega) (Memory.wf_write m a b (by omega) hm)

theorem reset_rb_wf : State.reset.rb.wf = true := rfl

/-- MemWrite answers exactly for a range inside RB, and then only RB changes. -/
theorem memWrite_eq_some {s t : State} {a : Nat} {bs : List Byte} (h : s.memWrite a bs = some t) :
    a + bs.length ≤ rbSize ∧ t = s.fill a bs := by
  unfold State.memWrite at h
  split at h
  · exact ⟨‹_›, (Option.some.inj h).symm⟩
  · cases h

/-- MemRead answers exactly for a range inside RB, with the bytes there. -/
theorem memRead_eq_some {s : State} {a n : Nat} {bs : List Byte} (h : s.memRead a n = some bs) :
    a + n ≤ rbSize ∧ bs = s.rbSlice a n := by
  unfold State.memRead at h
  split at h
  · exact ⟨‹_›, (Option.some.inj h).symm⟩
  · cases h

@[simp] theorem rbSlice_length (s : State) (a n : Nat) : (s.rbSlice a n).length = n := by
  simp [State.rbSlice]

theorem rbSlice_getElem (s : State) (a n k : Nat) (h : k < (s.rbSlice a n).length) :
    (s.rbSlice a n)[k] = s.rbByte (a + k) := by
  simp [State.rbSlice]

/-- RB[y] after consecutive writes: the stored byte inside the range, the old one outside. -/
theorem rbByte_fill (s : State) (a : Nat) (bs : List Byte) (y : Nat) :
    (s.fill a bs).rbByte y = if a ≤ y ∧ y < a + bs.length then bs.getD (y - a) 0 else s.rbByte y := by
  simp only [State.rbByte, fill_rb, fill_rbEpoch, Memory.lookup_writeBytes]
  split <;> simp

/-- RB is read through `rb` and `rbEpoch` alone. -/
theorem rbByte_congr {s t : State} (h : s.rb = t.rb) (he : s.rbEpoch = t.rbEpoch) (a : Nat) :
    s.rbByte a = t.rbByte a := by
  simp [State.rbByte, h, he]

theorem rbSlice_congr {s t : State} (a n : Nat) (h : ∀ i, a ≤ i → i < a + n → s.rbByte i = t.rbByte i) :
    s.rbSlice a n = t.rbSlice a n := by
  simp only [State.rbSlice]
  apply List.map_congr_left
  intro k hk
  rw [List.mem_range] at hk
  exact h (a + k) (by omega) (by omega)

end Sys2Proof.Machine
end

