-- ==== Sys2Proof/Laws/Ops.lean ====
section
/-! SUPPORT. What each shared operation can answer, said once: the receiver's parts, the engine's steps, the host
operations' guards. -/

namespace Sys2Proof.Machine

/-! ### The guards of the host's operations -/

@[simp] theorem whileReleased_released (s : State) (out : Host.Outcome State Fault Refusal) (h : s.rst = false) :
    whileReleased s out = out := by
  simp [whileReleased, h]

@[simp] theorem whileReleased_asserted (s : State) (out : Host.Outcome State Fault Refusal) (h : s.rst = true) :
    whileReleased s out = .next s := by
  simp [whileReleased, h]

@[simp] theorem whenIdle_idle (s t : State) (h : s.ph = .idle) : whenIdle s t = .next t := by
  simp [whenIdle, h]

@[simp] theorem whenIdle_busy (s t : State) (h : s.ph ≠ .idle) : whenIdle s t = .next s := by
  simp [whenIdle, h]

theorem whileReleased_cases {s t : State} {out : Host.Outcome State Fault Refusal}
    (h : whileReleased s out = .next t) : (s.rst = true ∧ t = s) ∨ (s.rst = false ∧ out = .next t) := by
  cases hr : s.rst
  · exact .inr ⟨rfl, by simpa [hr] using h⟩
  · exact .inl ⟨rfl, by simpa [hr, eq_comm] using h⟩

theorem whenIdle_cases {s t u : State} (h : whenIdle s t = .next u) :
    (s.ph = .idle ∧ u = t) ∨ (s.ph ≠ .idle ∧ u = s) := by
  by_cases hp : s.ph = .idle
  · exact .inl ⟨hp, by simpa [hp, eq_comm] using h⟩
  · exact .inr ⟨hp, by simpa [hp, eq_comm] using h⟩

/-- What a start request does: it is ignored, or it starts the command in CMD, or CMD's code is illegal. -/
theorem startRequest_cases {s t : State} (h : startRequest s = .next t) :
    t = s
    ∨ (s.ph = .idle ∧ ∃ c, Command.ofCode s.cmd = some c ∧ t = acceptStart c s.arg1 s.arg2 s.arg3 s.arg4 s)
    ∨ (s.ph = .idle ∧ Command.ofCode s.cmd = none ∧ t = illegalStart s.cmd s) := by
  unfold startRequest at h
  cases hc : Command.ofCode s.cmd with
  | none =>
    simp only [hc] at h
    rcases whileReleased_cases h with ⟨_, rfl⟩ | ⟨_, h⟩
    · exact .inl rfl
    · rcases whenIdle_cases h with ⟨hp, rfl⟩ | ⟨_, rfl⟩
      · exact .inr (.inr ⟨hp, rfl, rfl⟩)
      · exact .inl rfl
  | some c =>
    cases c <;> simp only [hc, execReset, execGetSsid, execGetHosts, execGetDevSlots] at h <;>
      rcases whileReleased_cases h with ⟨_, rfl⟩ | ⟨_, h⟩
    all_goals first
      | exact .inl rfl
      | (rcases whenIdle_cases h with ⟨hp, rfl⟩ | ⟨_, rfl⟩
         · exact .inr (.inl ⟨hp, _, rfl, rfl⟩)
         · exact .inl rfl)

/-- A start request always answers a next state. -/
theorem startRequest_next (s : State) : ∃ t, startRequest s = .next t := by
  unfold startRequest
  cases Command.ofCode s.cmd with
  | none => simp only [whileReleased, whenIdle]; split <;> [exact ⟨_, rfl⟩; (split <;> exact ⟨_, rfl⟩)]
  | some c =>
    cases c <;> simp only [execReset, execGetSsid, execGetHosts, execGetDevSlots, whileReleased, whenIdle] <;>
      (split <;> [exact ⟨_, rfl⟩; (split <;> exact ⟨_, rfl⟩)])

/-! ### The receiver -/

/-- store(i, b) answers a next state exactly at a position inside RB. -/
theorem rxStore_next {b : Byte} {s t : State} (h : rxStore b s = .next t) :
    s.rxi.toNat < rbSize ∧ t = (s.fill s.rxi.toNat [b]).stored := by
  unfold rxStore at h
  split at h
  · cases h
  · rename_i u hu
    obtain ⟨hle, rfl⟩ := memWrite_eq_some hu
    injection h with h
    simp only [List.length_singleton] at hle
    exact ⟨by omega, h.symm⟩

theorem rxStore_eq (b : Byte) (s : State) (h : s.rxi.toNat < rbSize) :
    rxStore b s = .next (s.fill s.rxi.toNat [b]).stored := by
  have hw : s.rxi.toNat + [b].length ≤ rbSize := h
  unfold rxStore State.memWrite
  rw [if_pos hw]

/-- abort(i) answers a next state exactly when RB[i..L) lies inside RB. -/
theorem rxAbort_next {s t : State} (h : rxAbort s = .next t) :
    s.rxi.toNat + (s.respLen.toNat - s.rxi.toNat) ≤ rbSize ∧
    t = (s.fill s.rxi.toNat (List.replicate (s.respLen.toNat - s.rxi.toNat) 0x00)).aborted := by
  unfold rxAbort at h
  split at h
  · cases h
  · rename_i u hu
    obtain ⟨hle, rfl⟩ := memWrite_eq_some hu
    injection h with h
    exact ⟨by simpa using hle, h.symm⟩

theorem rxAbort_eq (s : State) (h : s.rxi.toNat + (s.respLen.toNat - s.rxi.toNat) ≤ rbSize) :
    rxAbort s
      = .next (s.fill s.rxi.toNat (List.replicate (s.respLen.toNat - s.rxi.toNat) 0x00)).aborted := by
  have hw : s.rxi.toNat + (List.replicate (s.respLen.toNat - s.rxi.toNat) (0x00 : Byte)).length ≤ rbSize := by
    simpa using h
  unfold rxAbort State.memWrite
  rw [if_pos hw]

/-- What a receive step can do: stay, time out, store a byte, or stop at a read with no data. -/
theorem rxStep_cases {s t : State} (h : rxStep s = .next t) :
    s.rxi.toNat < s.respLen.toNat ∧
    ((s.answer = .notReady ∧ s.wcnt + 1 ≠ s.params.maxWait.polls ∧ t = s.heard.missed)
     ∨ (s.answer = .notReady ∧ s.wcnt + 1 = s.params.maxWait.polls ∧ rxAbort s.heard.missed = .next t)
     ∨ (∃ b, s.answer = .ready (.byte b) ∧ rxStore b s.heard = .next t)
     ∨ (s.answer = .ready .noData ∧ rxAbort s.heard = .next t)) := by
  unfold rxStep at h
  split at h
  · refine ⟨‹_›, ?_⟩
    split at h
    · rename_i ha
      unfold rxMiss at h
      split at h
      · rename_i hw
        exact .inr (.inl ⟨ha, by simpa using hw, h⟩)
      · rename_i hw
        injection h with h
        exact .inl ⟨ha, by simpa using hw, h.symm⟩
    · rename_i b ha
      exact .inr (.inr (.inl ⟨b, ha, h⟩))
    · rename_i ha
      exact .inr (.inr (.inr ⟨ha, h⟩))
  · cases h

/-! ### The engine's other steps -/

/-- What a TX step can do (45_commands.md R192). -/
theorem txStep_cases {s t : State} (h : txStep s = .next t) :
    ∃ b, s.frame.byteAt s.txi = some b ∧
    ((s.txi.toNat < 6 ∧ t = (s.emit (.tx b)).nextByte)
     ∨ (6 ≤ s.txi.toNat ∧ s.respLen = 0 ∧ t = (s.emit (.tx b)).enter .cfgOut)
     ∨ (6 ≤ s.txi.toNat ∧ s.respLen ≠ 0 ∧ t = (s.emit (.tx b)).enterReception)) := by
  unfold txStep at h
  split at h
  · cases h
  · rename_i b hb
    refine ⟨b, hb, ?_⟩
    split at h
    · injection h with h
      exact .inl ⟨‹_›, h.symm⟩
    · split at h
      · injection h with h
        exact .inr (.inl ⟨by omega, ‹_›, h.symm⟩)
      · injection h with h
        exact .inr (.inr ⟨by omega, ‹_›, h.symm⟩)

/-- There is a byte to send for e.TXI in its range. -/
theorem byteAt_eq_some (x : Frame) (i : BitVec 3) (h : i.toNat ≤ 6) : ∃ b, x.byteAt i = some b := by
  have hl : i.toNat < x.bytes.length := by simp [Frame.bytes]; omega
  exact ⟨x.bytes[i.toNat], by simp [Frame.byteAt, hl]⟩

/-- What a VAL step can do (45_commands.md R194). -/
theorem valStep_cases {s t : State} (h : valStep s = .next t) :
    3 ≤ s.respLen.toNat ∧ s.rxCount.toNat ≤ s.respLen.toNat ∧ s.respLen.toNat ≤ rbSize ∧
    t = (s.report (validate (s.rbSlice 0 s.respLen.toNat) s.respLen.toNat s.rxCount.toNat)).enter .dec := by
  unfold valStep at h
  split at h
  · rename_i hg
    split at h
    · cases h
    · rename_i buf hb
      obtain ⟨hle, rfl⟩ := memRead_eq_some hb
      injection h with h
      exact ⟨hg.1, hg.2, by omega, h.symm⟩
  · cases h

/-- What the engine can do, one case per phase (45_commands.md R198). -/
theorem engineStep_cases {s t : State} (h : engineStep s = .next t) :
    ((s.rst = true ∨ s.ph = .idle) ∧ t = s)
    ∨ (s.rst = false ∧ s.ph = .cfgIn ∧ t = (s.emit (.cfgEnter s.params.portCfg)).enter .tx)
    ∨ (s.rst = false ∧ s.ph = .tx ∧ txStep s = .next t)
    ∨ (s.rst = false ∧ s.ph = .rx ∧ rxStep s = .next t)
    ∨ (s.rst = false ∧ s.ph = .val ∧ valStep s = .next t)
    ∨ (s.rst = false ∧ s.ph = .dec ∧ decStep s = .next t)
    ∨ (s.rst = false ∧ s.ph = .cfgOut ∧ t = (s.emit .cfgExit).finish) := by
  unfold engineStep at h
  split at h
  · injection h with h
    exact .inl ⟨.inl ‹_›, h.symm⟩
  · rename_i hr
    simp only [Bool.not_eq_true] at hr
    cases hp : s.ph <;> simp only [hp] at h
    · injection h with h
      exact .inl ⟨.inr rfl, h.symm⟩
    · injection h with h
      exact .inr (.inl ⟨hr, rfl, h.symm⟩)
    · exact .inr (.inr (.inl ⟨hr, rfl, h⟩))
    · exact .inr (.inr (.inr (.inl ⟨hr, rfl, h⟩)))
    · exact .inr (.inr (.inr (.inr (.inl ⟨hr, rfl, h⟩))))
    · exact .inr (.inr (.inr (.inr (.inr (.inl ⟨hr, rfl, h⟩)))))
    · injection h with h
      exact .inr (.inr (.inr (.inr (.inr (.inr ⟨hr, rfl, h.symm⟩)))))

/-! ### Instructions and turns -/

/-- What an instruction can do, said once for all of them. -/
theorem exec_cases {i : Instr} {s t : State} (h : exec i s = .next t) :
    t = s
    ∨ (s.rst = false ∧ s.ph = .idle ∧ ∃ c a1 a2 a3 a4, t = acceptStart c a1 a2 a3 a4 s)
    ∨ (s.rst = false ∧ s.ph = .idle ∧ Command.ofCode s.cmd = none ∧ t = illegalStart s.cmd s)
    ∨ (s.rst = false ∧ ∃ r v, t = s.storeRegister r v)
    ∨ (s.rst = false ∧ ∃ v, t = s.deliver v) := by
  have command : ∀ {c a1 a2 a3 a4},
      whileReleased s (whenIdle s (acceptStart c a1 a2 a3 a4 s)) = .next t →
      t = s ∨ (s.rst = false ∧ s.ph = .idle ∧ ∃ c a1 a2 a3 a4, t = acceptStart c a1 a2 a3 a4 s) := by
    intro c a1 a2 a3 a4 h
    rcases whileReleased_cases h with ⟨_, rfl⟩ | ⟨hr, h⟩
    · exact .inl rfl
    · rcases whenIdle_cases h with ⟨hp, rfl⟩ | ⟨_, rfl⟩
      · exact .inr ⟨hr, hp, _, _, _, _, _, rfl⟩
      · exact .inl rfl
  cases i with
  | reset a1 a2 a3 a4 => exact (command h).imp_right .inl
  | getSsid a1 a2 a3 a4 => exact (command h).imp_right .inl
  | getHosts a1 a2 a3 a4 => exact (command h).imp_right .inl
  | getDevSlots a1 a2 a3 a4 => exact (command h).imp_right .inl
  | wr r v =>
    rcases whileReleased_cases h with ⟨_, rfl⟩ | ⟨hr, h⟩
    · exact .inl rfl
    · split at h
      · rcases startRequest_cases h with rfl | ⟨hp, c, _, rfl⟩ | ⟨hp, hc, rfl⟩
        · exact .inl rfl
        · exact .inr (.inl ⟨hr, hp, _, _, _, _, _, rfl⟩)
        · exact .inr (.inr (.inl ⟨hr, hp, hc, rfl⟩))
      · injection h with h
        exact .inr (.inr (.inr (.inl ⟨hr, r, v, h.symm⟩)))
  | rd r =>
    rcases whileReleased_cases h with ⟨_, rfl⟩ | ⟨hr, h⟩
    · exact .inl rfl
    · injection h with h
      exact .inr (.inr (.inr (.inr ⟨hr, _, h.symm⟩)))
  | rdb i =>
    rcases whileReleased_cases h with ⟨_, rfl⟩ | ⟨hr, h⟩
    · exact .inl rfl
    · split at h
      · injection h with h
        exact .inr (.inr (.inr (.inr ⟨hr, _, h.symm⟩)))
      · cases h
  | nop =>
    rcases whileReleased_cases h with ⟨_, rfl⟩ | ⟨_, h⟩
    · exact .inl rfl
    · injection h with h
      exact .inl h.symm

/-- What a step is, by the head of the agenda (20_memory.md R70). -/
theorem step_cases (s : State) :
    (s.agenda = [] ∧ step s = engineStep s)
    ∨ ∃ turn rest, s.agenda = turn :: rest ∧ step s = takeTurn turn (s.withAgenda rest) := by
  unfold step nextTurn
  cases ha : s.agenda with
  | nil => exact .inl ⟨rfl, rfl⟩
  | cons turn rest => exact .inr ⟨turn, rest, rfl, rfl⟩

end Sys2Proof.Machine
end

