-- ==== Sys2Proof/Laws/Units.lean ====
section
/-! SUPPORT. The sub-units: one step of the checksum, the first zero of a record, the slot registers, the verdict. -/

namespace Sys2Proof.Machine

/-! ### Checksum -/

/-- One fold on an accumulator in a byte: the sum, less 255 when it leaves the byte (40_checksum.md R101). -/
theorem checksumStep_toNat (chk : BitVec 16) (b : Byte) (h : chk.toNat ≤ 255) :
    (checksumStep chk b).toNat
      = if chk.toNat + b.toNat ≤ 255 then chk.toNat + b.toNat else chk.toNat + b.toNat - 255 := by
  have hb : b.toNat < 256 := b.isLt
  have hs : (chk + b.setWidth 16).toNat = chk.toNat + b.toNat := by
    rw [BitVec.toNat_add, BitVec.toNat_setWidth]
    omega
  have hand : ((chk + b.setWidth 16) &&& 0xFF).toNat = (chk.toNat + b.toNat) % 256 := by
    rw [BitVec.toNat_and, hs]
    exact Nat.and_two_pow_sub_one_eq_mod (chk.toNat + b.toNat) 8
  have hshr : ((chk + b.setWidth 16) >>> 8).toNat = (chk.toNat + b.toNat) / 256 := by
    rw [BitVec.toNat_ushiftRight, hs, Nat.shiftRight_eq_div_pow]
  have hstep : (checksumStep chk b).toNat
      = ((chk.toNat + b.toNat) / 256 + (chk.toNat + b.toNat) % 256) % 2 ^ 16 := by
    rw [← hand, ← hshr]
    exact BitVec.toNat_add _ _
  rw [hstep]
  split <;> omega

theorem checksumAcc_append (bs : List Byte) (b : Byte) :
    checksumAcc (bs ++ [b]) = checksumStep (checksumAcc bs) b := by
  simp [checksumAcc]

/-! ### Records -/

/-- The first zero's index never exceeds the record's length. -/
theorem nulLength_le (bs : List Byte) : nulLength bs ≤ bs.length := by
  induction bs with
  | nil => exact Nat.le_refl 0
  | cons b bs ih =>
    unfold nulLength
    split
    · exact Nat.zero_le _
    · simp only [List.length_cons]
      omega

/-- Every byte before the first zero is not zero. -/
theorem nulLength_before (bs : List Byte) (j : Nat) (h : j < nulLength bs) : bs.getD j 0 ≠ 0 := by
  induction bs generalizing j with
  | nil => cases h
  | cons b bs ih =>
    unfold nulLength at h
    split at h
    · cases h
    · cases j with
      | zero => simpa
      | succ j => simpa using ih j (by omega)

/-- The byte at the first zero's index is zero, when there is one. -/
theorem nulLength_at (bs : List Byte) (h : nulLength bs < bs.length) : bs.getD (nulLength bs) 0 = 0 := by
  induction bs with
  | nil => rfl
  | cons b bs ih =>
    by_cases hb : b = 0x00
    · simp [nulLength, hb]
    · simp only [nulLength, if_neg hb, List.length_cons] at h ⊢
      simpa using ih (by omega)

theorem rbSlice_getD (s : State) (a n k d : Nat) (h : k < n) :
    (s.rbSlice a n).getD k (BitVec.ofNat 8 d) = s.rbByte (a + k) := by
  simp [State.rbSlice, h]

/-- The payload of a response in RB is its slice from byte 2 on (43_validator.md R144). -/
theorem payload_rbSlice (s : State) (n : Nat) : payload (s.rbSlice 0 n) n = s.rbSlice 2 (n - 3) := by
  apply List.ext_getElem
  · simp [payload]
    omega
  · intro k h1 h2
    simp [payload, rbSlice_getElem]

@[simp] theorem hostSlot_length (s : State) (i : Nat) : (s.hostSlot i).length = 32 := by
  simp [State.hostSlot, hostSlotLen]

@[simp] theorem devSlot_length (s : State) (i : Nat) : (s.devSlot i).length = 38 := by
  simp [State.devSlot, devSlotLen]

@[simp] theorem devFilename_length (s : State) (i : Nat) : (s.devFilename i).length = 36 := by
  simp [State.devFilename]

/-- Bit k of a slot mask. -/
theorem slotMask_getLsbD (f : Nat → Bool) (k : Fin 8) : (slotMask f).getLsbD k.val = f k.val := by
  have : ∀ (a b c d e g h i : Bool) (k : Fin 8),
      (BitVec.ofBool a ++ BitVec.ofBool b ++ BitVec.ofBool c ++ BitVec.ofBool d ++ BitVec.ofBool e
        ++ BitVec.ofBool g ++ BitVec.ofBool h ++ BitVec.ofBool i : BitVec 8).getLsbD k.val
        = (match k with | 0 => i | 1 => h | 2 => g | 3 => e | 4 => d | 5 => c | 6 => b | 7 => a) := by
    decide
  unfold slotMask
  rw [this]
  match k with
  | 0 | 1 | 2 | 3 | 4 | 5 | 6 | 7 => rfl

/-- Lane k of the slot registers. -/
theorem slotLanes_get (f : Nat → Byte) (k : Fin 8) : (slotLanes f).get k = f k.val := by
  match k with
  | 0 | 1 | 2 | 3 | 4 | 5 | 6 | 7 => rfl

/-! ### What a unit reads of the state -/

/-- A decoder reads RB, STATUS, LCMD and the decoder registers alone. -/
theorem decodeSelected_congr {s t : State} (hb : t.rb = s.rb) (he : t.rbEpoch = s.rbEpoch)
    (hs : t.status = s.status) (hl : t.lcmd = s.lcmd) (hd : t.dec = s.dec) :
    decodeSelected t = decodeSelected s := by
  have hslice : ∀ a n, t.rbSlice a n = s.rbSlice a n := fun a n =>
    rbSlice_congr a n fun i _ _ => rbByte_congr hb he i
  unfold decodeSelected decodeHosts decodeDevSlots decodeSsid State.devFilename State.hostSlot State.devSlot
  simp only [hslice, hs, hl, hd]

/-- The three ends of the validator, in the order of its rules (43_validator.md R147). -/
theorem validate_cases (buf : List Byte) (len n : Nat) :
    ((n < len ∨ buf.getD 0 0 ≠ statusA ∨ buf.getD 1 0 ≠ statusC) ∧ validate buf len n = ⟨false, false, 0, 0⟩)
    ∨ (len ≤ n ∧ buf.getD 0 0 = statusA ∧ buf.getD 1 0 = statusC ∧
        validate buf len n = ⟨true, checksum (payload buf len) == buf.getD (len - 1) 0, checksum (payload buf len),
          buf.getD (len - 1) 0⟩) := by
  unfold validate
  by_cases h1 : n < len
  · exact .inl ⟨.inl h1, by rw [if_pos h1]⟩
  · rw [if_neg h1]
    by_cases h2 : buf.getD 0 0 ≠ statusA ∨ buf.getD 1 0 ≠ statusC
    · exact .inl ⟨.inr h2, by rw [if_pos h2]⟩
    · rw [if_neg h2]
      rw [not_or, not_not, not_not] at h2
      exact .inr ⟨by omega, h2.1, h2.2, rfl⟩

end Sys2Proof.Machine
end

