-- ==== Sys2Proof/Laws/Invariant.lean ====
section
/-! SUPPORT. Small facts about the invariant's terms. -/

namespace Sys2Proof.Machine

/-- RESP_LEN of a latched code is one of four lengths (10_state.md R36). -/
theorem respLenOf_cases (c : Byte) :
    respLenOf c = 0 ∨ respLenOf c = 100 ∨ respLenOf c = 259 ∨ respLenOf c = 307 := by
  unfold respLenOf
  cases Command.ofCode c with
  | none => exact .inl rfl
  | some k =>
    cases k with
    | reset => exact .inl rfl
    | getSsid => exact .inr (.inl rfl)
    | getHosts => exact .inr (.inr (.inl rfl))
    | getDevSlots => exact .inr (.inr (.inr rfl))

theorem respLenOf_le (c : Byte) : (respLenOf c).toNat ≤ rbSize := by
  rcases respLenOf_cases c with h | h | h | h <;> rw [h] <;> decide

@[simp] theorem respLenOf_code (c : Command) : respLenOf c.code = c.respLen := by
  simp [respLenOf]

/-- A reachable RESP_LEN stays inside RB. -/
theorem MachineInv.respLen_le {s : State} (h : MachineInv s) : s.respLen.toNat ≤ rbSize := by
  rw [h.control.respLen]
  exact respLenOf_le _

/-- Two states with the same engine-written part, the fields the invariant speaks of. -/
structure SameEngineState (s t : State) : Prop where
  status : t.status = s.status
  lcmd : t.lcmd = s.lcmd
  expChk : t.expChk = s.expChk
  rcvChk : t.rcvChk = s.rcvChk
  rxCount : t.rxCount = s.rxCount
  respLen : t.respLen = s.respLen
  payLen : t.payLen = s.payLen
  frame : t.frame = s.frame
  dec : t.dec = s.dec
  ph : t.ph = s.ph
  txi : t.txi = s.txi
  rxi : t.rxi = s.rxi
  wcnt : t.wcnt = s.wcnt
  rb : t.rb = s.rb
  params : t.params = s.params
  rbEpoch : t.rbEpoch = s.rbEpoch

/-- The invariant speaks of the engine-written part alone. -/
theorem MachineInv.congr {s t : State} (h : SameEngineState s t) (hi : MachineInv s) : MachineInv t := by
  have hslice : ∀ a n, t.rbSlice a n = s.rbSlice a n := fun a n =>
    rbSlice_congr a n fun i _ _ => rbByte_congr h.rb h.rbEpoch i
  obtain ⟨hc, hr, ⟨unread, verdict, undecoded, decoded⟩⟩ := hi
  refine ⟨?_, ?_, ⟨?_, ?_, ?_, ?_⟩⟩
  · obtain ⟨a, b, c, d, e, f, g, i, j, k⟩ := hc
    constructor <;> simp only [h.status, h.lcmd, h.respLen, h.payLen, h.frame, h.ph, h.txi] <;> assumption
  · obtain ⟨a, b, c, d, e, f, g, i, j⟩ := hr
    constructor <;> simp only [h.rxCount, h.respLen, h.ph, h.rxi, h.wcnt, h.rb, h.params] <;> assumption
  · simpa only [h.ph, h.respLen, h.status, h.expChk, h.rcvChk] using unread
  · simpa only [h.ph, h.respLen, h.status, h.expChk, h.rcvChk, h.rxCount, hslice] using verdict
  · simpa only [h.ph, h.dec] using undecoded
  · intro hp
    rw [h.dec, decoded (by simpa only [h.ph] using hp)]
    exact decodeSelected_congr h.rb.symm h.rbEpoch.symm h.status.symm h.lcmd.symm rfl

end Sys2Proof.Machine
end

