-- ==== Sys2Proof/Laws/PerInstr.lean ====
section
/-! SUPPORT. Facts about every instruction as syntax, one lemma per constructor. -/

namespace Sys2Proof.Laws.EncodingIsWellFormed

/-- The encoder writes only words an assembler would (30_encoding.md R84, R92). -/
def Statement (i : Instr) : Prop := (encode i).wellFormed = true

theorem reset (a1 a2 a3 a4 : Byte) : Statement (.reset a1 a2 a3 a4) := by
  simp [Statement, encode, Encoded.wellFormed]

theorem getSsid (a1 a2 a3 a4 : Byte) : Statement (.getSsid a1 a2 a3 a4) := by
  simp [Statement, encode, Encoded.wellFormed]

theorem getHosts (a1 a2 a3 a4 : Byte) : Statement (.getHosts a1 a2 a3 a4) := by
  simp [Statement, encode, Encoded.wellFormed]

theorem getDevSlots (a1 a2 a3 a4 : Byte) : Statement (.getDevSlots a1 a2 a3 a4) := by
  simp [Statement, encode, Encoded.wellFormed]

theorem wr (r : Reg) (v : Half) : Statement (.wr r v) := by
  simp [Statement, encode, Encoded.wellFormed]

theorem rd (r : Reg) : Statement (.rd r) := by
  simp [Statement, encode, Encoded.wellFormed]

theorem rdb (i : Half) : Statement (.rdb i) := by
  simp [Statement, encode, Encoded.wellFormed]

theorem nop : Statement .nop := by
  simp only [Statement, encode]
  decide

end Sys2Proof.Laws.EncodingIsWellFormed
end

