-- ==== Sys2Proof/Tests/Slice0.lean ====
section
/-! SUPPORT. Tests from the spec's own vectors (95_test_vectors.md) and encodings, and a witness for the hypotheses of every
statement that has some. -/

namespace Sys2Proof.Tests

open Sys2Proof.Machine

/-! ### Ill-formed terms and words are refused -/

theorem test_assigned_number_is_not_unassigned : (Instr.wr (.unassigned 0x05) 0).wellFormed = false := by decide
theorem test_last_assigned_number_is_not_unassigned : (Instr.rd (.unassigned 0x48)).wellFormed = false := by decide
theorem test_unassigned_number_is_fine : (Instr.rd (.unassigned 0x7F)).wellFormed = true := by decide
theorem test_illegal_code_is_ill_formed : (Encoded.cw 0x12).wellFormed = false := by decide
theorem test_reserved_bit_is_ill_formed : (Encoded.host32 0x010100FE).wellFormed = false := by decide
theorem test_rd_with_value_is_ill_formed : (Encoded.host32 0x40060001).wellFormed = false := by decide
theorem test_rdb_with_register_is_ill_formed : (Encoded.host32 0x80010002).wellFormed = false := by decide
theorem test_nop_with_operand_is_ill_formed : (Encoded.host32 0xC0000001).wellFormed = false := by decide

/-- P_MAX_WAIT = 0 is refused (00_scope.md R8). -/
theorem test_zero_budget_is_refused : WaitBudget.ofNat? 0 = none := by decide

/-! ### Words written out from the encodings (30_encoding.md R80, R83, R92) -/

theorem test_decode_reset : decode (.cw 0b0000010000000011000000100000000111111111) = .ok (.reset 1 2 3 4) := by rfl
theorem test_decode_getSsid : decode (.cw 0b0000010000000011000000100000000111111110) = .ok (.getSsid 1 2 3 4) := by rfl
theorem test_decode_getHosts : decode (.cw 0b0000010000000011000000100000000111110100) = .ok (.getHosts 1 2 3 4) := by rfl
theorem test_decode_getDevSlots :
    decode (.cw 0b0000010000000011000000100000000111110010) = .ok (.getDevSlots 1 2 3 4) := by rfl
theorem test_decode_wr : decode (.host32 0b00000000000000010000000011111110) = .ok (.wr .cmd 0xFE) := by rfl
theorem test_decode_rd : decode (.host32 0b01000000000101100000000000000000) = .ok (.rd (.frame 6)) := by rfl
theorem test_decode_rdb : decode (.host32 0b10000000000000000000000001100100) = .ok (.rdb 100) := by rfl
theorem test_decode_nop : decode (.host32 0b11111111000000000000000000000000) = .ok .nop := by rfl
theorem test_decode_illegal : decode (.cw 0x00) = .error (.illegalCode 0x00) := by rfl
theorem test_encode_wr_ctrl : encode (.wr .ctrl 1) = .host32 0x00000001 := by decide
theorem test_encode_rd_dev_empty : encode (.rd .devEmpty) = .host32 0x40480000 := by decide
theorem test_table_word_hosts : decodeTableWord 40 0xF4 = some (.getHosts 0 0 0 0) := by rfl
theorem test_table_word_rd : decodeTableWord 32 0x40060000 = some (.rd .status) := by rfl

/-! ### Assembly lines (30_encoding.md R90, R91) -/

theorem test_line_with_comment :
    parseLine "rd_none".toList = none ∧ parseLine "RD status -> 0x0041 ; after SEND".toList = some (.op (.rd .status) (some 0x41)) := by
  decide
theorem test_line_send :
    (parseLine "SEND GET_SSID".toList).map expandLine
      = some [.wr .cmd 0xFE, .wr .arg1 0, .wr .arg2 0, .wr .arg3 0, .wr .arg4 0, .wr .ctrl 1] := by decide

/-! ### Units (95_test_vectors.md K, E, X, V) -/

theorem test_checksum_K1_K2 : checksum [] = 0x00 ∧ checksum [0xFF] = 0xFF := by decide
theorem test_checksum_K5_K8 : checksum [0xFF, 0xFF] = 0xFF ∧ checksum [0xFF, 0x01] = 0x01 := by decide
theorem test_frame_E5 : (encodeFrame 0xFE 1 2 3 4).bytes = [0x70, 0xFE, 1, 2, 3, 4, 0x79] := by decide
theorem test_frame_E6 :
    (encodeFrame 0xFF 0xFF 0xFF 0xFF 0xFF).bytes = [0x70, 0xFF, 0xFF, 0xFF, 0xFF, 0xFF, 0x70] := by decide

/-- A Poll that answers true with the byte `b`. -/
def got (b : Byte) : SerialAnswer := .ready (.byte b)

theorem test_receive_X2 :
    receive 4 3 [.notReady, .notReady, got 0x41, .notReady, .notReady, .notReady] = some ⟨[0x41, 0, 0, 0], 1, 6⟩ := by
  decide
theorem test_receive_X5 :
    receive 4 3 [got 0x41, .notReady, .notReady, got 0x42, .ready .noData] = some ⟨[0x41, 0x42, 0, 0], 2, 5⟩ := by
  decide
theorem test_receive_X8 :
    receive 2 3 [.notReady, .notReady, got 0x55, .notReady, .notReady, got 0x66] = some ⟨[0x55, 0x66], 2, 6⟩ := by
  decide
/-- V3 on a shorter response. -/
theorem test_validate_V3 : validate [0x41, 0x43, 1, 0, 0, 0] 6 6 = ⟨true, false, 1, 0⟩ := by decide
/-- V5: no case folding. -/
theorem test_validate_V5 : validate [0x41, 0x63, 0, 0, 0, 0] 6 6 = ⟨false, false, 0, 0⟩ := by decide
/-- V6: a short response wins over a good start. -/
theorem test_validate_V6 : validate [0x41, 0x43, 0, 0, 0, 0] 6 5 = ⟨false, false, 0, 0⟩ := by decide
/-- V9: a swap goes undetected. -/
theorem test_validate_V9 : validate [0x41, 0x43, 0x34, 0x12, 0x46] 5 5 = ⟨true, true, 0x46, 0x46⟩ := by decide
/-- H4: a slot with a leading zero is present and has length 0. -/
theorem test_slot_H4 : slotPresent [0, 0x41, 0] = true ∧ nulLength [0, 0x41, 0] = 0 := by decide
/-- H5, D4: no zero at all. -/
theorem test_slot_H5 : nulLength (List.replicate 32 0x61) = 32 := by decide
/-- D3: not empty, yet of length 0. -/
theorem test_filename_D3 : filenameEmpty [0, 0x58] = false ∧ nulLength [0, 0x58] = 0 := by decide

/-! ### Small states -/

/-- Parameters with P_MAX_WAIT = 2. -/
def params2 : Params := ⟨⟨2, by decide⟩, 0⟩

/-- The machine after reset, with those parameters. -/
def ready : State := { State.reset with params := params2 }

/-- A machine with a get-hosts transaction just started. -/
def started : State := acceptStart .getHosts 0 0 0 0 ready

/-- A machine in reception of a get-SSID response, one byte received, one Poll missed. -/
def receiving : State :=
  { (acceptStart .getSsid 0 0 0 0 ready).enter .rx with
    txi := 6, rxi := 1, rxCount := 1, wcnt := 1, rb := [(0, 0x41)] }

/-- A machine after an illegal start request (95_test_vectors.md P4). -/
def illegalDone : State := illegalStart 0x12 { ready with cmd := 0x12 }

/-- The buffer holding these bytes from index 0. -/
def cells (bytes : List Byte) : Memory := bytes.zipIdx.map fun (p : Byte × Nat) => (p.2, p.1)

/-- A machine after a get-SSID transaction with `n` bytes received, the content of RB and the verdict given. -/
def ssidDone (n : Half) (bytes : List Byte) (v : Verdict) : State :=
  { ((acceptStart .getSsid 0 0 0 0 ready).report v).finish with
    txi := 6, rxCount := n, rxi := n, rb := cells bytes }

def shortDone : State := ssidDone 0 (List.replicate 100 0) ⟨false, false, 0, 0⟩
def protocolDone : State := ssidDone 100 (0x42 :: 0x43 :: List.replicate 98 0) ⟨false, false, 0, 0⟩
def checksumDone : State := ssidDone 100 ([0x41, 0x43] ++ List.replicate 97 0 ++ [1]) ⟨true, false, 0, 1⟩
def okDone : State := ssidDone 100 ([0x41, 0x43] ++ List.replicate 98 0) ⟨true, true, 0, 0⟩

/-! ### One step at a time (95_test_vectors.md S, P) -/

/-- The next state's field `f`, if there is a next state. -/
def nextField {α : Type} (f : State → α) : Host.Outcome State Fault Refusal → Option α
  | .next s => some (f s)
  | .fault _ => none
  | .refused _ => none

/-- S5: STATUS right after GET_SSID is accepted is 0x41. -/
theorem test_exec_getSsid_status : nextField (fun t => t.status.byte) (exec (.getSsid 0 0 0 0) ready) = some 0x41 := by
  decide
/-- P3: STATUS right after RESET is accepted is 0x01. -/
theorem test_exec_reset_status : nextField (fun t => t.status.byte) (exec (.reset 0 0 0 0) ready) = some 0x01 := by
  decide
theorem test_exec_getHosts_lengths :
    nextField (fun t => (t.respLen, t.payLen)) (exec (.getHosts 0 0 0 0) ready) = some (259, 256) := by decide
theorem test_exec_getDevSlots_frame :
    nextField (fun t => t.frame.bytes) (exec (.getDevSlots 0 0 0 0) ready)
      = some [0x70, 0xF2, 0, 0, 0, 0, 0x63] := by decide
/-- P4: the first start request after reset is illegal, STATUS 0x22. -/
theorem test_start_after_reset_is_illegal :
    nextField (fun t => (t.status.byte, t.lcmd, t.trace)) (exec (.wr .ctrl 1) ready) = some (0x22, 0, []) := by decide
/-- S4: a second start request changes nothing. -/
theorem test_start_while_busy : exec (.wr .ctrl 1) started = .next started := by rfl
theorem test_wr_takes_the_low_byte : nextField State.cmd (exec (.wr .cmd 0x12FE) ready) = some 0xFE := by decide
theorem test_wr_status_is_ignored : nextField (fun t => t.status) (exec (.wr .status 0xFFFF) okDone) = some okDone.status := by
  decide
theorem test_rd_status_of_ok : nextField State.hostReads (exec (.rd .status) okDone) = some [0x5E] := by decide
theorem test_rdb_inside : nextField State.hostReads (exec (.rdb 1) okDone) = some [0x43] := by decide
/-- S7: outside the window. -/
theorem test_rdb_outside : nextField State.hostReads (exec (.rdb 100) okDone) = some [0x00] := by decide
theorem test_nop : exec .nop okDone = .next okDone := by rfl
/-- X4 at the second missed Poll: the timeout zero-fills and leaves the count. -/
theorem test_rx_timeout :
    nextField (fun t => (t.ph, t.rxCount, t.rbByte 0, t.rbByte 99))
      (engineStep { receiving with answers := [.notReady] }) = some (.val, 1, 0x41, 0) := by decide
theorem test_rx_store :
    nextField (fun t => (t.ph, t.rxCount, t.wcnt, t.rbByte 1))
      (engineStep { receiving with answers := [got 0x43] }) = some (.rx, 2, 0, 0x43) := by decide
/-- A block reset in mid-transaction emits nothing and leaves IDLE. -/
theorem test_rst_in_reception :
    nextField (fun t => (t.ph, t.status.byte, t.rst, t.trace.length))
      (step { receiving with agenda := [.assertRst] }) = some (.idle, 0, true, 0) := by decide
theorem test_fetch_word_runs :
    step (State.reset.withFetchWord 40 0x04030201FE)
      = exec (.getSsid 1 2 3 4) { State.reset.withFetchWord 40 0x04030201FE with agenda := [] } := by rfl

/-! ### Witnesses -/

/-- The invariant in mid-reception. -/
theorem witness_invariant_receiving : MachineInv receiving :=
  ⟨⟨by decide, by decide, by decide, by decide, by decide, by decide, by decide, by decide, by decide, by decide⟩,
   ⟨by decide, by decide, by decide, by decide, by decide, by decide, by decide, by decide,
    fun h => absurd h (by decide)⟩,
   ⟨by decide, by decide, by decide, by decide⟩⟩

theorem witness_invariant_illegal : MachineInv illegalDone ∧ illegalDone.status.done = true :=
  ⟨⟨⟨by decide, by decide, by decide, by decide, by decide, by decide, by decide, by decide, by decide, by decide⟩,
    ⟨by decide, by decide, by decide, by decide, by decide, by decide, by decide, by decide,
     fun _ i _ h => absurd h (Nat.not_lt_zero i)⟩,
    ⟨by decide, by decide, by decide, by decide⟩⟩, rfl⟩

/-- The invariant of a finished transaction, from the facts its state must show. -/
theorem invariant_of_finished (s : State) (control : ControlInv s) (idle : s.ph = .idle) (rb : s.rb.wf = true)
    (wcnt : s.wcnt < s.params.maxWait.polls) (count : s.rxCount.toNat ≤ s.respLen.toNat)
    (filled : ∀ i, i < s.respLen.toNat → (s.rb.lookup i).isSome = true)
    (zeroFill : ∀ i, i < s.respLen.toNat → s.rxCount.toNat ≤ i → s.rb.lookup i = some 0)
    (unread : s.respLen = 0 → s.status.pv = false ∧ s.status.cv = false ∧ s.expChk = 0 ∧ s.rcvChk = 0)
    (verdict : (⟨s.status.pv, s.status.cv, s.expChk, s.rcvChk⟩ : Verdict)
      = validate (s.rbSlice 0 s.respLen.toNat) s.respLen.toNat s.rxCount.toNat)
    (decoded : s.dec = decodeSelected { s with dec := .zero }) : MachineInv s :=
  ⟨control,
   ⟨rb, wcnt, count, by simp [idle], by simp [idle], by simp [idle], by simp [idle], fun _ => filled,
    fun _ i a b => zeroFill i b a⟩,
   ⟨by simpa [idle, Phase.beforeVerdict] using unread, fun _ _ => verdict, by simp [idle, Phase.beforeDecoding],
    fun _ => decoded⟩⟩

theorem witness_outcome_short : MachineInv shortDone ∧ shortDone.status.done = true ∧ shortDone.outcome = .short :=
  ⟨invariant_of_finished _ (by constructor <;> decide) rfl (by decide) (by decide) (by decide) (by decide) (by decide)
    (by decide) (by decide +kernel) (by decide), rfl, by decide⟩
theorem witness_outcome_protocol :
    MachineInv protocolDone ∧ protocolDone.status.done = true ∧ protocolDone.outcome = .protocol :=
  ⟨invariant_of_finished _ (by constructor <;> decide) rfl (by decide) (by decide) (by decide) (by decide) (by decide)
    (by decide) (by decide +kernel) (by decide), rfl, by decide⟩
theorem witness_outcome_checksum :
    MachineInv checksumDone ∧ checksumDone.status.done = true ∧ checksumDone.outcome = .checksum :=
  ⟨invariant_of_finished _ (by constructor <;> decide) rfl (by decide) (by decide) (by decide) (by decide) (by decide)
    (by decide) (by decide +kernel) (by decide), rfl, by decide⟩
theorem witness_outcome_ok : MachineInv okDone ∧ okDone.status.done = true ∧ okDone.outcome = .ok :=
  ⟨invariant_of_finished _ (by constructor <;> decide) rfl (by decide) (by decide) (by decide) (by decide) (by decide)
    (by decide) (by decide +kernel) (by decide), rfl, by decide⟩
theorem witness_outcome_illegal : illegalDone.outcome = .illegal := by decide

/-- A machine after a RESET transaction. -/
def resetDone : State := { (acceptStart .reset 0 0 0 0 ready).finish with txi := 6 }

theorem witness_outcome_sent : MachineInv resetDone ∧ resetDone.status.done = true ∧ resetDone.outcome = .sent :=
  ⟨⟨⟨by decide, by decide, by decide, by decide, by decide, by decide, by decide, by decide, by decide, by decide⟩,
    ⟨by decide, by decide, by decide, by decide, by decide, by decide, by decide, by decide,
     fun _ i _ h => absurd h (Nat.not_lt_zero i)⟩,
    ⟨by decide, by decide, by decide, by decide⟩⟩, rfl, by decide⟩

/-- D0: a machine after a get-device-slots transaction with an all-zero payload. -/
def devicesDone : State :=
  { ((acceptStart .getDevSlots 0 0 0 0 ready).report ⟨true, true, 0, 0⟩).finish with
    txi := 6, rxCount := 307, rxi := 307, dec := { DecoderRegs.zero with devEmpty := 0xFF }
    rb := cells ([0x41, 0x43] ++ List.replicate 305 0) }

theorem witness_decoder_registers : MachineInv devicesDone ∧ devicesDone.dec.devEmpty.getLsbD 7 = true :=
  ⟨invariant_of_finished _ (by constructor <;> decide) rfl (by decide +kernel) (by decide) (by decide)
    (by decide +kernel) (by decide +kernel) (by decide) (by decide +kernel) (by decide +kernel), by decide⟩

theorem witness_AssertingRst : ({ receiving with agenda := [.assertRst] } : State).agenda = .assertRst :: [] := rfl
theorem witness_NothingHappensWhileRstIsAsserted : ({ ready with rst := true } : State).rst = true := rfl
theorem witness_step_answers : ∃ t, step { receiving with answers := [.notReady] } = .next t ∧ t.ph = .val :=
  ⟨_, rfl, rfl⟩
theorem witness_DecodingAnEncoding : (Instr.wr (.devFlen 7) 0xFFFF).wellFormed = true := by decide
theorem witness_EncodingADecoding :
    (Encoded.cw 0xFFFFFFFFF2).wellFormed = true ∧ (Encoded.host32 0x407F0000).wellFormed = true := by decide
theorem witness_illegal_codes_at_the_boundaries :
    (∀ c ∈ ([0x00, 0xF1, 0xF3, 0xF5, 0xFD] : List Byte), c ≠ 0xFF ∧ c ≠ 0xFE ∧ c ≠ 0xF4 ∧ c ≠ 0xF2) := by decide
theorem witness_IgnoredHostWordBits :
    (0x3F0100FE : BitVec 32) &&& 0xC0FFFFFF = 0x000100FE &&& 0xC0FFFFFF
    ∧ (0x7F06FFFF : BitVec 32).extractLsb' 30 2 = 0b01 ∧ (0x7F06FFFF : BitVec 32) &&& 0xC0FF0000 = 0x40060000 &&& 0xC0FF0000
    ∧ (0xBFFF0002 : BitVec 32).extractLsb' 30 2 = 0b10 ∧ (0xBFFF0002 : BitVec 32) &&& 0xC000FFFF = 0x80000002 &&& 0xC000FFFF
    ∧ (0xFFFFFFFF : BitVec 32).extractLsb' 30 2 = 0b11 ∧ (0xFFFFFFFF : BitVec 32) &&& 0xC0000000 = 0xC0000000 &&& 0xC0000000 := by
  decide
theorem witness_StepRunsTheNextHostWord :
    ({ ready with agenda := [.host 0x40060000] } : State).agenda = .host 0x40060000 :: []
    ∧ decode (.host32 0x40060000) = .ok (.rd .status) := ⟨rfl, rfl⟩
theorem witness_StepRunsTheCommandWord :
    ({ ready with cmd := 0xF4, agenda := [.host 1] } : State).agenda = .host 1 :: []
    ∧ decode (.host32 1) = .ok (.wr .ctrl 1) ∧ (1 : Half).getLsbD 0 = true
    ∧ decode (.cw (commandWord 0xF4 0 0 0 0)) = .ok (.getHosts 0 0 0 0) := ⟨rfl, rfl, rfl, rfl⟩
theorem witness_StepRunsAPlacedTableWord :
    decodeTableWord 32 0x80000002 = some (.rdb 2) ∧ decodeTableWord 40 0x04030201F2 = some (.getDevSlots 1 2 3 4) :=
  ⟨rfl, rfl⟩
theorem witness_StepTakesTheEnginesTurn :
    ready.agenda = [] ∧ ({ ready with agenda := [.engine] } : State).agenda = .engine :: []
    ∧ ({ ready with agenda := [.releaseRst] } : State).agenda = .releaseRst :: [] := ⟨rfl, rfl, rfl⟩
theorem witness_idle_and_released : ready.rst = false ∧ ready.ph = .idle ∧ ready.agenda = [] := ⟨rfl, rfl, rfl⟩
theorem witness_StartWhileBusyIsIgnored :
    started.rst = false ∧ started.ph ≠ .idle ∧ (0xFFFF : Half).getLsbD 0 = true := by decide
theorem witness_StartWithAnIllegalCode :
    ready.rst = false ∧ ready.ph = .idle ∧ (0x0001 : Half).getLsbD 0 = true
    ∧ ready.cmd ≠ 0xFF ∧ ready.cmd ≠ 0xFE ∧ ready.cmd ≠ 0xF4 ∧ ready.cmd ≠ 0xF2 := by decide
theorem witness_StartRunsTheCommand :
    ∀ c ∈ ([0xFF, 0xFE, 0xF4, 0xF2] : List Byte), ({ ready with cmd := c } : State).cmd = c := by decide
theorem witness_WriteStoresOrIsIgnored :
    ready.rst = false ∧ (0xFFFF : Half).getLsbD 0 = true ∧ (0xFFFE : Half).getLsbD 0 = false ∧ 0x06 ≤ (0x06 : Byte).toNat ∧ 0x06 ≤ (0xFF : Byte).toNat := by decide
theorem witness_ReadReturnsTheRegister :
    ready.rst = false ∧ ∀ n ∈ ([0x0D, 0x0F, 0x17, 0x1F, 0x29, 0x2F, 0x49, 0xFF] : List Byte),
      (0x0D ≤ n.toNat ∧ n.toNat ≤ 0x0F) ∨ (0x17 ≤ n.toNat ∧ n.toNat ≤ 0x1F)
        ∨ (0x29 ≤ n.toNat ∧ n.toNat ≤ 0x2F) ∨ 0x49 ≤ n.toNat := by decide
theorem witness_BufferReadIsBounded :
    okDone.rst = false ∧ okDone.respLen.toNat ≤ 307 ∧ (99 : Half).toNat < okDone.respLen.toNat
    ∧ ¬ (100 : Half).toNat < okDone.respLen.toNat := by decide
theorem witness_BufferReadNeverStops :
    MachineInv okDone ∧ exec (.rdb 0xFFFF) okDone = .next { okDone with hostReads := [0] } :=
  ⟨witness_outcome_ok.1, by rfl⟩
theorem witness_host_operation_answers : exec .nop ready = .next ready := rfl
theorem witness_SendStartsTheCommand :
    let s : State := { ready with
      agenda := [.host 0x000100F4, .host 0x00020001, .host 0x00030002, .host 0x00040003, .host 0x00050004, .host 1, .engine] }
    s.rst = false ∧ s.ph = .idle ∧ s.agenda = (expandLine (.send (Command.getHosts.code.setWidth 16) 1 2 3 4)).map
        (fun i => match encode i with | .host32 w => Turn.host w | .cw _ => Turn.engine) ++ [.engine] := by
  decide
theorem witness_CfgInStep : started.rst = false ∧ started.ph = .cfgIn := ⟨rfl, rfl⟩
theorem witness_TxStep_first :
    (started.enter .tx).rst = false ∧ (started.enter .tx).ph = .tx ∧ (0 : Fin 7).val < 6
    ∧ (started.enter .tx).txi = BitVec.ofNat 3 (0 : Fin 7).val := by decide
theorem witness_TxStep_sixth :
    let s : State := { (started.enter .tx) with txi := 5 }
    s.rst = false ∧ s.ph = .tx ∧ (5 : Fin 7).val < 6 ∧ s.txi = BitVec.ofNat 3 (5 : Fin 7).val := by decide
theorem witness_TxStep_last :
    let s : State := { (started.enter .tx) with txi := 6 }
    s.rst = false ∧ s.ph = .tx ∧ s.txi = 6 ∧ s.respLen ≠ 0 := by decide
theorem witness_TxStep_last_without_response :
    (resetDone.enter .tx).rst = false ∧ (resetDone.enter .tx).ph = .tx ∧ (resetDone.enter .tx).txi = 6
    ∧ (resetDone.enter .tx).respLen = 0 := by decide
theorem witness_RxStep_timeout :
    let s : State := { receiving with answers := [.notReady] }
    s.rst = false ∧ s.ph = .rx ∧ s.answers = .notReady :: receiving.answers ∧ receiving = { s with answers := receiving.answers }
    ∧ s.rxi.toNat < s.respLen.toNat ∧ s.respLen.toNat ≤ 307 ∧ s.wcnt + 1 = s.params.maxWait.polls := by
  refine ⟨rfl, rfl, rfl, rfl, ?_⟩
  decide
theorem witness_RxStep_miss :
    let u : State := { receiving with wcnt := 0 }
    let s : State := { u with answers := [.notReady] }
    s.rst = false ∧ s.ph = .rx ∧ s.answers = .notReady :: u.answers ∧ u = { s with answers := u.answers }
    ∧ s.rxi.toNat < s.respLen.toNat ∧ s.respLen.toNat ≤ 307 ∧ s.wcnt + 1 ≠ s.params.maxWait.polls := by
  refine ⟨rfl, rfl, rfl, rfl, ?_⟩
  decide
theorem witness_RxStep_last_byte :
    let u : State := { receiving with rxi := 99, rxCount := 99 }
    let s : State := { u with answers := [got 7] }
    s.rst = false ∧ s.ph = .rx ∧ s.answers = .ready (.byte 7) :: u.answers ∧ u = { s with answers := u.answers }
    ∧ s.rxi.toNat < s.respLen.toNat ∧ s.respLen.toNat ≤ 307 ∧ s.rxi.toNat + 1 = s.respLen.toNat := by
  refine ⟨rfl, rfl, rfl, rfl, ?_⟩
  decide
/-- The hypotheses on the answer, once from the answers at hand and once as a free draw. -/
theorem witness_RxStep_answer :
    (({ receiving with answers := [.ready .noData] } : State).answers = .ready .noData :: receiving.answers
      ∧ receiving = { ({ receiving with answers := [.ready .noData] } : State) with answers := receiving.answers })
    ∧ (receiving.answers = [] ∧ Config.serialDraw 0 = Config.serialDraw receiving.draws) := ⟨⟨rfl, rfl⟩, rfl, rfl⟩
theorem witness_ValStep_short :
    (receiving.enter .val).rst = false ∧ (receiving.enter .val).ph = .val ∧ 3 ≤ (receiving.enter .val).respLen.toNat
    ∧ (receiving.enter .val).respLen.toNat ≤ 307
    ∧ (receiving.enter .val).rxCount.toNat < (receiving.enter .val).respLen.toNat := by decide
theorem witness_ValStep_full :
    (okDone.enter .val).rst = false ∧ (okDone.enter .val).ph = .val ∧ 3 ≤ (okDone.enter .val).respLen.toNat
    ∧ (okDone.enter .val).respLen.toNat ≤ 307
    ∧ (okDone.enter .val).rxCount.toNat ≤ (okDone.enter .val).respLen.toNat
    ∧ (okDone.enter .val).rbByte 0 = 0x41 ∧ (okDone.enter .val).rbByte 1 = 0x43 := by decide
theorem witness_DecStepDecodesHosts :
    let s : State := { (((acceptStart .getHosts 0 0 0 0 ready).report ⟨true, true, 0, 0⟩).enter .dec) with
      rxCount := 259, rxi := 259, rb := cells ([0x41, 0x43] ++ List.replicate 257 0) }
    s.rst = false ∧ s.ph = .dec ∧ s.status.pv = true ∧ s.status.cv = true ∧ s.lcmd = 0xF4 := by
  decide
theorem witness_DecStepDecodesDeviceSlots :
    (devicesDone.enter .dec).rst = false ∧ (devicesDone.enter .dec).ph = .dec ∧ (devicesDone.enter .dec).status.pv = true
    ∧ (devicesDone.enter .dec).status.cv = true ∧ (devicesDone.enter .dec).lcmd = 0xF2 := by decide
theorem witness_DecStepWritesNothing :
    (okDone.enter .dec).rst = false ∧ (okDone.enter .dec).ph = .dec
    ∧ ((okDone.enter .dec).lcmd ≠ 0xF4 ∧ (okDone.enter .dec).lcmd ≠ 0xF2)
    ∧ (checksumDone.enter .dec).status.cv = false ∧ (shortDone.enter .dec).status.pv = false := by
  decide
theorem witness_CfgOutStep : (started.enter .cfgOut).rst = false ∧ (started.enter .cfgOut).ph = .cfgOut := ⟨rfl, rfl⟩
theorem witness_EngineKeepsTheHostsRegisters : engineStep ready = .next ready := rfl
theorem witness_ChecksumWeaknesses :
    ([0x12, 0x34] : List Byte).Perm [0x34, 0x12] ∧ (0x00 : Byte) ≠ 0xFF ∧ (0x01 : Byte) ∈ ([] ++ [0x01] : List Byte) :=
  ⟨List.Perm.swap _ _ _, by decide, by decide⟩
/-- The hypotheses on a transaction with a response, for a machine and an environment that answers nothing. -/
theorem witness_response_command :
    Command.getSsid ≠ .reset ∧ ready.rst = false ∧ ready.ph = .idle ∧ ready.agenda = [] := by decide
theorem witness_ReceptionRefinesRx :
    let s : State := { receiving with
      rxi := 0, wcnt := 0, rxCount := 0, respLen := 2, answers := [got 7, .notReady, .notReady] }
    s.rst = false ∧ s.agenda = [] ∧ s.ph = .rx ∧ s.rxi = 0 ∧ s.wcnt = 0 ∧ s.rxCount = 0
    ∧ 1 ≤ s.respLen.toNat ∧ s.respLen.toNat ≤ 307
    ∧ receive s.respLen.toNat s.params.maxWait.polls s.answers = some ⟨[7, 0], 1, 3⟩ := by
  decide
/-- A whole valid get-SSID response of 97 bytes 0x01, whose checksum is 0x61, and one answer more. -/
theorem witness_ValidResponse :
    let p : List Byte := List.replicate 97 0x01
    let s : State := { ready with
      answers := ([0x41, 0x43] ++ List.replicate 97 0x01 ++ [0x61]).map got ++ [.notReady] }
    Command.getSsid ≠ .reset ∧ s.rst = false ∧ s.ph = .idle ∧ s.agenda = []
    ∧ p.length + 3 = Command.getSsid.respLen.toNat
    ∧ s.answers = ([0x41, 0x43] ++ p ++ [checksum p]).map (fun b => .ready (.byte b)) ++ [.notReady] := by
  decide +kernel
theorem witness_UnwrittenBufferContent :
    let s : State := { receiving with answers := [got 7] }
    MachineInv s ∧ SameButUnwritten s { s with rb := [(0, 0x41), (9, 3)], rbEpoch := 1 }
    ∧ ∃ t, engineStep s = .next t :=
  ⟨MachineInv.congr (s := receiving) (by constructor <;> rfl) witness_invariant_receiving,
   ⟨rfl, fun i h => by
      have : i = 0 := Nat.lt_one_iff.1 h
      subst this
      rfl⟩,
   ⟨_, rfl⟩⟩

end Sys2Proof.Tests
end

namespace Sys2Proof.Machine

/-! ### The parameters -/

theorem rxStore_keeps_params {b : Byte} {s t : State} (h : rxStore b s = .next t) : t.params = s.params := by
  obtain ⟨_, rfl⟩ := rxStore_next h
  simp

theorem rxAbort_keeps_params {s t : State} (h : rxAbort s = .next t) : t.params = s.params := by
  obtain ⟨_, rfl⟩ := rxAbort_next h
  simp

theorem rxStep_keeps_params {s t : State} (h : rxStep s = .next t) : t.params = s.params := by
  obtain ⟨_, ⟨_, _, rfl⟩ | ⟨_, _, timeout⟩ | ⟨_, _, stored⟩ | ⟨_, noData⟩⟩ := rxStep_cases h
  · simp
  · simpa using rxAbort_keeps_params timeout
  · simpa using rxStore_keeps_params stored
  · simpa using rxAbort_keeps_params noData

theorem txStep_keeps_params {s t : State} (h : txStep s = .next t) : t.params = s.params := by
  obtain ⟨_, _, ⟨_, rfl⟩ | ⟨_, _, rfl⟩ | ⟨_, _, rfl⟩⟩ := txStep_cases h <;> simp

theorem valStep_keeps_params {s t : State} (h : valStep s = .next t) : t.params = s.params := by
  obtain ⟨_, _, _, rfl⟩ := valStep_cases h
  simp

theorem decStep_keeps_params {s t : State} (h : decStep s = .next t) : t.params = s.params := by
  injection h with h
  subst h
  rfl

/-- The engine reads P_MAX_WAIT and P_PORT_CFG and writes neither (00_scope.md R8, R9). -/
theorem engineStep_keeps_params {s t : State} (h : engineStep s = .next t) : t.params = s.params := by
  obtain ⟨_, rfl⟩ | ⟨_, _, rfl⟩ | ⟨_, _, tx⟩ | ⟨_, _, rx⟩ | ⟨_, _, val⟩ | ⟨_, _, dec⟩ | ⟨_, _, rfl⟩ :=
    engineStep_cases h
  · rfl
  · simp
  · exact txStep_keeps_params tx
  · exact rxStep_keeps_params rx
  · exact valStep_keeps_params val
  · exact decStep_keeps_params dec
  · simp

theorem exec_keeps_params {i : Instr} {s t : State} (h : exec i s = .next t) : t.params = s.params := by
  obtain rfl | ⟨_, _, _, _, _, _, _, rfl⟩ | ⟨_, _, _, rfl⟩ | ⟨_, _, _, rfl⟩ | ⟨_, _, rfl⟩ := exec_cases h <;> simp

/-- The parameters are fixed before the machine runs, so block reset keeps them too (70_reset_and_hazards.md R233). -/
theorem takeTurn_keeps_params {turn : Turn} {s t : State} (h : takeTurn turn s = .next t) :
    t.params = s.params := by
  cases turn with
  | host w => exact exec_keeps_params h
  | engine => exact engineStep_keeps_params h
  | assertRst =>
    injection h with h
    rw [← h, blockReset_params]
  | releaseRst =>
    injection h with h
    rw [← h, released_params]

/-- Settles O20: the step is the engine's or the first turn's of the agenda, and both keep the parameters. -/
theorem stepKeepsTheParameters : Obligations.StepKeepsTheParameters := by
  intro s t h
  obtain ⟨_, engine⟩ | ⟨_, _, _, turn⟩ := step_cases s
  · rw [engine] at h
    exact engineStep_keeps_params h
  · rw [turn] at h
    simpa using takeTurn_keeps_params h

end Sys2Proof.Machine

namespace Sys2Proof.Machine

/-! ### The control part of the invariant -/

/-- Two states with the same request latched and reported: what every engine step before the last leaves alone. -/
structure SameRequest (s t : State) : Prop where
  busy : t.status.busy = s.status.busy
  done : t.status.done = s.status.done
  ill : t.status.ill = s.status.ill
  rsp : t.status.rsp = s.status.rsp
  lcmd : t.lcmd = s.lcmd
  respLen : t.respLen = s.respLen
  payLen : t.payLen = s.payLen
  frame : t.frame = s.frame

/-- A step inside a transaction keeps the control part when it keeps the request. -/
theorem ControlInv.in_transaction {s t : State} (hc : ControlInv s) (same : SameRequest s t)
    (before : s.ph ≠ .idle) (after : t.ph ≠ .idle) (txi : t.txi.toNat ≤ 6) : ControlInv t where
  busy := by simp only [same.busy, hc.busy, before, after, ne_eq, not_false_eq_true]
  notBoth := by simpa only [same.busy, same.done] using hc.notBoth
  legal _ := by simpa only [same.lcmd] using hc.legal before
  respLen := by simpa only [same.respLen, same.lcmd] using hc.respLen
  payLen := by simpa only [same.payLen, same.respLen] using hc.payLen
  rsp := by simpa only [same.rsp, same.respLen] using hc.rsp
  ill := by simpa only [same.ill, same.done, same.lcmd] using hc.ill
  frame := by simpa only [same.frame, same.lcmd] using hc.frame
  txi := txi
  fresh idle := absurd idle after

theorem ControlInv.ill_of_transaction {s : State} (hc : ControlInv s) (hp : s.ph ≠ .idle) :
    s.status.ill = false := by
  have busy := hc.busy.2 hp
  have done : s.status.done = false := by simpa [busy] using hc.notBoth
  simpa [done] using hc.ill

/-- RSP of a command says whether its RESP_LEN is positive (30_encoding.md R83). -/
theorem expectsResponse_iff (c : Command) : c.expectsResponse = true ↔ 0 < c.respLen.toNat := by
  cases c <;> decide

theorem controlInv_acceptStart (c : Command) (a1 a2 a3 a4 : Byte) (s : State) :
    ControlInv (acceptStart c a1 a2 a3 a4 s) := by
  constructor <;> simp [frameOf, encodeFrame, expectsResponse_iff]

theorem controlInv_illegalStart {c : Byte} {s : State} (hc : ControlInv s) (idle : s.ph = .idle)
    (illegal : Command.ofCode c = none) : ControlInv (illegalStart c s) := by
  constructor <;> simp [idle, illegal, respLenOf, frameOf, payLenOf, hc.txi]

/-- The end of a transaction: its code is legal, so ILL stays 0 when DONE becomes 1 (10_state.md R30). -/
theorem controlInv_finish {s : State} (hc : ControlInv s) (hp : s.ph ≠ .idle) : ControlInv s.finish where
  busy := by simp
  notBoth := by simp
  legal := by simp
  respLen := hc.respLen
  payLen := hc.payLen
  rsp := hc.rsp
  ill := by
    have legal := Option.isSome_iff_ne_none.1 (hc.legal hp)
    simp [hc.ill_of_transaction hp, legal]
  frame := hc.frame
  txi := hc.txi
  fresh := by simp

/-! ### The receiver's part of the invariant, by the stage of the transaction -/

/-- Before reception. -/
theorem ReceiverInv.of_sending {t : State} (ph : t.ph = .cfgIn ∨ t.ph = .tx) (rb : t.rb.wf = true)
    (wcnt : t.wcnt < t.params.maxWait.polls) (count : t.rxCount = 0) : ReceiverInv t := by
  obtain ⟨notRx, noResult, notAfter⟩ :
      t.ph ≠ .rx ∧ ¬ (t.ph = .val ∨ t.ph = .dec) ∧ ¬ t.ph.afterReception = true := by
    rcases ph with ph | ph <;> rw [ph] <;> decide
  exact {
    rb := rb
    wcnt := wcnt
    count := by simp [count]
    countZero := fun _ => count
    position := fun h => absurd h notRx
    stored := fun h => absurd h notRx
    response := fun h => absurd h noResult
    filled := fun h => absurd h notAfter
    zeroFill := fun h => absurd h notAfter }

/-- In reception. -/
theorem ReceiverInv.of_receiving {t : State} (ph : t.ph = .rx) (rb : t.rb.wf = true)
    (wcnt : t.wcnt < t.params.maxWait.polls) (position : t.rxi.toNat < t.respLen.toNat) (count : t.rxCount = t.rxi)
    (stored : ∀ i, i < t.rxi.toNat → (t.rb.lookup i).isSome = true) : ReceiverInv t where
  rb := rb
  wcnt := wcnt
  count := by rw [count]; omega
  countZero := by simp [ph]
  position _ := ⟨position, count⟩
  stored _ := stored
  response := by simp [ph]
  filled := by simp [ph, Phase.afterReception]
  zeroFill := by simp [ph, Phase.afterReception]

/-- After reception. -/
theorem ReceiverInv.of_received {t : State} (ph : t.ph.afterReception = true) (rb : t.rb.wf = true)
    (wcnt : t.wcnt < t.params.maxWait.polls) (count : t.rxCount.toNat ≤ t.respLen.toNat)
    (response : t.ph = .val ∨ t.ph = .dec → 0 < t.respLen.toNat)
    (filled : ∀ i, i < t.respLen.toNat → (t.rb.lookup i).isSome = true)
    (zeroFill : ∀ i, t.rxCount.toNat ≤ i → i < t.respLen.toNat → t.rb.lookup i = some 0) : ReceiverInv t where
  rb := rb
  wcnt := wcnt
  count := count
  countZero h := by rcases h with h | h <;> simp [h, Phase.afterReception] at ph
  position h := by simp [h, Phase.afterReception] at ph
  stored h := by simp [h, Phase.afterReception] at ph
  response := response
  filled _ := filled
  zeroFill _ := zeroFill

/-- No response expected: there is nothing to fill. -/
theorem ReceiverInv.of_noResponse {t : State} (ph : t.ph = .cfgOut ∨ t.ph = .idle) (rb : t.rb.wf = true)
    (wcnt : t.wcnt < t.params.maxWait.polls) (count : t.rxCount = 0) (respLen : t.respLen = 0) : ReceiverInv t := by
  have after : t.ph.afterReception = true := by rcases ph with ph | ph <;> rw [ph] <;> rfl
  have response : t.ph = .val ∨ t.ph = .dec → 0 < t.respLen.toNat := by rcases ph with ph | ph <;> simp [ph]
  have outside : ∀ i, ¬ i < t.respLen.toNat := by simp [respLen]
  exact ReceiverInv.of_received after rb wcnt (by simp [count]) response (fun i hi => absurd hi (outside i))
    fun i _ hi => absurd hi (outside i)

/-- The steps after reception leave the receiver alone. -/
theorem ReceiverInv.after_reception {s t : State} (hr : ReceiverInv s) (before : s.ph.afterReception = true)
    (after : t.ph.afterReception = true) (response : t.ph = .val ∨ t.ph = .dec → 0 < s.respLen.toNat)
    (rb : t.rb = s.rb) (wcnt : t.wcnt = s.wcnt) (params : t.params = s.params) (count : t.rxCount = s.rxCount)
    (respLen : t.respLen = s.respLen) : ReceiverInv t := by
  have filled := hr.filled before
  have zeroFill := hr.zeroFill before
  apply ReceiverInv.of_received after <;> simp only [rb, wcnt, params, count, respLen]
  · exact hr.rb
  · exact hr.wcnt
  · exact hr.count
  · exact response
  · exact filled
  · exact zeroFill

/-- Consecutive writes from `a` on extend a buffer that is written up to `a`. -/
theorem Memory.isSome_lookup_writeBytes {m : Memory} {a : Nat} (bs : List Byte)
    (below : ∀ i, i < a → (m.lookup i).isSome = true) (i : Nat) (hi : i < a + bs.length) :
    ((m.writeBytes a bs).lookup i).isSome = true := by
  rw [Memory.lookup_writeBytes]
  split
  · rfl
  · exact below i (by omega)

/-- A position inside the response can advance without wrapping. -/
theorem succ_toNat_of_lt {x y : Half} (h : x.toNat < y.toNat) : (x + 1).toNat = x.toNat + 1 := by
  have bound : y.toNat < 65536 := y.isLt
  have add : (x + 1).toNat = (x.toNat + 1) % 65536 := BitVec.toNat_add x 1
  rw [add, Nat.mod_eq_of_lt (by omega)]

/-- store(i, b) inside the response: the next position, or the end of reception (42_receiver.md R124). -/
theorem receiverInv_stored {s : State} (hr : ReceiverInv s) (rx : s.ph = .rx) (inside : s.respLen.toNat ≤ rbSize)
    (b : Byte) : ReceiverInv (s.fill s.rxi.toNat [b]).stored := by
  obtain ⟨position, count⟩ := hr.position rx
  have advance : (s.rxi + 1).toNat = s.rxi.toNat + 1 := succ_toNat_of_lt position
  have countAdvance : (s.rxCount + 1).toNat = s.rxi.toNat + 1 := by rw [count, advance]
  have rb : (s.rb.writeBytes s.rxi.toNat [b]).wf = true :=
    Memory.wf_writeBytes [b] s.rb s.rxi.toNat (by rw [List.length_singleton]; omega) hr.rb
  have written : ∀ i, i < s.rxi.toNat + 1 → ((s.rb.writeBytes s.rxi.toNat [b]).lookup i).isSome = true :=
    Memory.isSome_lookup_writeBytes [b] (hr.stored rx)
  by_cases last : s.rxi.toNat + 1 = s.respLen.toNat
  · apply ReceiverInv.of_received
    · simp [last, Phase.afterReception]
    · exact rb
    · exact s.params.maxWait.positive
    · rw [stored_rxCount, fill_rxCount, countAdvance]
      exact position
    · intro _
      exact Nat.zero_lt_of_lt position
    · intro i hi
      exact written i (by rw [last]; exact hi)
    · intro i hlo hhi
      rw [stored_rxCount, fill_rxCount, countAdvance, last] at hlo
      exact absurd hhi (Nat.not_lt.2 hlo)
  · apply ReceiverInv.of_receiving
    · simp [last, rx]
    · exact rb
    · exact s.params.maxWait.positive
    · rw [stored_rxi, fill_rxi, advance, stored_respLen, fill_respLen]
      omega
    · rw [stored_rxCount, stored_rxi, fill_rxCount, fill_rxi, count]
    · intro i hi
      rw [stored_rxi, fill_rxi, advance] at hi
      exact written i hi

/-- abort(i): the zero fill ends reception (42_receiver.md R126, R127). -/
theorem receiverInv_aborted {s : State} (hr : ReceiverInv s) (rx : s.ph = .rx) (inside : s.respLen.toNat ≤ rbSize) :
    ReceiverInv
      (s.fill s.rxi.toNat (List.replicate (s.respLen.toNat - s.rxi.toNat) 0x00)).aborted := by
  obtain ⟨position, count⟩ := hr.position rx
  have upToEnd : s.rxi.toNat + (List.replicate (s.respLen.toNat - s.rxi.toNat) (0x00 : Byte)).length
      = s.respLen.toNat := by
    rw [List.length_replicate]
    omega
  apply ReceiverInv.of_received
  · rfl
  · exact Memory.wf_writeBytes _ s.rb _ (by omega) hr.rb
  · exact s.params.maxWait.positive
  · exact hr.count
  · intro _
    exact Nat.zero_lt_of_lt position
  · intro i hi
    exact Memory.isSome_lookup_writeBytes _ (hr.stored rx) i (by rw [upToEnd]; exact hi)
  · intro i hlo hhi
    have range : s.rxi.toNat ≤ i ∧ i < s.respLen.toNat := ⟨by simpa [count] using hlo, hhi⟩
    simp only [aborted_rb, fill_rb, Memory.lookup_writeBytes, upToEnd, if_pos range]
    simp

/-! ### The results' part of the invariant -/

/-- Nothing is reported: a start request and block reset leave the result registers so (45_commands.md R190). -/
structure ResultsCleared (s : State) : Prop where
  pv : s.status.pv = false
  cv : s.status.cv = false
  expChk : s.expChk = 0
  rcvChk : s.rcvChk = 0
  dec : s.dec = .zero

/-- Without DV no decoder runs (44_decoders.md R160). -/
theorem decodeSelected_of_not_dv {s : State} (h : s.status.dv = false) : decodeSelected s = s.dec := by
  simp [decodeSelected, h]

/-- Cleared registers are the results before the VAL step, and those of a request without a response. -/
theorem ResultInv.of_cleared {s : State} (cleared : ResultsCleared s)
    (unread : s.ph.beforeVerdict = true ∨ s.respLen = 0) : ResultInv s where
  unread _ := ⟨cleared.pv, cleared.cv, cleared.expChk, cleared.rcvChk⟩
  verdict after response := by
    rcases unread with before | noResponse
    · simp [before] at after
    · simp [noResponse] at response
  undecoded _ := cleared.dec
  decoded _ := by rw [decodeSelected_of_not_dv (by simp [Status.dv, cleared.pv]), cleared.dec]

theorem ResultInv.cleared {s : State} (hr : ResultInv s) (before : s.ph.beforeVerdict = true) : ResultsCleared s := by
  obtain ⟨pv, cv, expChk, rcvChk⟩ := hr.unread (.inl before)
  have undecoded : s.ph.beforeDecoding = true := by
    cases hp : s.ph <;> simp_all [Phase.beforeVerdict, Phase.beforeDecoding]
  exact ⟨pv, cv, expChk, rcvChk, hr.undecoded undecoded⟩

/-! ### Block reset -/

/-- The reset values meet the invariant, whatever the parameters and RB's free values are (10_state.md R54). -/
theorem machineInv_reset (p : Params) (epoch : Nat) :
    MachineInv { State.reset with params := p, rbEpoch := epoch } where
  control := by constructor <;> simp [Status.zero, respLenOf, frameOf, payLenOf, Command.ofCode]
  receiver := ReceiverInv.of_noResponse (.inr rfl) rfl p.maxWait.positive rfl rfl
  result := ResultInv.of_cleared (by constructor <;> rfl) (.inr rfl)

/-- Settles O2: the reset state is one of the states block reset leaves. -/
theorem resetMeetsTheInvariant : Obligations.ResetMeetsTheInvariant :=
  machineInv_reset Config.params 0

theorem machineInv_blockReset (s : State) : MachineInv s.blockReset :=
  MachineInv.congr (by constructor <;> rfl) (machineInv_reset s.params (s.rbEpoch + 1))

/-! ### What the host does -/

theorem machineInv_acceptStart {s : State} (hi : MachineInv s) (c : Command) (a1 a2 a3 a4 : Byte) :
    MachineInv (acceptStart c a1 a2 a3 a4 s) where
  control := controlInv_acceptStart c a1 a2 a3 a4 s
  receiver := ReceiverInv.of_sending (.inl rfl) hi.receiver.rb s.params.maxWait.positive rfl
  result := ResultInv.of_cleared (by constructor <;> rfl) (.inl rfl)

theorem machineInv_illegalStart {c : Byte} {s : State} (hi : MachineInv s) (idle : s.ph = .idle)
    (illegal : Command.ofCode c = none) : MachineInv (illegalStart c s) where
  control := controlInv_illegalStart hi.control idle illegal
  receiver := ReceiverInv.of_noResponse (.inr idle) hi.receiver.rb hi.receiver.wcnt rfl rfl
  result := ResultInv.of_cleared (by constructor <;> rfl) (.inr rfl)

theorem exec_keeps_machineInv {i : Instr} {s t : State} (hi : MachineInv s) (h : exec i s = .next t) :
    MachineInv t := by
  obtain rfl | ⟨_, _, c, a1, a2, a3, a4, rfl⟩ | ⟨_, idle, illegal, rfl⟩ | ⟨_, _, _, rfl⟩ | ⟨_, _, rfl⟩ :=
    exec_cases h
  · exact hi
  · exact machineInv_acceptStart hi c a1 a2 a3 a4
  · exact machineInv_illegalStart hi idle illegal
  · exact hi.congr (by constructor <;> simp)
  · exact hi.congr (by constructor <;> rfl)

/-! ### What the engine does -/

/-- Two states with the same registers, but for RX_COUNT: what a step before the VAL step leaves alone. -/
structure SameRegisters (s t : State) : Prop where
  status : t.status = s.status
  lcmd : t.lcmd = s.lcmd
  expChk : t.expChk = s.expChk
  rcvChk : t.rcvChk = s.rcvChk
  respLen : t.respLen = s.respLen
  payLen : t.payLen = s.payLen
  frame : t.frame = s.frame
  dec : t.dec = s.dec

theorem SameRegisters.sameRequest {s t : State} (same : SameRegisters s t) : SameRequest s t := by
  obtain ⟨status, lcmd, _, _, respLen, payLen, frame, _⟩ := same
  constructor <;> simp only [status, lcmd, respLen, payLen, frame]

theorem ResultsCleared.congr {s t : State} (same : SameRegisters s t) (hs : ResultsCleared s) :
    ResultsCleared t where
  pv := by rw [same.status, hs.pv]
  cv := by rw [same.status, hs.cv]
  expChk := same.expChk.trans hs.expChk
  rcvChk := same.rcvChk.trans hs.rcvChk
  dec := same.dec.trans hs.dec

/-- A step before the VAL step keeps the registers, so what is left to show is where it goes and what it receives. -/
theorem MachineInv.before_verdict {s t : State} (hi : MachineInv s) (same : SameRegisters s t)
    (before : s.ph.beforeVerdict = true) (after : t.ph.beforeVerdict = true ∨ (t.ph = .cfgOut ∧ t.respLen = 0))
    (txi : t.txi.toNat ≤ 6) (receiver : ReceiverInv t) : MachineInv t where
  control := by
    have sBusy : s.ph ≠ .idle := fun idle => by rw [idle] at before; cases before
    have tBusy : t.ph ≠ .idle := fun idle => by rcases after with h | ⟨h, -⟩ <;> rw [idle] at h <;> cases h
    exact hi.control.in_transaction same.sameRequest sBusy tBusy txi
  receiver := receiver
  result := ResultInv.of_cleared ((hi.result.cleared before).congr same) (after.imp_right And.right)

theorem machineInv_cfgIn {s : State} (hi : MachineInv s) (ph : s.ph = .cfgIn) (e : Event) :
    MachineInv ((s.emit e).enter .tx) := by
  have receiver : ReceiverInv ((s.emit e).enter .tx) :=
    ReceiverInv.of_sending (.inr rfl) hi.receiver.rb hi.receiver.wcnt (hi.receiver.countZero (.inl ph))
  have before : s.ph.beforeVerdict = true := by rw [ph]; rfl
  exact hi.before_verdict (by constructor <;> rfl) before (.inl rfl) hi.control.txi receiver

/-- A TX step stays in TX, or ends it towards CFG_OUT or towards reception (45_commands.md R192). -/
theorem txStep_keeps_machineInv {s t : State} (hi : MachineInv s) (ph : s.ph = .tx) (h : txStep s = .next t) :
    MachineInv t := by
  have count := hi.receiver.countZero (.inr ph)
  have before : s.ph.beforeVerdict = true := by rw [ph]; rfl
  obtain ⟨b, -, ⟨more, rfl⟩ | ⟨-, noResponse, rfl⟩ | ⟨-, response, rfl⟩⟩ := txStep_cases h
  · have receiver : ReceiverInv (s.emit (.tx b)).nextByte :=
      ReceiverInv.of_sending (.inr ph) hi.receiver.rb hi.receiver.wcnt count
    have txi : (s.txi + 1).toNat ≤ 6 := by
      have add : (s.txi + 1).toNat = (s.txi.toNat + 1) % 8 := BitVec.toNat_add s.txi 1
      omega
    exact hi.before_verdict (by constructor <;> rfl) before (.inl before) txi receiver
  · have receiver : ReceiverInv ((s.emit (.tx b)).enter .cfgOut) :=
      ReceiverInv.of_noResponse (.inl rfl) hi.receiver.rb hi.receiver.wcnt count noResponse
    exact hi.before_verdict (by constructor <;> rfl) before (.inr ⟨rfl, noResponse⟩) hi.control.txi receiver
  · have position : 0 < s.respLen.toNat := Nat.pos_of_ne_zero fun zero => response (BitVec.eq_of_toNat_eq zero)
    have receiver : ReceiverInv (s.emit (.tx b)).enterReception :=
      ReceiverInv.of_receiving rfl hi.receiver.rb s.params.maxWait.positive position rfl
        fun i hi => absurd hi (Nat.not_lt_zero i)
    exact hi.before_verdict (by constructor <;> rfl) before (.inl rfl) hi.control.txi receiver

/-- The environment's answer is outside the invariant. -/
theorem machineInv_heard {s : State} (hi : MachineInv s) : MachineInv s.heard :=
  hi.congr (by constructor <;> simp)

theorem machineInv_missed {s : State} (hi : MachineInv s) (rx : s.ph = .rx)
    (notLast : s.wcnt + 1 ≠ s.params.maxWait.polls) : MachineInv s.missed := by
  obtain ⟨position, count⟩ := hi.receiver.position rx
  have wcnt : s.wcnt + 1 < s.params.maxWait.polls := Nat.lt_of_le_of_ne hi.receiver.wcnt notLast
  have receiver : ReceiverInv s.missed :=
    ReceiverInv.of_receiving rx hi.receiver.rb wcnt position count (hi.receiver.stored rx)
  have before : s.ph.beforeVerdict = true := by rw [rx]; rfl
  exact hi.before_verdict (by constructor <;> rfl) before (.inl before) hi.control.txi receiver

theorem rxStore_keeps_machineInv {b : Byte} {s t : State} (hi : MachineInv s) (rx : s.ph = .rx)
    (h : rxStore b s = .next t) : MachineInv t := by
  obtain ⟨-, rfl⟩ := rxStore_next h
  have before : s.ph.beforeVerdict = true := by rw [rx]; rfl
  have after : (s.fill s.rxi.toNat [b]).stored.ph.beforeVerdict = true := by
    rw [stored_ph]
    split
    · rfl
    · exact before
  exact hi.before_verdict (by constructor <;> rfl) before (.inl after) hi.control.txi
    (receiverInv_stored hi.receiver rx hi.respLen_le b)

theorem rxAbort_keeps_machineInv {s t : State} (hi : MachineInv s) (rx : s.ph = .rx)
    (h : rxAbort s = .next t) : MachineInv t := by
  obtain ⟨-, rfl⟩ := rxAbort_next h
  have before : s.ph.beforeVerdict = true := by rw [rx]; rfl
  exact hi.before_verdict (by constructor <;> rfl) before (.inl rfl) hi.control.txi
    (receiverInv_aborted hi.receiver rx hi.respLen_le)

/-- An abort clears e.WCNT, so it forgets the miss that timed out (42_receiver.md R122, R126). -/
theorem rxAbort_of_missed {s t : State} (h : rxAbort s.missed = .next t) : rxAbort s = .next t := by
  obtain ⟨inside, rfl⟩ := rxAbort_next h
  exact rxAbort_eq s inside

theorem rxStep_keeps_machineInv {s t : State} (hi : MachineInv s) (rx : s.ph = .rx) (h : rxStep s = .next t) :
    MachineInv t := by
  have heard := machineInv_heard hi
  have heardRx : s.heard.ph = .rx := by rw [heard_ph, rx]
  obtain ⟨-, ⟨-, notLast, rfl⟩ | ⟨-, -, timeout⟩ | ⟨b, -, stored⟩ | ⟨-, noData⟩⟩ := rxStep_cases h
  · exact machineInv_missed heard heardRx (by simpa using notLast)
  · exact rxAbort_keeps_machineInv heard heardRx (rxAbort_of_missed timeout)
  · exact rxStore_keeps_machineInv heard heardRx stored
  · exact rxAbort_keeps_machineInv heard heardRx noData

/-- The VAL step puts the validator's verdict where DEC and the host find it (43_validator.md R145). -/
theorem valStep_keeps_machineInv {s t : State} (hi : MachineInv s) (ph : s.ph = .val) (h : valStep s = .next t) :
    MachineInv t := by
  obtain ⟨atLeast, -, -, rfl⟩ := valStep_cases h
  have response : 0 < s.respLen.toNat := by omega
  have nonzero : s.respLen ≠ 0 := fun zero => by simp [zero] at response
  constructor
  · exact hi.control.in_transaction (by constructor <;> rfl) (by simp [ph]) (by simp) hi.control.txi
  · exact hi.receiver.after_reception (by rw [ph]; rfl) rfl (fun _ => response) rfl rfl rfl rfl rfl
  · exact {
      unread := fun h => by
        rcases h with before | zero
        · cases before
        · exact absurd zero nonzero
      verdict := fun _ _ => rfl
      undecoded := fun _ => hi.result.undecoded (by rw [ph]; rfl)
      decoded := fun h => by cases h }

/-- The DEC step starts from cleared decoder registers, so it leaves what the decoder gives from zeros (R173). -/
theorem decStep_keeps_machineInv {s t : State} (hi : MachineInv s) (ph : s.ph = .dec) (h : decStep s = .next t) :
    MachineInv t := by
  injection h with h
  subst h
  have response := hi.receiver.response (.inr ph)
  constructor
  · exact hi.control.in_transaction (by constructor <;> rfl) (by simp [ph]) (by simp) hi.control.txi
  · exact hi.receiver.after_reception (by rw [ph]; rfl) rfl (fun _ => response) rfl rfl rfl rfl rfl
  · exact {
      unread := fun h => by
        rcases h with before | zero
        · cases before
        · exact hi.result.unread (.inr zero)
      verdict := fun _ => hi.result.verdict (by rw [ph]; rfl)
      undecoded := fun h => by cases h
      decoded := fun _ => decodeSelected_congr rfl rfl rfl rfl (hi.result.undecoded (by rw [ph]; rfl)) }

theorem machineInv_finish {s : State} (hi : MachineInv s) (ph : s.ph = .cfgOut) : MachineInv s.finish where
  control := controlInv_finish hi.control (by simp [ph])
  receiver := hi.receiver.after_reception (by rw [ph]; rfl) rfl (by simp) rfl rfl rfl rfl rfl
  result := {
    unread := fun h => by
      rcases h with before | zero
      · cases before
      · exact hi.result.unread (.inr zero)
    verdict := fun _ => hi.result.verdict (by rw [ph]; rfl)
    undecoded := fun h => by cases h
    decoded := fun _ => hi.result.decoded (by rw [ph]; rfl) }

theorem machineInv_emit {s : State} (hi : MachineInv s) (e : Event) : MachineInv (s.emit e) :=
  hi.congr (by constructor <;> rfl)

theorem engineStep_keeps_machineInv {s t : State} (hi : MachineInv s) (h : engineStep s = .next t) :
    MachineInv t := by
  obtain ⟨_, rfl⟩ | ⟨_, ph, rfl⟩ | ⟨_, ph, tx⟩ | ⟨_, ph, rx⟩ | ⟨_, ph, val⟩ | ⟨_, ph, dec⟩ | ⟨_, ph, rfl⟩ :=
    engineStep_cases h
  · exact hi
  · exact machineInv_cfgIn hi ph _
  · exact txStep_keeps_machineInv hi ph tx
  · exact rxStep_keeps_machineInv hi ph rx
  · exact valStep_keeps_machineInv hi ph val
  · exact decStep_keeps_machineInv hi ph dec
  · exact machineInv_finish (machineInv_emit hi _) ph

/-! ### Every step -/

theorem takeTurn_keeps_machineInv {turn : Turn} {s t : State} (hi : MachineInv s) (h : takeTurn turn s = .next t) :
    MachineInv t := by
  cases turn with
  | host w => exact exec_keeps_machineInv hi h
  | engine => exact engineStep_keeps_machineInv hi h
  | assertRst =>
    injection h with h
    rw [← h]
    exact machineInv_blockReset s
  | releaseRst =>
    injection h with h
    rw [← h]
    exact hi.congr (by constructor <;> rfl)

/-- Settles O5: the agenda is outside the invariant, and the engine's step and every turn keep it. -/
theorem everyStepKeepsTheInvariant : Obligations.EveryStepKeepsTheInvariant := by
  intro s t hi h
  obtain ⟨_, engine⟩ | ⟨turn, rest, _, taken⟩ := step_cases s
  · rw [engine] at h
    exact engineStep_keeps_machineInv hi h
  · rw [taken] at h
    exact takeTurn_keeps_machineInv (hi.congr (by constructor <;> rfl)) h

/-! ### The ranges of the decoder registers -/

/-- Which decoder DEC runs: none, or the one of LCMD's code, under DV = 1 (44_decoders.md R160, R161). -/
theorem decodeSelected_cases (s : State) :
    decodeSelected s = s.dec
    ∨ (s.status.dv = true ∧ s.lcmd = 0xF4 ∧ decodeSelected s = decodeHosts s)
    ∨ (s.status.dv = true ∧ s.lcmd = 0xF2 ∧ decodeSelected s = decodeDevSlots s) := by
  cases dv : s.status.dv with
  | false => exact .inl (decodeSelected_of_not_dv dv)
  | true =>
    unfold decodeSelected
    rw [if_pos dv]
    cases code : Command.ofCode s.lcmd with
    | none => exact .inl rfl
    | some c =>
      have lcmd := ofCode_eq_some.1 code
      cases c with
      | reset => exact .inl rfl
      | getSsid => exact .inl rfl
      | getHosts => exact .inr (.inl ⟨rfl, lcmd, rfl⟩)
      | getDevSlots => exact .inr (.inr ⟨rfl, lcmd, rfl⟩)

/-- The decoder registers hold zeros, or what their own decoder gives from zeros (44_decoders.md R173). -/
theorem MachineInv.dec_cases {s : State} (hi : MachineInv s) :
    s.dec = .zero
    ∨ (s.status.dv = true ∧ s.lcmd = 0xF4 ∧ s.dec = decodeHosts { s with dec := .zero })
    ∨ (s.status.dv = true ∧ s.lcmd = 0xF2 ∧ s.dec = decodeDevSlots { s with dec := .zero }) := by
  cases stage : s.ph.beforeDecoding with
  | true => exact .inl (hi.result.undecoded stage)
  | false =>
    rw [hi.result.decoded stage]
    exact decodeSelected_cases { s with dec := .zero }

@[simp] theorem lanesZero_get (k : Fin 8) : Lanes.zero.get k = 0 := slotLanes_get (fun _ => 0) k

/-- A length register never exceeds its field (44_decoders.md R165, R169). -/
theorem nulLength_byte_le {bs : List Byte} {n : Nat} (length : bs.length = n) :
    (BitVec.ofNat 8 (nulLength bs)).toNat ≤ n :=
  calc (BitVec.ofNat 8 (nulLength bs)).toNat
      = nulLength bs % 2 ^ 8 := BitVec.toNat_ofNat _ _
    _ ≤ nulLength bs := Nat.mod_le _ _
    _ ≤ n := length ▸ nulLength_le bs

/-- A filename of zeros ends at once (44_decoders.md R169, R170). -/
theorem nulLength_of_filenameEmpty {f : List Byte} (h : filenameEmpty f = true) : nulLength f = 0 := by
  cases f with
  | nil => rfl
  | cons b bs =>
    have zero : b = 0x00 := by
      rw [filenameEmpty, List.all_cons, Bool.and_eq_true] at h
      exact eq_of_beq h.1
    rw [nulLength, if_pos zero]

/-- What holds of decoder registers beside their command: lengths inside their fields, and an empty filename has
length 0 (10_state.md R47, R50, R51). -/
structure DecoderRegs.InRange (d : DecoderRegs) : Prop where
  lengths : ∀ k, (d.hostNlen.get k).toNat ≤ 32 ∧ (d.devFlen.get k).toNat ≤ 36
  empty : ∀ k : Fin 8, d.devEmpty.getLsbD k.val = true → d.devFlen.get k = 0

theorem inRange_zero : DecoderRegs.zero.InRange where
  lengths k := by simp [DecoderRegs.zero]
  empty k _ := lanesZero_get k

theorem inRange_decodeHosts {s : State} (hd : s.dec.InRange) : (decodeHosts s).InRange where
  lengths k := by
    refine ⟨?_, (hd.lengths k).2⟩
    simp only [decodeHosts, slotLanes_get]
    exact nulLength_byte_le (hostSlot_length s k)
  empty := hd.empty

theorem inRange_decodeDevSlots {s : State} (hd : s.dec.InRange) : (decodeDevSlots s).InRange where
  lengths k := by
    refine ⟨(hd.lengths k).1, ?_⟩
    simp only [decodeDevSlots, slotLanes_get]
    exact nulLength_byte_le (devFilename_length s k)
  empty k h := by
    simp only [decodeDevSlots, slotMask_getLsbD] at h
    simp only [decodeDevSlots, slotLanes_get, nulLength_of_filenameEmpty h]
    rfl

theorem MachineInv.dec_inRange {s : State} (hi : MachineInv s) : s.dec.InRange := by
  obtain zero | ⟨-, -, hosts⟩ | ⟨-, -, devSlots⟩ := hi.dec_cases
  · rw [zero]
    exact inRange_zero
  · rw [hosts]
    exact inRange_decodeHosts inRange_zero
  · rw [devSlots]
    exact inRange_decodeDevSlots inRange_zero

/-- Settles O9: the decoder registers hold zeros or what their own decoder gives from zeros. -/
theorem decoderRegistersKeepTheirRanges : Obligations.DecoderRegistersKeepTheirRanges := by
  intro s hi
  have inRange := hi.dec_inRange
  refine ⟨fun other => ?_, fun other => ?_, inRange.lengths, inRange.empty⟩
  · obtain zero | ⟨dv, lcmd, -⟩ | ⟨-, -, devSlots⟩ := hi.dec_cases
    · rw [zero]
      exact ⟨rfl, rfl⟩
    · simp [dv, lcmd] at other
    · rw [devSlots]
      exact ⟨rfl, rfl⟩
  · obtain zero | ⟨-, -, hosts⟩ | ⟨dv, lcmd, -⟩ := hi.dec_cases
    · rw [zero]
      exact ⟨rfl, rfl, rfl, rfl⟩
    · rw [hosts]
      exact ⟨rfl, rfl, rfl, rfl⟩
    · simp [dv, lcmd] at other

/-! ### What the host reads after block reset -/

@[simp] theorem frameZero_get (k : Fin 7) : Frame.zero.get k = 0 := by
  match k with
  | 0 | 1 | 2 | 3 | 4 | 5 | 6 => rfl

theorem readRegister_reset (r : Reg) : State.reset.readRegister r = 0 := by
  cases r with
  | frame k => simp [State.readRegister, zext16]
  | hostNlen k => simp [State.readRegister, DecoderRegs.zero, zext16]
  | devHost k => simp [State.readRegister, DecoderRegs.zero, zext16]
  | devMode k => simp [State.readRegister, DecoderRegs.zero, zext16]
  | devFlen k => simp [State.readRegister, DecoderRegs.zero, zext16]
  | _ => rfl

/-- Without a response the read window is empty, so RDB shows no byte of RB (20_memory.md R61). -/
theorem readWindow_of_noResponse {s : State} (h : s.respLen = 0) (i : Half) : s.readWindow i = some 0 := by
  simp [State.readWindow, h]

/-- Settles O1: every register reads 0, no byte of RB is listed, and the read window is empty. -/
theorem resetHoldsTheSpecsValues : Obligations.ResetHoldsTheSpecsValues :=
  ⟨fun n => readRegister_reset (Reg.ofNumber n), rfl, rfl, rfl, rfl, fun _ => rfl, readWindow_of_noResponse rfl⟩

/-! ### STATUS -/

/-- The bits of STATUS from bit 0 on (10_state.md R24). -/
def Status.bits (st : Status) : List Bool :=
  [st.busy, st.done, st.pv, st.cv, st.dv, st.ill, st.rsp, false]

theorem statusByte_eq_slotMask (st : Status) : st.byte = slotMask (st.bits.getD · false) := rfl

theorem statusByte_getLsbD (st : Status) (k : Fin 8) : st.byte.getLsbD k.val = st.bits.getD k.val false := by
  rw [statusByte_eq_slotMask, slotMask_getLsbD]

/-- Settles O31: STATUS is the mask of its eight bits. -/
theorem statusBitsStandWhereTheSpecSays : Obligations.StatusBitsStandWhereTheSpecSays := by
  intro st
  have bit := statusByte_getLsbD st
  exact ⟨bit 0, bit 1, bit 2, bit 3, bit 4, bit 5, bit 6, bit 7⟩

end Sys2Proof.Machine

namespace Sys2Proof.Machine

/-! ### Turns and runs -/

theorem step_of_noTurn {s : State} (h : s.agenda = []) : step s = engineStep s := by
  simp [step, nextTurn, h]

theorem step_of_turn {s : State} {turn : Turn} {rest : List Turn} (h : s.agenda = turn :: rest) :
    step s = takeTurn turn (s.withAgenda rest) := by
  simp [step, nextTurn, h]

/-- Settles O15: a host word's turn runs what the word decodes to. -/
theorem stepRunsTheNextHostWord : Obligations.StepRunsTheNextHostWord := by
  intro s w rest i turn decoded
  injection decoded with decoded
  rw [step_of_turn turn, ← decoded]
  rfl

/-- Settles O18: the turns that are no host word. -/
theorem stepTakesTheEnginesTurn : Obligations.StepTakesTheEnginesTurn :=
  fun _ => ⟨step_of_noTurn, fun _ engine => step_of_turn engine, fun _ release => step_of_turn release⟩

theorem run_of_step {s t : State} (h : step s = .next t) (k : Nat) :
    Sys2Proof.core.run (k + 1) s = Sys2Proof.core.run k t := by
  simp [Host.Core.run, Sys2Proof.core, h]

theorem run_add {s t : State} {j : Nat} (first : Sys2Proof.core.run j s = .next t) (k : Nat) :
    Sys2Proof.core.run (j + k) s = Sys2Proof.core.run k t := by
  induction j generalizing s with
  | zero =>
    injection first with first
    rw [← first, Nat.zero_add]
  | succ j ih =>
    rw [Nat.succ_add]
    cases h : step s with
    | next u =>
      rw [run_of_step h] at first ⊢
      exact ih first
    | fault r => simp [Host.Core.run, Sys2Proof.core, h] at first
    | refused r => simp [Host.Core.run, Sys2Proof.core, h] at first

/-! ### The host's operations: what they read and what they leave alone -/

/-- RDB(i) for a RESP_LEN inside RB (20_memory.md R61). -/
theorem readWindow_eq {s : State} (inside : s.respLen.toNat ≤ rbSize) (i : Half) :
    s.readWindow i = some (if i.toNat < s.respLen.toNat then s.rbByte i.toNat else 0) := by
  unfold State.readWindow
  split
  · rw [if_pos (by omega)]
  · rfl

theorem exec_rdb {s : State} (released : s.rst = false) (inside : s.respLen.toNat ≤ rbSize) (i : Half) :
    exec (.rdb i) s
      = .next (s.deliver (zext16 (if i.toNat < s.respLen.toNat then s.rbByte i.toNat else 0))) := by
  simp [exec, execRdb, released, readWindow_eq inside]

/-- Settles O32: RDB delivers the byte of the read window. -/
theorem bufferReadIsBoundedByTheWindow : Obligations.BufferReadIsBoundedByTheWindow := by
  intro s i released inside
  rw [exec_rdb released inside]
  split <;> rfl

/-- Settles O33: a RESP_LEN that a run reaches lies inside RB, so the window's bytes exist. -/
theorem bufferReadNeverStopsUnderTheInvariant : Obligations.BufferReadNeverStopsUnderTheInvariant := by
  intro s i hi
  cases level : s.rst with
  | true => exact ⟨s, whileReleased_asserted _ _ level, rfl⟩
  | false => exact ⟨_, exec_rdb level hi.respLen_le i, rfl⟩

/-- Two states with the same command registers. -/
structure SameCommandRegisters (s t : State) : Prop where
  cmd : t.cmd = s.cmd
  arg1 : t.arg1 = s.arg1
  arg2 : t.arg2 = s.arg2
  arg3 : t.arg3 = s.arg3
  arg4 : t.arg4 = s.arg4

theorem SameCommandRegisters.refl (s : State) : SameCommandRegisters s s := by constructor <;> rfl

theorem deliver_commandRegisters (s : State) (v : Half) : SameCommandRegisters s (s.deliver v) := by
  constructor <;> rfl

/-- A command word is its start request (log entry 1). -/
theorem exec_command (c : Command) (a1 a2 a3 a4 : Byte) (s : State) :
    exec (c.instr a1 a2 a3 a4) s = whileReleased s (whenIdle s (acceptStart c a1 a2 a3 a4 s)) := by
  cases c <;> rfl

theorem exec_command_commandRegisters {c : Command} {a1 a2 a3 a4 : Byte} {s t : State}
    (h : exec (c.instr a1 a2 a3 a4) s = .next t) : SameCommandRegisters s t := by
  rw [exec_command] at h
  obtain ⟨_, rfl⟩ | ⟨_, h⟩ := whileReleased_cases h
  · exact .refl t
  · obtain ⟨_, rfl⟩ | ⟨_, rfl⟩ := whenIdle_cases h <;> constructor <;> rfl

theorem startRequest_commandRegisters {s t : State} (h : startRequest s = .next t) : SameCommandRegisters s t := by
  obtain rfl | ⟨_, _, _, rfl⟩ | ⟨_, _, rfl⟩ := startRequest_cases h <;> constructor <;> rfl

/-- Only a WR writes a command register, and then the one it names (45_commands.md R181). -/
theorem exec_commandRegisters {i : Instr} {s t : State} (h : exec i s = .next t) :
    SameCommandRegisters s t ∨ ∃ r v, i = .wr r v ∧ t = s.storeRegister r v := by
  cases i with
  | reset => exact .inl (exec_command_commandRegisters (c := .reset) h)
  | getSsid => exact .inl (exec_command_commandRegisters (c := .getSsid) h)
  | getHosts => exact .inl (exec_command_commandRegisters (c := .getHosts) h)
  | getDevSlots => exact .inl (exec_command_commandRegisters (c := .getDevSlots) h)
  | wr r v =>
    obtain ⟨_, rfl⟩ | ⟨_, h⟩ := whileReleased_cases h
    · exact .inl (.refl t)
    · split at h
      · exact .inl (startRequest_commandRegisters h)
      · injection h with h
        exact .inr ⟨r, v, rfl, h.symm⟩
  | rd r =>
    obtain ⟨_, rfl⟩ | ⟨_, h⟩ := whileReleased_cases h
    · exact .inl (.refl t)
    · injection h with h
      exact .inl (h ▸ deliver_commandRegisters s _)
  | rdb i =>
    obtain ⟨_, rfl⟩ | ⟨_, h⟩ := whileReleased_cases h
    · exact .inl (.refl t)
    · split at h
      · injection h with h
        exact .inl (h ▸ deliver_commandRegisters s _)
      · cases h
  | nop =>
    obtain ⟨_, rfl⟩ | ⟨_, h⟩ := whileReleased_cases h
    · exact .inl (.refl t)
    · injection h with h
      exact .inl (h ▸ .refl s)

/-- What no instruction writes: the events, the buffer, and what stands outside the UPE (20_memory.md R68). -/
structure SameEnvironment (s t : State) : Prop where
  trace : t.trace = s.trace
  rb : t.rb = s.rb
  answers : t.answers = s.answers
  draws : t.draws = s.draws
  params : t.params = s.params
  agenda : t.agenda = s.agenda
  rst : t.rst = s.rst
  rbEpoch : t.rbEpoch = s.rbEpoch

theorem exec_environment {i : Instr} {s t : State} (h : exec i s = .next t) : SameEnvironment s t := by
  obtain rfl | ⟨_, _, _, _, _, _, _, rfl⟩ | ⟨_, _, _, rfl⟩ | ⟨_, _, _, rfl⟩ | ⟨_, _, rfl⟩ := exec_cases h <;>
    constructor <;> simp

/-- Settles O35: no instruction writes the environment, and a command register is written by its own WR only. -/
theorem hostOperationsEmitNothingAndKeepTheBuffer : Obligations.HostOperationsEmitNothingAndKeepTheBuffer := by
  intro i s t h
  obtain ⟨trace, rb, answers, draws, params, agenda, rst, rbEpoch⟩ := exec_environment h
  refine ⟨trace, rbByte_congr rb rbEpoch, rb, answers, draws, params, agenda, rst, rbEpoch, ?_⟩
  obtain ⟨cmd, arg1, arg2, arg3, arg4⟩ | ⟨r, v, rfl, rfl⟩ := exec_commandRegisters h
  · exact ⟨.inl cmd, .inl arg1, .inl arg2, .inl arg3, .inl arg4⟩
  · have written : ∀ named, r ≠ named ∨ ∃ u, Instr.wr r v = .wr named u := fun named => by
      by_cases same : r = named
      · exact .inr ⟨v, by rw [same]⟩
      · exact .inl same
    refine ⟨(written .cmd).imp_left ?_, (written .arg1).imp_left ?_, (written .arg2).imp_left ?_,
      (written .arg3).imp_left ?_, (written .arg4).imp_left ?_⟩ <;> intro other <;> simp [other]

end Sys2Proof.Machine

namespace Sys2Proof.Machine

/-! ### No step stops under the invariant -/

theorem whenIdle_next (s t : State) : ∃ u, whenIdle s t = .next u := by
  by_cases idle : s.ph = .idle
  · exact ⟨t, whenIdle_idle s t idle⟩
  · exact ⟨s, whenIdle_busy s t idle⟩

theorem whileReleased_next {s : State} {out : Host.Outcome State Fault Refusal} (h : ∃ t, out = .next t) :
    ∃ t, whileReleased s out = .next t := by
  cases level : s.rst with
  | true => exact ⟨s, whileReleased_asserted s out level⟩
  | false =>
    rw [whileReleased_released s out level]
    exact h

theorem exec_command_next (c : Command) (a1 a2 a3 a4 : Byte) (s : State) :
    ∃ t, exec (c.instr a1 a2 a3 a4) s = .next t := by
  rw [exec_command]
  exact whileReleased_next (whenIdle_next _ _)

/-- No instruction stops while RESP_LEN lies inside RB: RDB alone could (log entry 9). -/
theorem exec_next {s : State} (inside : s.respLen.toNat ≤ rbSize) (i : Instr) : ∃ t, exec i s = .next t := by
  cases i with
  | reset a1 a2 a3 a4 => exact exec_command_next .reset a1 a2 a3 a4 s
  | getSsid a1 a2 a3 a4 => exact exec_command_next .getSsid a1 a2 a3 a4 s
  | getHosts a1 a2 a3 a4 => exact exec_command_next .getHosts a1 a2 a3 a4 s
  | getDevSlots a1 a2 a3 a4 => exact exec_command_next .getDevSlots a1 a2 a3 a4 s
  | wr r v =>
    refine whileReleased_next ?_
    split
    · exact startRequest_next s
    · exact ⟨_, rfl⟩
  | rd r => exact whileReleased_next ⟨_, rfl⟩
  | rdb i =>
    refine whileReleased_next ?_
    rw [readWindow_eq inside]
    exact ⟨_, rfl⟩
  | nop => exact whileReleased_next ⟨_, rfl⟩

/-- The TX step with its byte (45_commands.md R192). -/
theorem txStep_eq {s : State} {b : Byte} (h : s.frame.byteAt s.txi = some b) :
    txStep s = .next
      (if s.txi.toNat < 6 then (s.emit (.tx b)).nextByte
       else if s.respLen = 0 then (s.emit (.tx b)).enter .cfgOut
       else (s.emit (.tx b)).enterReception) := by
  simp only [txStep, h]
  split
  · rfl
  · split <;> rfl

theorem txStep_more {s : State} {b : Byte} (byte : s.frame.byteAt s.txi = some b) (more : s.txi.toNat < 6) :
    txStep s = .next (s.emit (.tx b)).nextByte := by
  rw [txStep_eq byte, if_pos more]

theorem txStep_toCfgOut {s : State} {b : Byte} (byte : s.frame.byteAt s.txi = some b) (last : 6 ≤ s.txi.toNat)
    (noResponse : s.respLen = 0) : txStep s = .next ((s.emit (.tx b)).enter .cfgOut) := by
  rw [txStep_eq byte, if_neg last.not_gt, if_pos noResponse]

theorem txStep_toReception {s : State} {b : Byte} (byte : s.frame.byteAt s.txi = some b) (last : 6 ≤ s.txi.toNat)
    (response : s.respLen ≠ 0) : txStep s = .next (s.emit (.tx b)).enterReception := by
  rw [txStep_eq byte, if_neg last.not_gt, if_neg response]

/-- The receive step at a position inside the response, by the environment's answer (42_receiver.md R121). -/
theorem rxStep_eq {s : State} (position : s.rxi.toNat < s.respLen.toNat) :
    rxStep s = match s.answer with
      | .notReady => if s.wcnt + 1 = s.params.maxWait.polls then rxAbort s.heard.missed else .next s.heard.missed
      | .ready (.byte b) => rxStore b s.heard
      | .ready .noData => rxAbort s.heard := by
  rw [rxStep, if_pos position]
  cases s.answer with
  | notReady => simp [rxMiss]
  | ready r => cases r <;> rfl

theorem rxStep_next {s : State} (position : s.rxi.toNat < s.respLen.toNat) (inside : s.respLen.toNat ≤ rbSize) :
    ∃ t, rxStep s = .next t := by
  have fills : s.rxi.toNat + (s.respLen.toNat - s.rxi.toNat) ≤ rbSize := by omega
  rw [rxStep_eq position]
  cases s.answer with
  | notReady =>
    by_cases last : s.wcnt + 1 = s.params.maxWait.polls
    · exact ⟨_, (if_pos last).trans (rxAbort_eq _ (by simpa using fills))⟩
    · exact ⟨_, if_neg last⟩
  | ready r =>
    cases r with
    | byte b => exact ⟨_, rxStore_eq b _ (by rw [heard_rxi]; omega)⟩
    | noData => exact ⟨_, rxAbort_eq _ (by simpa using fills)⟩

/-- The VAL step inside the validator's domain (45_commands.md R194; 43_validator.md R140, R149). -/
theorem valStep_eq {s : State} (atLeast : 3 ≤ s.respLen.toNat) (count : s.rxCount.toNat ≤ s.respLen.toNat)
    (inside : s.respLen.toNat ≤ rbSize) :
    valStep s
      = .next ((s.report (validate (s.rbSlice 0 s.respLen.toNat) s.respLen.toNat s.rxCount.toNat)).enter .dec) := by
  have read : s.memRead 0 s.respLen.toNat = some (s.rbSlice 0 s.respLen.toNat) := if_pos (by omega)
  rw [valStep, if_pos ⟨atLeast, count⟩, read]

/-- A response, where one is expected, has at least 100 bytes (30_encoding.md R83). -/
theorem MachineInv.response_long {s : State} (hi : MachineInv s) (response : 0 < s.respLen.toNat) :
    100 ≤ s.respLen.toNat := by
  rw [hi.control.respLen] at response ⊢
  rcases respLenOf_cases s.lcmd with h | h | h | h <;> rw [h] at response ⊢ <;> revert response <;> decide

theorem engineStep_asserted {s : State} (level : s.rst = true) : engineStep s = .next s := by
  rw [engineStep, if_pos level]

/-- The engine's step, named by the phase (45_commands.md R198). -/
theorem engineStep_released {s : State} {p : Phase} (level : s.rst = false) :
    s.ph = p → engineStep s = match p with
      | .idle => .next s
      | .cfgIn => cfgInStep s
      | .tx => txStep s
      | .rx => rxStep s
      | .val => valStep s
      | .dec => decStep s
      | .cfgOut => cfgOutStep s := by
  rintro rfl
  cases ph : s.ph <;> simp [engineStep, level, ph]

theorem engineStep_next {s : State} (hi : MachineInv s) : ∃ t, engineStep s = .next t := by
  cases level : s.rst with
  | true => exact ⟨s, engineStep_asserted level⟩
  | false =>
    cases ph : s.ph <;> rw [engineStep_released level ph]
    case idle => exact ⟨s, rfl⟩
    case cfgIn => exact ⟨_, rfl⟩
    case tx =>
      obtain ⟨b, hb⟩ := byteAt_eq_some s.frame s.txi hi.control.txi
      exact ⟨_, txStep_eq hb⟩
    case rx => exact rxStep_next (hi.receiver.position ph).1 hi.respLen_le
    case val =>
      have long := hi.response_long (hi.receiver.response (.inl ph))
      exact ⟨_, valStep_eq (by omega) hi.receiver.count hi.respLen_le⟩
    case dec => exact ⟨_, rfl⟩
    case cfgOut => exact ⟨_, rfl⟩

theorem takeTurn_next {s : State} (hi : MachineInv s) (turn : Turn) : ∃ t, takeTurn turn s = .next t := by
  cases turn with
  | host w => exact exec_next hi.respLen_le (decodeHostWord w)
  | engine => exact engineStep_next hi
  | assertRst => exact ⟨_, rfl⟩
  | releaseRst => exact ⟨_, rfl⟩

/-- No failure stops the UPE (60_exceptions.md R210). -/
theorem step_next {s : State} (hi : MachineInv s) : ∃ t, step s = .next t := by
  obtain ⟨_, engine⟩ | ⟨turn, rest, _, taken⟩ := step_cases s
  · rw [engine]
    exact engineStep_next hi
  · rw [taken]
    exact takeTurn_next (hi.congr (by constructor <;> rfl)) turn

/-! ### Runs under the invariant -/

theorem run_next {s : State} (hi : MachineInv s) (k : Nat) :
    ∃ t : State, Sys2Proof.core.run k s = .next t ∧ MachineInv t := by
  induction k generalizing s with
  | zero => exact ⟨s, rfl, hi⟩
  | succ k ih =>
    obtain ⟨u, first⟩ := step_next hi
    rw [run_of_step first]
    exact ih (everyStepKeepsTheInvariant s u hi first)

/-- Settles O7: the invariant holds after reset whatever the parameters, agenda and answers are; no step stops under
it, and every step keeps it. -/
theorem everyRunFromResetGoesOn : Obligations.EveryRunFromResetGoesOn := fun p _ _ k =>
  run_next ((machineInv_reset p 0).congr (by constructor <;> rfl)) k

end Sys2Proof.Machine

namespace Sys2Proof.Machine

/-! ### What the engine leaves alone -/

/-- What no engine step writes: the host's inputs and reads, what the start request latched, and the level of `rst`
(20_memory.md R70; 41_encoder.md R111). -/
structure EngineFrame (s t : State) : Prop where
  cmd : t.cmd = s.cmd
  arg1 : t.arg1 = s.arg1
  arg2 : t.arg2 = s.arg2
  arg3 : t.arg3 = s.arg3
  arg4 : t.arg4 = s.arg4
  lcmd : t.lcmd = s.lcmd
  frame : t.frame = s.frame
  respLen : t.respLen = s.respLen
  payLen : t.payLen = s.payLen
  hostReads : t.hostReads = s.hostReads
  rst : t.rst = s.rst
  agenda : t.agenda = s.agenda
  rbEpoch : t.rbEpoch = s.rbEpoch

@[refl] theorem EngineFrame.refl (s : State) : EngineFrame s s := by constructor <;> rfl

theorem EngineFrame.trans {s t u : State} (first : EngineFrame s t) (second : EngineFrame t u) : EngineFrame s u where
  cmd := second.cmd.trans first.cmd
  arg1 := second.arg1.trans first.arg1
  arg2 := second.arg2.trans first.arg2
  arg3 := second.arg3.trans first.arg3
  arg4 := second.arg4.trans first.arg4
  lcmd := second.lcmd.trans first.lcmd
  frame := second.frame.trans first.frame
  respLen := second.respLen.trans first.respLen
  payLen := second.payLen.trans first.payLen
  hostReads := second.hostReads.trans first.hostReads
  rst := second.rst.trans first.rst
  agenda := second.agenda.trans first.agenda
  rbEpoch := second.rbEpoch.trans first.rbEpoch

theorem heard_engineFrame (s : State) : EngineFrame s s.heard := by constructor <;> simp

theorem missed_engineFrame (s : State) : EngineFrame s s.missed := by constructor <;> rfl

theorem rxStore_engineFrame {b : Byte} {s t : State} (h : rxStore b s = .next t) : EngineFrame s t := by
  obtain ⟨_, rfl⟩ := rxStore_next h
  constructor <;> rfl

theorem rxAbort_engineFrame {s t : State} (h : rxAbort s = .next t) : EngineFrame s t := by
  obtain ⟨_, rfl⟩ := rxAbort_next h
  constructor <;> rfl

theorem rxStep_engineFrame {s t : State} (h : rxStep s = .next t) : EngineFrame s t := by
  obtain ⟨_, ⟨_, _, rfl⟩ | ⟨_, _, timeout⟩ | ⟨_, _, stored⟩ | ⟨_, noData⟩⟩ := rxStep_cases h
  · exact (heard_engineFrame s).trans (missed_engineFrame s.heard)
  · exact (heard_engineFrame s).trans ((missed_engineFrame s.heard).trans (rxAbort_engineFrame timeout))
  · exact (heard_engineFrame s).trans (rxStore_engineFrame stored)
  · exact (heard_engineFrame s).trans (rxAbort_engineFrame noData)

theorem txStep_engineFrame {s t : State} (h : txStep s = .next t) : EngineFrame s t := by
  obtain ⟨_, _, ⟨_, rfl⟩ | ⟨_, _, rfl⟩ | ⟨_, _, rfl⟩⟩ := txStep_cases h <;> constructor <;> rfl

theorem valStep_engineFrame {s t : State} (h : valStep s = .next t) : EngineFrame s t := by
  obtain ⟨_, _, _, rfl⟩ := valStep_cases h
  constructor <;> rfl

theorem decStep_engineFrame {s t : State} (h : decStep s = .next t) : EngineFrame s t := by
  injection h with h
  subst h
  constructor <;> rfl

theorem engineStep_engineFrame {s t : State} (h : engineStep s = .next t) : EngineFrame s t := by
  obtain ⟨_, rfl⟩ | ⟨_, _, rfl⟩ | ⟨_, _, tx⟩ | ⟨_, _, rx⟩ | ⟨_, _, val⟩ | ⟨_, _, dec⟩ | ⟨_, _, rfl⟩ :=
    engineStep_cases h
  · rfl
  · constructor <;> rfl
  · exact txStep_engineFrame tx
  · exact rxStep_engineFrame rx
  · exact valStep_engineFrame val
  · exact decStep_engineFrame dec
  · constructor <;> rfl

/-- Settles O47: every engine step keeps the frame. -/
theorem engineKeepsTheHostsRegisters : Obligations.EngineKeepsTheHostsRegisters := by
  intro s t h
  obtain ⟨cmd, arg1, arg2, arg3, arg4, lcmd, frame, respLen, payLen, hostReads, rst, agenda, rbEpoch⟩ :=
    engineStep_engineFrame h
  exact ⟨cmd, arg1, arg2, arg3, arg4, lcmd, frame, respLen, payLen, hostReads, rst, agenda, rbEpoch⟩

/-! ### A host write commutes with every engine operation -/

section
variable (s : State) (r : Reg) (v : Half)

@[simp] theorem emit_storeRegister (e : Event) : (s.storeRegister r v).emit e = (s.emit e).storeRegister r v := by
  cases r <;> rfl

@[simp] theorem enter_storeRegister (p : Phase) : (s.storeRegister r v).enter p = (s.enter p).storeRegister r v := by
  cases r <;> rfl

@[simp] theorem nextByte_storeRegister : (s.storeRegister r v).nextByte = s.nextByte.storeRegister r v := by
  cases r <;> rfl

@[simp] theorem enterReception_storeRegister :
    (s.storeRegister r v).enterReception = s.enterReception.storeRegister r v := by
  cases r <;> rfl

@[simp] theorem answer_storeRegister : (s.storeRegister r v).answer = s.answer := by
  cases r <;> rfl

@[simp] theorem heard_storeRegister : (s.storeRegister r v).heard = s.heard.storeRegister r v := by
  ext1 <;> simp

@[simp] theorem missed_storeRegister : (s.storeRegister r v).missed = s.missed.storeRegister r v := by
  cases r <;> rfl

@[simp] theorem fill_storeRegister (a : Nat) (bs : List Byte) :
    (s.storeRegister r v).fill a bs = (s.fill a bs).storeRegister r v := by
  cases r <;> rfl

@[simp] theorem stored_storeRegister : (s.storeRegister r v).stored = s.stored.storeRegister r v := by
  cases r <;> rfl

@[simp] theorem aborted_storeRegister : (s.storeRegister r v).aborted = s.aborted.storeRegister r v := by
  cases r <;> rfl

@[simp] theorem report_storeRegister (w : Verdict) :
    (s.storeRegister r v).report w = (s.report w).storeRegister r v := by
  cases r <;> rfl

@[simp] theorem finish_storeRegister : (s.storeRegister r v).finish = s.finish.storeRegister r v := by
  cases r <;> rfl

@[simp] theorem memRead_storeRegister (a n : Nat) : (s.storeRegister r v).memRead a n = s.memRead a n := by
  cases r <;> rfl

@[simp] theorem memWrite_storeRegister (a : Nat) (bs : List Byte) :
    (s.storeRegister r v).memWrite a bs = (s.memWrite a bs).map (·.storeRegister r v) := by
  unfold State.memWrite
  split <;> simp

theorem rxStore_storeRegister (b : Byte) :
    rxStore b (s.storeRegister r v) = mapNext (·.storeRegister r v) (rxStore b s) := by
  cases written : s.memWrite s.rxi.toNat [b] <;> simp [rxStore, written, mapNext]

theorem rxAbort_storeRegister : rxAbort (s.storeRegister r v) = mapNext (·.storeRegister r v) (rxAbort s) := by
  simp only [rxAbort, storeRegister_rxi, storeRegister_respLen, memWrite_storeRegister]
  cases s.memWrite s.rxi.toNat (List.replicate (s.respLen.toNat - s.rxi.toNat) 0x00) <;> simp [mapNext]

theorem rxStep_storeRegister : rxStep (s.storeRegister r v) = mapNext (·.storeRegister r v) (rxStep s) := by
  by_cases position : s.rxi.toNat < s.respLen.toNat
  · rw [rxStep_eq position, rxStep_eq (by simpa using position)]
    cases answer : s.answer with
    | notReady =>
      by_cases last : s.wcnt + 1 = s.params.maxWait.polls <;> simp [answer, last, rxAbort_storeRegister, mapNext]
    | ready a => cases a <;> simp [answer, rxStore_storeRegister, rxAbort_storeRegister]
  · simp [rxStep, position, mapNext]

theorem txStep_storeRegister : txStep (s.storeRegister r v) = mapNext (·.storeRegister r v) (txStep s) := by
  cases byte : s.frame.byteAt s.txi with
  | none => simp [txStep, byte, mapNext]
  | some b =>
    rw [txStep_eq byte, txStep_eq (by simpa using byte)]
    simp only [mapNext, storeRegister_txi, storeRegister_respLen, emit_storeRegister, nextByte_storeRegister,
      enter_storeRegister, enterReception_storeRegister]
    split_ifs <;> rfl

theorem valStep_storeRegister : valStep (s.storeRegister r v) = mapNext (·.storeRegister r v) (valStep s) := by
  by_cases defined : 3 ≤ s.respLen.toNat ∧ s.rxCount.toNat ≤ s.respLen.toNat
  · cases read : s.memRead 0 s.respLen.toNat <;> simp [valStep, defined, read, mapNext]
  · simp [valStep, defined, mapNext]

theorem decStep_storeRegister : decStep (s.storeRegister r v) = mapNext (·.storeRegister r v) (decStep s) := by
  have decoded : decodeSelected (s.storeRegister r v) = decodeSelected s := by apply decodeSelected_congr <;> simp
  rw [decStep, decoded]
  cases r <;> rfl

end

/-- Settles O46: the engine's step in each phase commutes with a host write. -/
theorem hostWritesDoNotDisturbTheEngine : Obligations.HostWritesDoNotDisturbTheEngine := by
  intro s r v
  cases level : s.rst with
  | true =>
    rw [engineStep_asserted level, engineStep_asserted (by simpa using level)]
    rfl
  | false =>
    have levelAfter : (s.storeRegister r v).rst = false := by simpa using level
    cases ph : s.ph <;>
      rw [engineStep_released level ph, engineStep_released levelAfter ((storeRegister_ph s r v).trans ph)]
    case idle => rfl
    case cfgIn => simp [cfgInStep, mapNext]
    case tx => exact txStep_storeRegister s r v
    case rx => exact rxStep_storeRegister s r v
    case val => exact valStep_storeRegister s r v
    case dec => exact decStep_storeRegister s r v
    case cfgOut => simp [cfgOutStep, mapNext]

end Sys2Proof.Machine

namespace Sys2Proof.Machine

/-! ### States that differ in RB only -/

/-- The same state with other listed bytes and other free values in RB. -/
def State.withBuffer (s : State) (m : Memory) (epoch : Nat) : State := { s with rb := m, rbEpoch := epoch }

/-- Related states differ in RB alone. -/
theorem SameButUnwritten.exists_withBuffer {s t : State} (h : SameButUnwritten s t) :
    ∃ m epoch, t = s.withBuffer m epoch :=
  ⟨t.rb, t.rbEpoch, (congrArg (·.withBuffer t.rb t.rbEpoch) h.1).symm⟩

section
variable {s s' : State} {m : Memory} {epoch : Nat}

/-- A step that keeps RB, and counts no more of it as written, keeps the relation. -/
theorem SameButUnwritten.of_kept (h : SameButUnwritten s (s.withBuffer m epoch)) (rb : s'.rb = s.rb)
    (same : s'.rbEpoch = s.rbEpoch) (written : s'.rbWritten ≤ s.rbWritten) :
    SameButUnwritten s' (s'.withBuffer m epoch) := by
  refine ⟨rfl, fun i hi => ?_⟩
  calc s'.rbByte i = s.rbByte i := rbByte_congr rb same i
    _ = (s.withBuffer m epoch).rbByte i := h.2 i (by omega)
    _ = (s'.withBuffer m epoch).rbByte i := rbByte_congr rfl rfl i

/-- A step that writes RB keeps the relation when the bytes it counts as written are the old ones and its own. -/
theorem SameButUnwritten.of_filled {a : Nat} {bs : List Byte} (h : SameButUnwritten s (s.withBuffer m epoch))
    (rb : s'.rb = s.rb.writeBytes a bs) (same : s'.rbEpoch = s.rbEpoch) (start : s.rbWritten = a)
    (written : s'.rbWritten ≤ a + bs.length) :
    SameButUnwritten s' (s'.withBuffer (m.writeBytes a bs) epoch) := by
  refine ⟨rfl, fun i hi => ?_⟩
  have filled : (s.fill a bs).rbByte i = ((s.withBuffer m epoch).fill a bs).rbByte i := by
    rw [rbByte_fill, rbByte_fill]
    split
    · rfl
    · exact h.2 i (by omega)
  calc s'.rbByte i = (s.fill a bs).rbByte i := rbByte_congr (t := s.fill a bs) rb same i
    _ = ((s.withBuffer m epoch).fill a bs).rbByte i := filled
    _ = (s'.withBuffer (m.writeBytes a bs) epoch).rbByte i := rbByte_congr rfl rfl i

/-! ### What each phase makes of another content of RB -/

/-- TX reads no byte of RB, and no byte counts as written when reception begins (42_receiver.md R120). -/
theorem txStep_withBuffer (same : SameButUnwritten s (s.withBuffer m epoch)) (h : txStep s = .next s') :
    ∃ t', txStep (s.withBuffer m epoch) = .next t' ∧ SameButUnwritten s' t' := by
  obtain ⟨b, byte, ⟨more, rfl⟩ | ⟨last, noResponse, rfl⟩ | ⟨last, response, rfl⟩⟩ := txStep_cases h
  · exact ⟨_, txStep_more (s := s.withBuffer m epoch) byte more, same.of_kept rfl rfl (Nat.le_refl _)⟩
  · have nothing : ((s.emit (.tx b)).enter .cfgOut).rbWritten = 0 := by simp [State.rbWritten, noResponse]
    exact ⟨_, txStep_toCfgOut (s := s.withBuffer m epoch) byte last noResponse,
      same.of_kept rfl rfl (nothing.trans_le (Nat.zero_le _))⟩
  · exact ⟨_, txStep_toReception (s := s.withBuffer m epoch) byte last response,
      same.of_kept rfl rfl (Nat.zero_le _)⟩

theorem heard_withBuffer : (s.withBuffer m epoch).heard = s.heard.withBuffer m epoch := by
  have used : (s.withBuffer m epoch).useAnswer = s.useAnswer.withBuffer m epoch := by
    unfold State.useAnswer
    cases answers : s.answers <;> simp only [State.withBuffer, answers]
  have answer : (s.withBuffer m epoch).answer = s.answer := rfl
  rw [State.heard, used, answer]
  rfl

/-- Which bytes count as written after store(i, b) (42_receiver.md R124, R128). -/
theorem rbWritten_stored (rx : s.ph = .rx) (position : s.rxi.toNat < s.respLen.toNat) :
    s.stored.rbWritten = s.rxi.toNat + 1 := by
  by_cases last : s.rxi.toNat + 1 = s.respLen.toNat
  · simp [State.rbWritten, last]
  · rw [← succ_toNat_of_lt position]
    simp [State.rbWritten, last, rx]

theorem rxStore_withBuffer {b : Byte} (rx : s.ph = .rx) (position : s.rxi.toNat < s.respLen.toNat)
    (same : SameButUnwritten s (s.withBuffer m epoch)) (h : rxStore b s = .next s') :
    ∃ t', rxStore b (s.withBuffer m epoch) = .next t' ∧ SameButUnwritten s' t' := by
  obtain ⟨inside, rfl⟩ := rxStore_next h
  refine ⟨_, rxStore_eq b (s.withBuffer m epoch) inside, ?_⟩
  have start : s.rbWritten = s.rxi.toNat := by simp [State.rbWritten, rx]
  have written := rbWritten_stored (s := s.fill s.rxi.toNat [b]) rx position
  exact same.of_filled rfl rfl start written.le

theorem rxAbort_withBuffer (rx : s.ph = .rx) (position : s.rxi.toNat < s.respLen.toNat)
    (same : SameButUnwritten s (s.withBuffer m epoch)) (h : rxAbort s = .next s') :
    ∃ t', rxAbort (s.withBuffer m epoch) = .next t' ∧ SameButUnwritten s' t' := by
  obtain ⟨inside, rfl⟩ := rxAbort_next h
  refine ⟨_, rxAbort_eq (s.withBuffer m epoch) inside, ?_⟩
  have start : s.rbWritten = s.rxi.toNat := by simp [State.rbWritten, rx]
  refine same.of_filled rfl rfl start ?_
  rw [List.length_replicate]
  show s.respLen.toNat ≤ s.rxi.toNat + (s.respLen.toNat - s.rxi.toNat)
  omega

theorem rxStep_withBuffer (rx : s.ph = .rx) (same : SameButUnwritten s (s.withBuffer m epoch))
    (h : rxStep s = .next s') : ∃ t', rxStep (s.withBuffer m epoch) = .next t' ∧ SameButUnwritten s' t' := by
  obtain ⟨position, outcomes⟩ := rxStep_cases h
  have heardRx : s.heard.ph = .rx := by rw [heard_ph, rx]
  have heardPosition : s.heard.rxi.toNat < s.heard.respLen.toNat := by simpa using position
  have heardSame : SameButUnwritten s.heard (s.heard.withBuffer m epoch) :=
    same.of_kept (by simp) (by simp) (by simp [State.rbWritten])
  rw [rxStep_eq (s := s.withBuffer m epoch) position, heard_withBuffer]
  obtain ⟨answer, notLast, rfl⟩ | ⟨answer, last, timeout⟩ | ⟨b, answer, stored⟩ | ⟨answer, noData⟩ := outcomes
  all_goals
    have answerThere : (s.withBuffer m epoch).answer = _ := answer
    rw [answerThere]
  · exact ⟨_, if_neg notLast, heardSame.of_kept rfl rfl (Nat.le_refl _)⟩
  · obtain ⟨t', aborted, sameAfter⟩ := rxAbort_withBuffer (s := s.heard.missed) heardRx heardPosition
      (heardSame.of_kept rfl rfl (Nat.le_refl _)) timeout
    exact ⟨t', (if_pos last).trans aborted, sameAfter⟩
  · exact rxStore_withBuffer heardRx heardPosition heardSame stored
  · exact rxAbort_withBuffer heardRx heardPosition heardSame noData

/-- The validator reads the written bytes alone (43_validator.md R140). -/
theorem valStep_withBuffer (ph : s.ph = .val) (same : SameButUnwritten s (s.withBuffer m epoch))
    (h : valStep s = .next s') : ∃ t', valStep (s.withBuffer m epoch) = .next t' ∧ SameButUnwritten s' t' := by
  obtain ⟨atLeast, count, inside, rfl⟩ := valStep_cases h
  have written : s.rbWritten = s.respLen.toNat := by simp [State.rbWritten, ph]
  have response : (s.withBuffer m epoch).rbSlice 0 (s.withBuffer m epoch).respLen.toNat
      = s.rbSlice 0 s.respLen.toNat :=
    rbSlice_congr 0 _ fun i _ hi => (same.2 i (by rw [Nat.zero_add] at hi; exact hi.trans_eq written.symm)).symm
  have there := valStep_eq (s := s.withBuffer m epoch) atLeast count inside
  rw [response] at there
  exact ⟨_, there, same.of_kept rfl rfl written.ge⟩

end

theorem slotLanes_congr {f g : Nat → Byte} (h : ∀ i, i < 8 → f i = g i) : slotLanes f = slotLanes g := by
  simp [slotLanes, h]

theorem slotMask_congr {f g : Nat → Bool} (h : ∀ i, i < 8 → f i = g i) : slotMask f = slotMask g := by
  simp [slotMask, h]

/-- The host slots end where a get-hosts response has its checksum (44_decoders.md R163). -/
theorem hostSlot_congr {s t : State} (h : ∀ i, i < 259 → s.rbByte i = t.rbByte i) {k : Nat} (hk : k < 8) :
    s.hostSlot k = t.hostSlot k :=
  rbSlice_congr _ _ fun i _ hi => h i (by simp only [hostSlotLen] at hi; omega)

/-- The device slots end where a get-device-slots response has its checksum (44_decoders.md R167). -/
theorem devSlot_congr {s t : State} (h : ∀ i, i < 307 → s.rbByte i = t.rbByte i) {k : Nat} (hk : k < 8) :
    s.devSlot k = t.devSlot k :=
  rbSlice_congr _ _ fun i _ hi => h i (by simp only [devSlotLen] at hi; omega)

theorem decodeHosts_congr {s t : State} (dec : s.dec = t.dec) (h : ∀ i, i < 259 → s.rbByte i = t.rbByte i) :
    decodeHosts s = decodeHosts t := by
  have slots := @hostSlot_congr s t h
  simp only [decodeHosts, dec]
  congr 1
  · exact slotMask_congr fun i hi => by rw [slots hi]
  · exact slotLanes_congr fun i hi => by rw [slots hi]

theorem decodeDevSlots_congr {s t : State} (dec : s.dec = t.dec) (h : ∀ i, i < 307 → s.rbByte i = t.rbByte i) :
    decodeDevSlots s = decodeDevSlots t := by
  have slots := @devSlot_congr s t h
  simp only [decodeDevSlots, State.devFilename, dec]
  congr 1
  · exact slotLanes_congr fun i hi => by rw [slots hi]
  · exact slotLanes_congr fun i hi => by rw [slots hi]
  · exact slotLanes_congr fun i hi => by rw [slots hi]
  · exact slotMask_congr fun i hi => by rw [slots hi]

/-- The decoder of the latched command reads its response alone (44_decoders.md R160). -/
theorem decodeSelected_withBuffer {s : State} {m : Memory} {epoch : Nat} (respLen : s.respLen = respLenOf s.lcmd)
    (agree : ∀ i, i < s.respLen.toNat → s.rbByte i = (s.withBuffer m epoch).rbByte i) :
    decodeSelected (s.withBuffer m epoch) = decodeSelected s := by
  cases dv : s.status.dv with
  | false => rw [decodeSelected_of_not_dv dv, decodeSelected_of_not_dv (s := s.withBuffer m epoch) dv, State.withBuffer]
  | true =>
    have dvThere : (s.withBuffer m epoch).status.dv = true := dv
    unfold decodeSelected
    rw [if_pos dv, if_pos dvThere]
    cases code : Command.ofCode s.lcmd with
    | none =>
      have codeThere : Command.ofCode (s.withBuffer m epoch).lcmd = none := code
      rw [codeThere]
      rfl
    | some c =>
      have codeThere : Command.ofCode (s.withBuffer m epoch).lcmd = some c := code
      have length : s.respLen = c.respLen := by rw [respLen, respLenOf, code]
      rw [length] at agree
      rw [codeThere]
      cases c with
      | reset => rfl
      | getSsid => rfl
      | getHosts => exact (decodeHosts_congr (s := s) (t := s.withBuffer m epoch) rfl agree).symm
      | getDevSlots => exact (decodeDevSlots_congr (s := s) (t := s.withBuffer m epoch) rfl agree).symm

theorem decStep_withBuffer {s s' : State} {m : Memory} {epoch : Nat} (ph : s.ph = .dec)
    (respLen : s.respLen = respLenOf s.lcmd) (same : SameButUnwritten s (s.withBuffer m epoch))
    (h : decStep s = .next s') : ∃ t', decStep (s.withBuffer m epoch) = .next t' ∧ SameButUnwritten s' t' := by
  have written : s.rbWritten = s.respLen.toNat := by simp [State.rbWritten, ph]
  rw [decStep, decodeSelected_withBuffer respLen fun i hi => same.2 i (by omega)]
  injection h with h
  rw [← h]
  exact ⟨_, rfl, same.of_kept rfl rfl written.ge⟩

theorem engineStep_withBuffer {s s' : State} {m : Memory} {epoch : Nat} (hi : MachineInv s)
    (same : SameButUnwritten s (s.withBuffer m epoch)) (h : engineStep s = .next s') :
    ∃ t', engineStep (s.withBuffer m epoch) = .next t' ∧ SameButUnwritten s' t' := by
  cases level : s.rst with
  | true =>
    rw [engineStep_asserted level] at h
    injection h with h
    exact ⟨_, engineStep_asserted level, h ▸ same⟩
  | false =>
    cases ph : s.ph <;> rw [engineStep_released (s := s.withBuffer m epoch) level ph] <;>
      rw [engineStep_released level ph] at h
    case idle =>
      injection h with h
      exact ⟨_, rfl, h ▸ same⟩
    case cfgIn =>
      injection h with h
      rw [← h]
      exact ⟨_, rfl, same.of_kept rfl rfl (Nat.zero_le _)⟩
    case tx => exact txStep_withBuffer same h
    case rx => exact rxStep_withBuffer ph same h
    case val => exact valStep_withBuffer ph same h
    case dec => exact decStep_withBuffer ph hi.control.respLen same h
    case cfgOut =>
      injection h with h
      rw [← h]
      have written : s.rbWritten = s.respLen.toNat := by simp [State.rbWritten, ph]
      exact ⟨_, rfl, same.of_kept rfl rfl written.ge⟩

/-- Settles O60: states that differ in unwritten bytes of RB take the engine's step of their phase alike. -/
theorem unwrittenBufferContentDoesNotMatter : Obligations.UnwrittenBufferContentDoesNotMatter := by
  intro s t s' hi same h
  obtain ⟨m, epoch, rfl⟩ := same.exists_withBuffer
  exact engineStep_withBuffer hi same h

end Sys2Proof.Machine

namespace Sys2Proof.Machine

/-! ### An engine left alone -/

/-- `k` steps of an engine left alone take `s` to `t` and emit the events `es` (20_memory.md R72). -/
structure EngineRun (k : Nat) (s t : State) (es : List Event) : Prop where
  run : Sys2Proof.core.run k s = .next t
  kept : EngineFrame s t
  trace : t.trace = s.trace ++ es

theorem EngineRun.of_step {s t : State} {es : List Event} (alone : s.agenda = []) (h : engineStep s = .next t)
    (trace : t.trace = s.trace ++ es) : EngineRun 1 s t es where
  run := run_of_step ((step_of_noTurn alone).trans h) 0
  kept := engineStep_engineFrame h
  trace := trace

theorem EngineRun.trans {j k : Nat} {s t u : State} {es fs : List Event} (first : EngineRun j s t es)
    (second : EngineRun k t u fs) : EngineRun (j + k) s u (es ++ fs) where
  run := (run_add first.run k).trans second.run
  kept := first.kept.trans second.kept
  trace := by rw [second.trace, first.trace, List.append_assoc]

/-- The engine takes its next step: `rst` is released and no turn is lined up. -/
structure EngineAlone (s : State) : Prop where
  released : s.rst = false
  noTurn : s.agenda = []

theorem EngineAlone.of_frame {s t : State} (alone : EngineAlone s) (kept : EngineFrame s t) : EngineAlone t where
  released := kept.rst.trans alone.released
  noTurn := kept.agenda.trans alone.noTurn

theorem EngineAlone.after {k : Nat} {s t : State} {es : List Event} (alone : EngineAlone s) (run : EngineRun k s t es) :
    EngineAlone t :=
  alone.of_frame run.kept

theorem cfgIn_run {s : State} (alone : EngineAlone s) (ph : s.ph = .cfgIn) :
    EngineRun 1 s ((s.emit (.cfgEnter s.params.portCfg)).enter .tx) [.cfgEnter s.params.portCfg] :=
  .of_step alone.noTurn (engineStep_released alone.released ph) rfl

/-! ### Sending -/

theorem txMore_run {s : State} {b : Byte} (alone : EngineAlone s) (ph : s.ph = .tx)
    (byte : s.frame.byteAt s.txi = some b) (more : s.txi.toNat < 6) :
    EngineRun 1 s (s.emit (.tx b)).nextByte [.tx b] :=
  .of_step alone.noTurn ((engineStep_released alone.released ph).trans (txStep_more byte more)) rfl

theorem txLast_run {s : State} {b : Byte} (alone : EngineAlone s) (ph : s.ph = .tx)
    (byte : s.frame.byteAt s.txi = some b) (last : 6 ≤ s.txi.toNat) (response : s.respLen ≠ 0) :
    EngineRun 1 s (s.emit (.tx b)).enterReception [.tx b] :=
  .of_step alone.noTurn ((engineStep_released alone.released ph).trans (txStep_toReception byte last response)) rfl

/-- Reception has just begun (42_receiver.md R120). -/
structure ReceptionBegins (s : State) : Prop where
  ph : s.ph = .rx
  rxi : s.rxi = 0
  wcnt : s.wcnt = 0
  rxCount : s.rxCount = 0

/-- The frame's bytes from e.TXI on begin with the byte TX sends (41_encoder.md R112). -/
theorem frame_from_txi {x : Frame} {i : BitVec 3} (h : i.toNat ≤ 6) :
    ∃ b, x.byteAt i = some b ∧ x.bytes.drop i.toNat = b :: x.bytes.drop (i.toNat + 1) := by
  have bound : i.toNat < x.bytes.length := Nat.lt_succ_of_le h
  exact ⟨_, List.getElem?_eq_getElem bound, List.drop_eq_getElem_cons bound⟩

/-- The `n + 1` bytes left of the frame go out in frame order, one per step, and reception begins
(45_commands.md R192; 20_memory.md R64). -/
theorem tx_run {s : State} {n : Nat} (alone : EngineAlone s) (ph : s.ph = .tx) (left : s.txi.toNat + n = 6)
    (response : s.respLen ≠ 0) :
    ∃ t, EngineRun (n + 1) s t ((s.frame.bytes.drop s.txi.toNat).map .tx) ∧ ReceptionBegins t := by
  induction n generalizing s with
  | zero =>
    obtain ⟨b, byte, rest⟩ := frame_from_txi (x := s.frame) (i := s.txi) (by omega)
    have nothing : s.frame.bytes.drop (s.txi.toNat + 1) = [] := List.drop_eq_nil_of_le (by show 7 ≤ _; omega)
    rw [rest, nothing]
    exact ⟨_, txLast_run alone ph byte (by omega) response, rfl, rfl, rfl, rfl⟩
  | succ n ih =>
    obtain ⟨b, byte, rest⟩ := frame_from_txi (x := s.frame) (i := s.txi) (by omega)
    have sent := txMore_run alone ph byte (by omega)
    have advance : (s.emit (.tx b)).nextByte.txi.toNat = s.txi.toNat + 1 := by
      have add : (s.txi + 1).toNat = (s.txi.toNat + 1) % 8 := BitVec.toNat_add s.txi 1
      show (s.txi + 1).toNat = _
      omega
    obtain ⟨t, more, begins⟩ := ih (alone.after sent) ph (by omega) response
    rw [advance] at more
    rw [rest, Nat.add_comm]
    exact ⟨t, sent.trans more, begins⟩

/-! ### Reception -/

/-- An engine in reception, with its position inside the response and a Poll left (42_receiver.md R121). -/
structure Receiving (s : State) : Prop where
  ph : s.ph = .rx
  position : s.rxi.toNat < s.respLen.toNat
  inside : s.respLen.toNat ≤ rbSize
  count : s.rxCount = s.rxi
  budget : s.wcnt < s.params.maxWait.polls

/-- An engine at the end of reception. -/
structure Received (s : State) : Prop where
  ph : s.ph = .val
  count : s.rxCount.toNat ≤ s.respLen.toNat

/-- How many false Polls and bytes reception can still take. -/
def State.answersLeft (s : State) : Nat := (s.respLen.toNat - s.rxi.toNat) * s.params.maxWait.polls - s.wcnt

theorem received_of_abort {s t : State} (hr : Receiving s) (h : rxAbort s = .next t) :
    Received t ∧ t.trace = s.trace := by
  obtain ⟨_, rfl⟩ := rxAbort_next h
  refine ⟨⟨rfl, ?_⟩, rfl⟩
  have count : s.rxCount.toNat ≤ s.respLen.toNat := by rw [hr.count]; exact hr.position.le
  exact count

theorem receiving_of_missed {s : State} (hr : Receiving s) (notLast : s.wcnt + 1 ≠ s.params.maxWait.polls) :
    Receiving s.missed ∧ s.missed.answersLeft < s.answersLeft := by
  have budget := hr.budget
  obtain ⟨more, hmore⟩ : ∃ more, s.respLen.toNat - s.rxi.toNat = more + 1 :=
    ⟨_, (Nat.succ_pred (Nat.sub_ne_zero_of_lt hr.position)).symm⟩
  refine ⟨⟨hr.ph, hr.position, hr.inside, hr.count, ?_⟩, ?_⟩
  · rw [missed_wcnt, missed_params]
    omega
  · simp only [State.answersLeft, missed_respLen, missed_rxi, missed_params, missed_wcnt, hmore, Nat.succ_mul]
    omega

theorem receiving_or_received_of_store {b : Byte} {s t : State} (hr : Receiving s) (h : rxStore b s = .next t) :
    t.trace = s.trace ∧ (Received t ∨ Receiving t ∧ t.answersLeft < s.answersLeft) := by
  obtain ⟨_, rfl⟩ := rxStore_next h
  refine ⟨rfl, ?_⟩
  have advance : (s.rxi + 1).toNat = s.rxi.toNat + 1 := succ_toNat_of_lt hr.position
  have countAdvance : (s.rxCount + 1).toNat = s.rxi.toNat + 1 := by rw [hr.count, advance]
  have position := hr.position
  by_cases last : s.rxi.toNat + 1 = s.respLen.toNat
  · refine .inl ⟨by simp [last], ?_⟩
    rw [stored_rxCount, fill_rxCount, countAdvance]
    exact position
  · have budget := hr.budget
    obtain ⟨more, hmore⟩ : ∃ more, s.respLen.toNat - s.rxi.toNat = more + 1 :=
      ⟨_, (Nat.succ_pred (Nat.sub_ne_zero_of_lt position)).symm⟩
    have after : s.respLen.toNat - (s.rxi + 1).toNat = more := by omega
    refine .inr ⟨⟨by simp [last, hr.ph], ?_, hr.inside, ?_, s.params.maxWait.positive⟩, ?_⟩
    · rw [stored_rxi, fill_rxi, advance, stored_respLen, fill_respLen]
      omega
    · rw [stored_rxCount, stored_rxi, fill_rxCount, fill_rxi, hr.count]
    · show (s.respLen.toNat - (s.rxi + 1).toNat) * s.params.maxWait.polls - 0 < _
      rw [after, State.answersLeft, hmore, Nat.succ_mul]
      omega

theorem receiving_heard {s : State} (hr : Receiving s) : Receiving s.heard := by
  obtain ⟨ph, position, inside, count, budget⟩ := hr
  constructor <;> simpa

/-- One receive step uses one answer, and ends reception or leaves it with fewer to come (42_receiver.md R130). -/
theorem rxStep_progress {s : State} (hr : Receiving s) :
    ∃ t, rxStep s = .next t ∧ t.trace = s.trace ++ answerEvents s.answer
      ∧ (Received t ∨ Receiving t ∧ t.answersLeft < s.answersLeft) := by
  obtain ⟨t, h⟩ := rxStep_next hr.position hr.inside
  refine ⟨t, h, ?_⟩
  have heard := receiving_heard hr
  have left : s.heard.answersLeft = s.answersLeft := by simp [State.answersLeft]
  rw [← heard_trace, ← left]
  obtain ⟨-, ⟨-, notLast, rfl⟩ | ⟨-, -, timeout⟩ | ⟨b, -, stored⟩ | ⟨-, noData⟩⟩ := rxStep_cases h
  · exact ⟨rfl, .inr (receiving_of_missed heard (by simpa using notLast))⟩
  · obtain ⟨received, trace⟩ := received_of_abort heard (rxAbort_of_missed timeout)
    exact ⟨trace, .inl received⟩
  · exact receiving_or_received_of_store heard stored
  · obtain ⟨received, trace⟩ := received_of_abort heard noData
    exact ⟨trace, .inl received⟩

/-- Reception ends, and its events are those of the answers it uses, one step each (42_receiver.md R123, R130). -/
theorem rx_run {s : State} (alone : EngineAlone s) (hr : Receiving s) :
    ∃ (heard : List SerialAnswer) (t : State),
      EngineRun heard.length s t (heard.flatMap answerEvents) ∧ Received t := by
  induction left : s.answersLeft using Nat.strong_induction_on generalizing s with
  | h n ih =>
    obtain ⟨t, h, trace, progress⟩ := rxStep_progress hr
    have first : EngineRun 1 s t (answerEvents s.answer) :=
      .of_step alone.noTurn ((engineStep_released alone.released hr.ph).trans h) trace
    obtain received | ⟨receiving, fewer⟩ := progress
    · exact ⟨[s.answer], t, by simpa using first, received⟩
    · obtain ⟨heard, u, rest, received⟩ := ih t.answersLeft (by omega) (alone.after first) receiving rfl
      refine ⟨s.answer :: heard, u, ?_, received⟩
      rw [List.length_cons, Nat.add_comm, List.flatMap_cons]
      exact first.trans rest

/-! ### The end of a transaction, and the whole of it -/

/-- VAL, DEC and CFG_OUT take a step each and emit CfgExit alone (45_commands.md R194 to R196). -/
theorem closing_run {s : State} (alone : EngineAlone s) (received : Received s) (atLeast : 3 ≤ s.respLen.toNat)
    (inside : s.respLen.toNat ≤ rbSize) : ∃ t, EngineRun 3 s t [.cfgExit] ∧ t.ph = .idle := by
  have val := EngineRun.of_step (es := []) alone.noTurn
    ((engineStep_released alone.released received.ph).trans (valStep_eq atLeast received.count inside))
    (List.append_nil _).symm
  have aloneVal := alone.after val
  have dec := EngineRun.of_step (es := []) aloneVal.noTurn (engineStep_released aloneVal.released rfl)
    (List.append_nil _).symm
  have aloneDec := aloneVal.after dec
  have cfgOut := EngineRun.of_step (es := [.cfgExit]) aloneDec.noTurn (engineStep_released aloneDec.released rfl) rfl
  exact ⟨_, (val.trans dec).trans cfgOut, rfl⟩

/-- From CFG_IN on, a transaction with a response runs to IDLE (20_memory.md R72). -/
theorem response_run {s : State} (alone : EngineAlone s) (ph : s.ph = .cfgIn) (txi : s.txi = 0)
    (atLeast : 3 ≤ s.respLen.toNat) (inside : s.respLen.toNat ≤ rbSize) :
    ∃ (heard : List SerialAnswer) (u : State),
      EngineRun (1 + 7 + heard.length + 3) s u
        ([.cfgEnter s.params.portCfg] ++ frameEvents s.frame ++ heard.flatMap answerEvents ++ [.cfgExit])
      ∧ u.ph = .idle := by
  have response : s.respLen ≠ 0 := fun zero => by simp [zero] at atLeast
  have opened := cfgIn_run alone ph
  obtain ⟨t, sending, begins⟩ := tx_run (n := 6) (alone.after opened) rfl (by simp [txi]) response
  have frame : (s.frame.bytes.drop s.txi.toNat).map .tx = frameEvents s.frame := by rw [txi]; rfl
  have sent := opened.trans sending
  have respLen : t.respLen = s.respLen := sent.kept.respLen
  have receiving : Receiving t := {
    ph := begins.ph
    position := by rw [begins.rxi, respLen]; show 0 < _; omega
    inside := by rw [respLen]; exact inside
    count := by rw [begins.rxCount, begins.rxi]
    budget := by rw [begins.wcnt]; exact t.params.maxWait.positive }
  obtain ⟨heard, v, reception, received⟩ := rx_run (alone.after sent) receiving
  have filled := sent.trans reception
  have respLenFilled : v.respLen = s.respLen := filled.kept.respLen
  obtain ⟨u, closing, idle⟩ := closing_run (alone.after filled) received
    (by rw [respLenFilled]; exact atLeast) (by rw [respLenFilled]; exact inside)
  rw [← frame]
  exact ⟨heard, u, filled.trans closing, idle⟩

/-- A command with a response expects at least 100 bytes, all inside RB (30_encoding.md R83). -/
theorem respLen_of_response {c : Command} (response : c ≠ .reset) :
    100 ≤ c.respLen.toNat ∧ c.respLen.toNat ≤ rbSize := by
  cases c with
  | reset => exact absurd rfl response
  | getSsid => decide
  | getHosts => decide
  | getDevSlots => decide

/-- Settles O56: CFG_IN, seven TX steps, a step per answer, and the three steps that close the transaction. -/
theorem responseTransactionTraceShape : Obligations.ResponseTransactionTraceShape := by
  intro s c a1 a2 a3 a4 response released idle noTurn
  obtain ⟨long, inside⟩ := respLen_of_response response
  have start : exec (c.instr a1 a2 a3 a4) s = .next (acceptStart c a1 a2 a3 a4 s) := by
    rw [exec_command, whileReleased_released _ _ released, whenIdle_idle _ _ idle]
  have atLeast : 3 ≤ (acceptStart c a1 a2 a3 a4 s).respLen.toNat := by
    rw [acceptStart_respLen]
    omega
  obtain ⟨heard, u, run, ends⟩ :=
    response_run (s := acceptStart c a1 a2 a3 a4 s) ⟨released, noTurn⟩ rfl rfl atLeast inside
  refine ⟨_, u, _, heard, start, run.run, ends, ?_, by omega⟩
  rw [run.trace]
  simp

end Sys2Proof.Machine

namespace Sys2Proof

/-! ### The decoders, one equation per operation and per code -/

theorem decodeCommandWord_legal {w : BitVec 40} {c : Command} (code : Command.ofCode (w.extractLsb' 0 8) = some c) :
    decodeCommandWord w
      = .ok (c.instr (w.extractLsb' 8 8) (w.extractLsb' 16 8) (w.extractLsb' 24 8) (w.extractLsb' 32 8)) := by
  simp [decodeCommandWord, code]

theorem decodeCommandWord_illegal {w : BitVec 40} (code : Command.ofCode (w.extractLsb' 0 8) = none) :
    decodeCommandWord w = .error (.illegalCode (w.extractLsb' 0 8)) := by
  simp [decodeCommandWord, code]

/-- A command word decodes to the command of its code with its four arguments, or to no instruction. -/
theorem decodeCommandWord_eq_ok {w : BitVec 40} {i : Instr} (h : decodeCommandWord w = .ok i) :
    ∃ c, Command.ofCode (w.extractLsb' 0 8) = some c
      ∧ i = c.instr (w.extractLsb' 8 8) (w.extractLsb' 16 8) (w.extractLsb' 24 8) (w.extractLsb' 32 8) := by
  cases code : Command.ofCode (w.extractLsb' 0 8) with
  | none =>
    rw [decodeCommandWord_illegal code] at h
    cases h
  | some c =>
    rw [decodeCommandWord_legal code] at h
    injection h with h
    exact ⟨c, rfl, h.symm⟩

@[simp] theorem decodeCommandWord_commandWord (c : Command) (a1 a2 a3 a4 : Byte) :
    decodeCommandWord (commandWord c.code a1 a2 a3 a4) = .ok (c.instr a1 a2 a3 a4) := by
  simpa using decodeCommandWord_legal (w := commandWord c.code a1 a2 a3 a4) (c := c) (by simp)

theorem decodeHostWord_wr {w : BitVec 32} (op : w.extractLsb' 30 2 = 0b00) :
    decodeHostWord w = .wr (Reg.ofNumber (w.extractLsb' 16 8)) (w.extractLsb' 0 16) := by
  simp [decodeHostWord, op]

theorem decodeHostWord_rd {w : BitVec 32} (op : w.extractLsb' 30 2 = 0b01) :
    decodeHostWord w = .rd (Reg.ofNumber (w.extractLsb' 16 8)) := by
  simp [decodeHostWord, op]

theorem decodeHostWord_rdb {w : BitVec 32} (op : w.extractLsb' 30 2 = 0b10) :
    decodeHostWord w = .rdb (w.extractLsb' 0 16) := by
  simp [decodeHostWord, op]

theorem decodeHostWord_nop {w : BitVec 32} (op : w.extractLsb' 30 2 = 0b11) : decodeHostWord w = .nop := by
  simp [decodeHostWord, op]

/-! ### Decoding after encoding -/

theorem encode_command (c : Command) (a1 a2 a3 a4 : Byte) :
    encode (c.instr a1 a2 a3 a4) = .cw (commandWord c.code a1 a2 a3 a4) := by
  cases c <;> rfl

theorem decode_encode_command (c : Command) (a1 a2 a3 a4 : Byte) :
    decode (encode (c.instr a1 a2 a3 a4)) = .ok (c.instr a1 a2 a3 a4) := by
  rw [encode_command]
  exact decodeCommandWord_commandWord c a1 a2 a3 a4

/-- Settles O10: the four command words by their code, the host words by their operation. -/
theorem decodingAnEncodingGivesTheInstruction : Obligations.DecodingAnEncodingGivesTheInstruction := by
  intro i wellFormed
  cases i with
  | reset a1 a2 a3 a4 => exact decode_encode_command .reset a1 a2 a3 a4
  | getSsid a1 a2 a3 a4 => exact decode_encode_command .getSsid a1 a2 a3 a4
  | getHosts a1 a2 a3 a4 => exact decode_encode_command .getHosts a1 a2 a3 a4
  | getDevSlots a1 a2 a3 a4 => exact decode_encode_command .getDevSlots a1 a2 a3 a4
  | wr r v =>
    have named : Reg.ofNumber r.number = r := ofNumber_number r wellFormed
    show Except.ok (decodeHostWord (hostWord 0b00 r.number v)) = _
    rw [decodeHostWord_wr (hostWord_op _ _ _), hostWord_reg, hostWord_val, named]
  | rd r =>
    have named : Reg.ofNumber r.number = r := ofNumber_number r wellFormed
    show Except.ok (decodeHostWord (hostWord 0b01 r.number 0)) = _
    rw [decodeHostWord_rd (hostWord_op _ _ _), hostWord_reg, named]
  | rdb i =>
    show Except.ok (decodeHostWord (hostWord 0b10 0 i)) = _
    rw [decodeHostWord_rdb (hostWord_op _ _ _), hostWord_val]
  | nop => exact congrArg Except.ok (decodeHostWord_nop (hostWord_op 0b11 0 0))

/-! ### Encoding after decoding -/

/-- A command word is made of its five bytes (30_encoding.md R80). -/
theorem commandWord_fields (w : BitVec 40) :
    commandWord (w.extractLsb' 0 8) (w.extractLsb' 8 8) (w.extractLsb' 16 8) (w.extractLsb' 24 8)
      (w.extractLsb' 32 8) = w := by
  unfold commandWord
  rw [BitVec.extractLsb'_append_extractLsb'_eq_extractLsb' (start₂ := 32) (start₁ := 24) rfl,
    BitVec.extractLsb'_append_extractLsb'_eq_extractLsb' (start₂ := 24) (start₁ := 16) rfl,
    BitVec.extractLsb'_append_extractLsb'_eq_extractLsb' (start₂ := 16) (start₁ := 8) rfl,
    BitVec.extractLsb'_append_extractLsb'_eq_extractLsb' (start₂ := 8) (start₁ := 0) rfl]
  exact BitVec.extractLsb'_eq_self

/-- A host word whose reserved bits are 0 is made of its other three fields (30_encoding.md R92). -/
theorem hostWord_fields {w : BitVec 32} (reserved : w.extractLsb' 24 6 = 0) :
    hostWord (w.extractLsb' 30 2) (w.extractLsb' 16 8) (w.extractLsb' 0 16) = w := by
  unfold hostWord
  rw [show (0#6) = w.extractLsb' 24 6 from reserved.symm,
    BitVec.extractLsb'_append_extractLsb'_eq_extractLsb' (start₂ := 30) (start₁ := 24) rfl,
    BitVec.extractLsb'_append_extractLsb'_eq_extractLsb' (start₂ := 24) (start₁ := 16) rfl,
    BitVec.extractLsb'_append_extractLsb'_eq_extractLsb' (start₂ := 16) (start₁ := 0) rfl]
  exact BitVec.extractLsb'_eq_self

theorem wellFormed_host32_iff (w : BitVec 32) :
    (Encoded.host32 w).wellFormed = true ↔
      w.extractLsb' 24 6 = 0 ∧
      (w.extractLsb' 30 2 = 0b00
        ∨ (w.extractLsb' 30 2 = 0b01 ∧ w.extractLsb' 0 16 = 0)
        ∨ (w.extractLsb' 30 2 = 0b10 ∧ w.extractLsb' 16 8 = 0)
        ∨ (w.extractLsb' 30 2 = 0b11 ∧ w.extractLsb' 0 24 = 0)) := by
  simp [Encoded.wellFormed, or_assoc]

theorem wellFormed_command (c : Command) (a1 a2 a3 a4 : Byte) : (c.instr a1 a2 a3 a4).wellFormed = true := by
  cases c <;> rfl

/-- A canonical command word is the encoding of what it decodes to. -/
theorem encode_decodeCommandWord {w : BitVec 40} (canonical : (Encoded.cw w).wellFormed = true) :
    ∃ i, decodeCommandWord w = .ok i ∧ i.wellFormed = true ∧ encode i = .cw w := by
  obtain ⟨c, code⟩ := Option.isSome_iff_exists.mp canonical
  refine ⟨_, decodeCommandWord_legal code, wellFormed_command c _ _ _ _, ?_⟩
  rw [encode_command, ← ofCode_eq_some.mp code, commandWord_fields]

/-- Every host word decodes to a well-formed instruction. -/
theorem wellFormed_decodeHostWord (w : BitVec 32) : (decodeHostWord w).wellFormed = true := by
  have named := wellFormed_ofNumber (w.extractLsb' 16 8)
  simp only [decodeHostWord]
  split
  · exact named
  split
  · exact named
  split <;> rfl

/-- A field among low bits that are 0 is 0. -/
theorem field_of_low_zero {n start len low : Nat} {w : BitVec n} (zero : w.extractLsb' 0 low = 0)
    (inside : start + len ≤ low) : w.extractLsb' start len = 0 := by
  rw [← BitVec.extractLsb'_extractLsb'_of_le inside, zero]
  simp

/-- A canonical host word is the encoding of what it decodes to. -/
theorem encode_decodeHostWord {w : BitVec 32} (canonical : (Encoded.host32 w).wellFormed = true) :
    encode (decodeHostWord w) = .host32 w := by
  obtain ⟨reserved, op | ⟨op, val⟩ | ⟨op, reg⟩ | ⟨op, low⟩⟩ := (wellFormed_host32_iff w).mp canonical
  · rw [decodeHostWord_wr op, encode, number_ofNumber, ← op, hostWord_fields reserved]
  · rw [decodeHostWord_rd op, encode, number_ofNumber, ← op, ← val, hostWord_fields reserved]
  · rw [decodeHostWord_rdb op, encode, ← op, ← reg, hostWord_fields reserved]
  · have reg : w.extractLsb' 16 8 = 0 := field_of_low_zero low (by decide)
    have val : w.extractLsb' 0 16 = 0 := field_of_low_zero low (by decide)
    rw [decodeHostWord_nop op, encode, ← op, ← reg, ← val, hostWord_fields reserved]

/-- Settles O11: both formats are made of their fields, and the ignored fields of a canonical word are 0. -/
theorem encodingADecodingGivesTheWord : Obligations.EncodingADecodingGivesTheWord := by
  intro e canonical
  cases e with
  | cw w => exact encode_decodeCommandWord canonical
  | host32 w => exact ⟨_, rfl, wellFormed_decodeHostWord w, encode_decodeHostWord canonical⟩

/-! ### Ignored bits, codes and words -/

/-- Two words that agree under a mask agree in every field the mask covers. -/
theorem field_of_mask {n start len : Nat} {w u m : BitVec n} (agree : w &&& m = u &&& m)
    (covers : m.extractLsb' start len = BitVec.allOnes len) : w.extractLsb' start len = u.extractLsb' start len := by
  have field := congrArg (BitVec.extractLsb' start len) agree
  simpa [BitVec.extractLsb'_and, covers] using field

/-- Settles O13: an operation reads the fields its mask covers and no other. -/
theorem ignoredHostWordBitsChangeNothing : Obligations.IgnoredHostWordBitsChangeNothing := by
  intro w u
  refine ⟨fun agree => ?_, fun op agree => ?_, fun op agree => ?_, fun op agree => ?_⟩
  · unfold decodeHostWord
    rw [field_of_mask (start := 30) (len := 2) agree rfl, field_of_mask (start := 16) (len := 8) agree rfl,
      field_of_mask (start := 0) (len := 16) agree rfl]
  · have sameOp : w.extractLsb' 30 2 = u.extractLsb' 30 2 := field_of_mask agree rfl
    rw [decodeHostWord_rd op, decodeHostWord_rd (sameOp ▸ op), field_of_mask (start := 16) agree rfl]
  · have sameOp : w.extractLsb' 30 2 = u.extractLsb' 30 2 := field_of_mask agree rfl
    rw [decodeHostWord_rdb op, decodeHostWord_rdb (sameOp ▸ op), field_of_mask (start := 0) agree rfl]
  · have sameOp : w.extractLsb' 30 2 = u.extractLsb' 30 2 := field_of_mask agree rfl
    rw [decodeHostWord_nop op, decodeHostWord_nop (sameOp ▸ op)]

/-- Settles O12: the word decodes by its code, and a code other than the four names no command. -/
theorem commandWordsAreSelectedByTheirCode : Obligations.CommandWordsAreSelectedByTheirCode := by
  intro a1 a2 a3 a4
  refine ⟨decodeCommandWord_commandWord .reset a1 a2 a3 a4, decodeCommandWord_commandWord .getSsid a1 a2 a3 a4,
    decodeCommandWord_commandWord .getHosts a1 a2 a3 a4, decodeCommandWord_commandWord .getDevSlots a1 a2 a3 a4, ?_⟩
  intro c notReset notSsid notHosts notDevSlots
  have noCommand : Command.ofCode c = none := by
    cases code : Command.ofCode c with
    | none => rfl
    | some k =>
      have isCode : c = k.code := ofCode_eq_some.mp code
      cases k with
      | reset => exact absurd isCode notReset
      | getSsid => exact absurd isCode notSsid
      | getHosts => exact absurd isCode notHosts
      | getDevSlots => exact absurd isCode notDevSlots
  simpa using decodeCommandWord_illegal (w := commandWord c a1 a2 a3 a4) (by simpa using noCommand)

/-- Settles O14: the decoder evaluated at the spec's words. -/
theorem specWordsDecode : Obligations.SpecWordsDecode :=
  ⟨rfl, rfl, rfl, rfl, rfl, rfl, rfl, rfl, rfl, rfl⟩

end Sys2Proof

namespace Sys2Proof.Machine

/-! ### No operation, and the guard of `rst` applied twice -/

theorem whileReleased_self (s : State) : whileReleased s (.next s) = .next s := by
  cases level : s.rst <;> simp [level]

theorem whileReleased_whileReleased (s : State) (out : Host.Outcome State Fault Refusal) :
    whileReleased s (whileReleased s out) = whileReleased s out := by
  cases level : s.rst <;> simp [level]

/-- Settles O34: with `rst` released or asserted, the state stays. -/
theorem noOperationHasNoEffect : Obligations.NoOperationHasNoEffect :=
  whileReleased_self

/-! ### The start request runs the command word in the command registers -/

theorem startRequest_legal {s : State} {c : Command} (code : Command.ofCode s.cmd = some c) :
    startRequest s = exec (c.instr s.arg1 s.arg2 s.arg3 s.arg4) s := by
  unfold startRequest
  rw [code]
  cases c <;> rfl

/-- A write of CTRL with START = 1 is the command's execution when CMD holds a legal code. -/
theorem exec_wr_ctrl_start {s : State} {c : Command} {v : Half} (start : startBit v = true)
    (code : Command.ofCode s.cmd = some c) :
    exec (.wr .ctrl v) s = exec (c.instr s.arg1 s.arg2 s.arg3 s.arg4) s := by
  have request : exec (.wr .ctrl v) s = whileReleased s (startRequest s) := by simp [exec, execWr, start]
  rw [request, startRequest_legal code, exec_command, whileReleased_whileReleased]

/-- Settles O16: the host word's turn is a start request, and the command word's fields are the registers. -/
theorem stepRunsTheCommandWord : Obligations.StepRunsTheCommandWord := by
  intro s w rest v i turn write start word
  obtain ⟨c, code, rfl⟩ := decodeCommandWord_eq_ok word
  simp only [commandWord_code, commandWord_a1, commandWord_a2, commandWord_a3, commandWord_a4] at code ⊢
  rw [stepRunsTheNextHostWord s w rest _ turn write]
  exact exec_wr_ctrl_start start code

/-- The start request on a state that holds a command word runs that word. -/
theorem step_of_heldWord {s : State} {w : BitVec 40} {i : Instr} {rest : List Turn}
    (turn : s.agenda = .host startWord :: rest) (word : decodeCommandWord w = .ok i) :
    step (s.holding w) = exec i ((s.holding w).withAgenda rest) := by
  refine stepRunsTheCommandWord (s.holding w) startWord rest 1 i turn rfl rfl ?_
  simp only [holding_cmd, holding_arg1, holding_arg2, holding_arg3, holding_arg4, commandWord_fields]
  exact word

theorem decodeTableWord_host (w : Nat) : decodeTableWord 32 w = some (decodeHostWord (BitVec.ofNat 32 w)) := rfl

theorem decodeTableWord_command {w : Nat} {i : Instr} (h : decodeTableWord 40 w = some i) :
    decodeCommandWord (BitVec.ofNat 40 (w % 2 ^ 40)) = .ok i := by
  rw [decodeTableWord, if_neg (by decide), if_pos (by decide)] at h
  split at h
  · rename_i decoded
    injection h with h
    rw [decoded, h]
  · cases h

/-- Settles O17: a HOST32 word is the next turn itself, a command word is held in the command registers. -/
theorem stepRunsAPlacedTableWord : Obligations.StepRunsAPlacedTableWord := by
  rintro s nbits w i (rfl | rfl) decoded
  · rw [decodeTableWord_host] at decoded
    injection decoded with decoded
    exact stepRunsTheNextHostWord (s.withFetchWord 32 w) _ s.agenda i rfl (congrArg _ decoded)
  · exact step_of_heldWord (s := s.released.lineUp [.host startWord]) (rest := s.agenda) rfl
      (decodeTableWord_command decoded)

/-! ### SEND -/

/-- The turn of a host write. -/
def writeTurn (p : Reg × Half) : Turn := .host (hostWord 0b00 p.1.number p.2)

/-- The registers after a list of host writes. -/
def State.storeAll (s : State) (ps : List (Reg × Half)) : State := ps.foldl (fun u p => u.storeRegister p.1 p.2) s

theorem storeRegister_withAgenda (s : State) (r : Reg) (v : Half) (ts : List Turn) :
    (s.withAgenda ts).storeRegister r v = (s.storeRegister r v).withAgenda ts := by
  cases r <;> rfl

theorem storeAll_withAgenda (s : State) (ps : List (Reg × Half)) (ts : List Turn) :
    (s.withAgenda ts).storeAll ps = (s.storeAll ps).withAgenda ts := by
  induction ps generalizing s with
  | nil => rfl
  | cons p ps ih =>
    show ((s.withAgenda ts).storeRegister p.1 p.2).storeAll ps = _
    rw [storeRegister_withAgenda, ih]
    rfl

/-- A write of a register other than CTRL stores and leaves the agenda. -/
theorem step_of_writeTurn {s : State} {p : Reg × Half} {rest : List Turn} (released : s.rst = false)
    (named : p.1.wellFormed = true) (stores : p.1 ≠ .ctrl) (turn : s.agenda = writeTurn p :: rest) :
    step s = .next ((s.storeRegister p.1 p.2).withAgenda rest) := by
  have decoded : decode (.host32 (hostWord 0b00 p.1.number p.2)) = .ok (.wr p.1 p.2) :=
    decodingAnEncodingGivesTheInstruction (.wr p.1 p.2) named
  rw [stepRunsTheNextHostWord s _ rest _ turn decoded, ← storeRegister_withAgenda]
  simp only [exec, execWr, stores, false_and, if_false]
  exact whileReleased_released _ _ released

/-- Writes of registers other than CTRL, lined up, are stored one per step. -/
theorem run_writes {s : State} {ps : List (Reg × Half)} {rest : List Turn} (released : s.rst = false)
    (stored : ∀ p ∈ ps, p.1.wellFormed = true ∧ p.1 ≠ .ctrl) (turns : s.agenda = ps.map writeTurn ++ rest) :
    Sys2Proof.core.run ps.length s = .next ((s.storeAll ps).withAgenda rest) := by
  induction ps generalizing s with
  | nil =>
    rw [← show s.agenda = rest from turns]
    rfl
  | cons p ps ih =>
    obtain ⟨⟨named, stores⟩, others⟩ := List.forall_mem_cons.mp stored
    rw [List.length_cons, run_of_step (step_of_writeTurn released named stores turns),
      ih (by simpa [State.withAgenda] using released) others rfl, storeAll_withAgenda]
    rfl

theorem run_one (s : State) : Sys2Proof.core.run 1 s = step s := by
  cases h : step s <;> simp [Host.Core.run, Sys2Proof.core, h]

/-- The writes of SEND before its start request (30_encoding.md R91). -/
def sendWrites (c a1 a2 a3 a4 : Byte) : List (Reg × Half) :=
  [(.cmd, zext16 c), (.arg1, zext16 a1), (.arg2, zext16 a2), (.arg3, zext16 a3), (.arg4, zext16 a4)]

@[simp] theorem low8_zext16 (b : Byte) : low8 (zext16 b) = b := by
  simp [low8, zext16]

/-- The writes of SEND leave the command word in the command registers. -/
theorem storeAll_sendWrites (s : State) (c a1 a2 a3 a4 : Byte) :
    s.storeAll (sendWrites c a1 a2 a3 a4) = s.holding (commandWord c a1 a2 a3 a4) := by
  simp [State.storeAll, sendWrites, State.storeRegister, State.holding]

theorem sendWrites_stored (c a1 a2 a3 a4 : Byte) :
    ∀ p ∈ sendWrites c a1 a2 a3 a4, p.1.wellFormed = true ∧ p.1 ≠ .ctrl := by
  simp [sendWrites, Reg.wellFormed]

/-- Settles O36: five writes leave the command word in the command registers, and the sixth is its start request. -/
theorem sendStartsTheCommand : Obligations.SendStartsTheCommand := by
  intro s c a1 a2 a3 a4 rest released _ turns
  have writes : Sys2Proof.core.run 5 s
      = .next ((s.holding (commandWord c.code a1 a2 a3 a4)).withAgenda (.host startWord :: rest)) := by
    rw [← storeAll_sendWrites]
    exact run_writes released (sendWrites_stored c.code a1 a2 a3 a4) turns
  have start := step_of_heldWord (s := s.withAgenda (.host startWord :: rest)) rfl
    (decodeCommandWord_commandWord c a1 a2 a3 a4)
  rw [run_add writes 1, run_one]
  refine start.trans ?_
  simp [State.holding, State.withAgenda]

end Sys2Proof.Machine

namespace Sys2Proof.Machine

/-! ### The checksum as a function of the sum of the bytes -/

/-- S of 40_checksum.md R102: the sum of the bytes, without a bound. -/
def byteSum (bs : List Byte) : Nat := (bs.map BitVec.toNat).sum

/-- The closed form of 40_checksum.md R102: S mod 255, with 255 for a multiple of 255 other than 0. -/
def endAroundSum (S : Nat) : Nat := if S = 0 then 0 else (S - 1) % 255 + 1

@[simp] theorem byteSum_nil : byteSum [] = 0 := rfl

@[simp] theorem byteSum_cons (b : Byte) (bs : List Byte) : byteSum (b :: bs) = b.toNat + byteSum bs := by
  simp [byteSum]

@[simp] theorem byteSum_append (bs cs : List Byte) : byteSum (bs ++ cs) = byteSum bs + byteSum cs := by
  simp [byteSum]

/-- A byte adds its value, wherever it stands. -/
theorem byteSum_insert (xs ys : List Byte) (b : Byte) :
    byteSum (xs ++ b :: ys) = b.toNat + byteSum (xs ++ ys) := by
  simp only [byteSum_append, byteSum_cons]
  omega

theorem byteSum_perm {bs cs : List Byte} (h : bs.Perm cs) : byteSum bs = byteSum cs :=
  (h.map BitVec.toNat).sum_eq

theorem byteSum_eq_zero_iff (bs : List Byte) : byteSum bs = 0 ↔ ∀ b ∈ bs, b = 0 := by
  have zeroByte (b : Byte) : b.toNat = 0 ↔ b = 0 := BitVec.toNat_inj (y := 0)
  simp only [byteSum, List.sum_eq_zero_iff_forall_eq_nat, List.forall_mem_map, zeroByte]

theorem byteSum_ne_zero_iff (bs : List Byte) : byteSum bs ≠ 0 ↔ ∃ b ∈ bs, b ≠ 0 := by
  simp only [ne_eq, byteSum_eq_zero_iff, not_forall, exists_prop]

theorem endAroundSum_le (S : Nat) : endAroundSum S ≤ 255 := by
  unfold endAroundSum
  split <;> omega

theorem endAroundSum_eq_zero_iff (S : Nat) : endAroundSum S = 0 ↔ S = 0 := by
  unfold endAroundSum
  split <;> omega

/-- Two sums have one closed form when they agree modulo 255 and zero is told from the other multiples of 255. -/
theorem endAroundSum_eq_iff (S T : Nat) :
    endAroundSum S = endAroundSum T ↔ (S = 0 ↔ T = 0) ∧ S % 255 = T % 255 := by
  unfold endAroundSum
  split <;> split <;> omega

/-- One more byte: the sum folded so far, less 255 when the byte carries it out of a byte. -/
theorem endAroundSum_add (S b : Nat) (hb : b < 256) :
    endAroundSum (S + b)
      = if endAroundSum S + b ≤ 255 then endAroundSum S + b else endAroundSum S + b - 255 := by
  unfold endAroundSum
  split_ifs <;> omega

/-- The accumulator holds the closed form after every prefix (40_checksum.md R101, R102). -/
theorem checksumAcc_toNat (bs : List Byte) : (checksumAcc bs).toNat = endAroundSum (byteSum bs) := by
  induction bs using List.reverseRecOn with
  | nil => rfl
  | append_singleton bs b ih =>
    have inByte : (checksumAcc bs).toNat ≤ 255 := ih ▸ endAroundSum_le _
    have sum : byteSum (bs ++ [b]) = byteSum bs + b.toNat := by simp
    rw [checksumAcc_append, checksumStep_toNat _ _ inByte, ih, sum, endAroundSum_add _ _ b.isLt]

/-- The accumulator stays in a byte (40_checksum.md R101). -/
theorem checksumAcc_le (bs : List Byte) : (checksumAcc bs).toNat ≤ 255 :=
  checksumAcc_toNat bs ▸ endAroundSum_le _

/-- The checksum is the accumulator, since the mask of its low byte drops nothing. -/
theorem checksum_toNat (bs : List Byte) : (checksum bs).toNat = endAroundSum (byteSum bs) := by
  have inByte : (checksumAcc bs).toNat ≤ 255 := checksumAcc_le bs
  have mask : (checksumAcc bs &&& 0xFF).toNat = (checksumAcc bs).toNat % 256 := by
    rw [BitVec.toNat_and]
    exact Nat.and_two_pow_sub_one_eq_mod _ 8
  rw [← checksumAcc_toNat, checksum, BitVec.toNat_setWidth, mask]
  omega

/-- Two byte lists have one checksum exactly when their sums have one closed form. -/
theorem checksum_eq_iff (bs cs : List Byte) :
    checksum bs = checksum cs
      ↔ (byteSum bs = 0 ↔ byteSum cs = 0) ∧ byteSum bs % 255 = byteSum cs % 255 := by
  rw [← BitVec.toNat_inj, checksum_toNat, checksum_toNat, endAroundSum_eq_iff]

theorem checksum_eq_of_byteSum_eq {bs cs : List Byte} (h : byteSum bs = byteSum cs) :
    checksum bs = checksum cs :=
  (checksum_eq_iff bs cs).mpr (by simp [h])

/-- Settles O48: the closed form that the accumulator holds after every prefix. -/
theorem checksumClosedForm : Obligations.ChecksumClosedForm := checksum_toNat

/-- Settles O49: the accumulator is in a byte, and a byte more is no carry out of 16 bits. -/
theorem checksumAccumulatorStaysInAByte : Obligations.ChecksumAccumulatorStaysInAByte := by
  intro bs b
  have inByte := checksumAcc_le bs
  have hb := b.isLt
  refine ⟨inByte, ?_⟩
  rw [BitVec.toNat_add, BitVec.toNat_setWidth]
  omega

/-! ### The four weaknesses (40_checksum.md R103) -/

theorem checksum_perm {bs cs : List Byte} (h : bs.Perm cs) : checksum bs = checksum cs :=
  checksum_eq_of_byteSum_eq (byteSum_perm h)

theorem checksum_eq_zero_iff (bs : List Byte) : checksum bs = 0 ↔ ∀ b ∈ bs, b = 0 := by
  rw [← byteSum_eq_zero_iff, ← endAroundSum_eq_zero_iff, ← checksum_toNat]
  exact (BitVec.toNat_inj (y := 0)).symm

/-- Different bytes agree modulo 255, whatever is added to both, only as 0x00 and 0xFF. -/
theorem byte_add_mod_eq_iff {a b : Byte} (differ : a ≠ b) (rest : Nat) :
    (a.toNat + rest) % 255 = (b.toNat + rest) % 255
      ↔ (a = 0x00 ∧ b = 0xFF) ∨ (a = 0xFF ∧ b = 0x00) := by
  bv_omega

/-- A changed byte is missed when it goes between 0x00 and 0xFF, unless one of the two sums is then 0. -/
theorem checksum_changeByte_iff (xs ys : List Byte) {a b : Byte} (differ : a ≠ b) :
    checksum (xs ++ a :: ys) = checksum (xs ++ b :: ys)
      ↔ ((a = 0x00 ∧ b = 0xFF) ∨ (a = 0xFF ∧ b = 0x00)) ∧ ∃ c ∈ xs ++ ys, c ≠ 0 := by
  rw [checksum_eq_iff, byteSum_insert, byteSum_insert, byte_add_mod_eq_iff differ, ← byteSum_ne_zero_iff,
    and_comm]
  refine and_congr_right fun ends => ?_
  rcases ends with ⟨rfl, rfl⟩ | ⟨rfl, rfl⟩ <;> simp

theorem checksum_insertZero (xs ys : List Byte) : checksum (xs ++ 0x00 :: ys) = checksum (xs ++ ys) :=
  checksum_eq_of_byteSum_eq (by simp)

/-- Settles O50: each weakness, from what the sum of the bytes does not tell apart. -/
theorem checksumWeaknessesAreKept : Obligations.ChecksumWeaknessesAreKept :=
  ⟨fun _ _ => checksum_perm, checksum_eq_zero_iff, fun xs ys _ _ => checksum_changeByte_iff xs ys,
    checksum_insertZero⟩

end Sys2Proof.Machine

namespace Sys2Proof.Machine

/-! ### The frame's bytes (41_encoder.md R110) -/

theorem encodeFrame_checksum (c a1 a2 a3 a4 : Byte) :
    (encodeFrame c a1 a2 a3 a4).checksum = checksum (frameHead c a1 a2 a3 a4) := rfl

theorem encodeFrame_bytes (c a1 a2 a3 a4 : Byte) :
    (encodeFrame c a1 a2 a3 a4).bytes = frameHead c a1 a2 a3 a4 ++ [checksum (frameHead c a1 a2 a3 a4)] := rfl

theorem frameHead_length (c a1 a2 a3 a4 : Byte) : (frameHead c a1 a2 a3 a4).length = 6 := rfl

theorem deviceId_mem_frameHead (c a1 a2 a3 a4 : Byte) : deviceId ∈ frameHead c a1 a2 a3 a4 :=
  List.mem_cons_self

theorem deviceId_ne_zero : deviceId ≠ 0 := by decide

/-- A checksum of 0 needs six zero bytes (40_checksum.md R103), and the device id is not one. -/
theorem encodeFrame_checksum_ne_zero (c a1 a2 a3 a4 : Byte) : (encodeFrame c a1 a2 a3 a4).checksum ≠ 0 := by
  rw [encodeFrame_checksum, ne_eq, checksum_eq_zero_iff]
  intro allZero
  exact deviceId_ne_zero (allZero deviceId (deviceId_mem_frameHead c a1 a2 a3 a4))

/-- Settles O51: byte 6 covers the six before it, and the device id keeps it from 0. -/
theorem frameIsHeadAndChecksum : Obligations.FrameIsHeadAndChecksum := fun c a1 a2 a3 a4 =>
  ⟨encodeFrame_bytes c a1 a2 a3 a4, encodeFrame_checksum_ne_zero c a1 a2 a3 a4⟩

/-! ### Frames with zero arguments (41_encoder.md R114) -/

/-- Byte 6 is the checksum of bytes 0 to 5, whatever the arguments. -/
theorem encodeFrame_byteSix (c a1 a2 a3 a4 : Byte) :
    (encodeFrame c a1 a2 a3 a4).bytes[6]? = some (checksum ((encodeFrame c a1 a2 a3 a4).bytes.take 6)) := by
  rw [encodeFrame_bytes, List.take_left' (frameHead_length ..)]
  exact List.getElem?_concat_length (l := frameHead c a1 a2 a3 a4)

theorem byteSum_frameHead (c a1 a2 a3 a4 : Byte) :
    byteSum (frameHead c a1 a2 a3 a4)
      = deviceId.toNat + c.toNat + a1.toNat + a2.toNat + a3.toNat + a4.toNat := by
  simp [frameHead, Nat.add_assoc]

/-- With zero arguments the checksum is the folded sum of the device id and the code (40_checksum.md R102). -/
theorem encodeFrame_zeroArgs_bytes {c sum : Byte} (folded : endAroundSum (deviceId.toNat + c.toNat) = sum.toNat) :
    (encodeFrame c 0 0 0 0).bytes = [0x70, c, 0x00, 0x00, 0x00, 0x00, sum] := by
  have byteSix : checksum (frameHead c 0 0 0 0) = sum := by
    rw [← BitVec.toNat_inj, checksum_toNat, byteSum_frameHead]
    exact folded
  rw [encodeFrame_bytes, byteSix]
  rfl

/-- Settles O52: each row from the folded sum of 0x70 and its code. -/
theorem framesWithZeroArguments : Obligations.FramesWithZeroArguments :=
  ⟨encodeFrame_zeroArgs_bytes (by decide), encodeFrame_zeroArgs_bytes (by decide),
    encodeFrame_zeroArgs_bytes (by decide), encodeFrame_zeroArgs_bytes (by decide),
    fun c => encodeFrame_byteSix c 0 0 0 0⟩

end Sys2Proof.Machine

namespace Sys2Proof.Machine

/-! ### The function rx -/

/-- How rx runs (42_receiver.md R132): with `left` positions to fill and `w` false Polls at the first of them, it takes
bytes from the answers and returns them with the number of answers used. One constructor per end and per answer. -/
inductive Receives (m : Nat) : (left w : Nat) → List SerialAnswer → List Byte → Nat → Prop
  | full {w : Nat} {as : List SerialAnswer} : Receives m 0 w as [] 0
  | timeout {left w : Nat} {as : List SerialAnswer} (last : w + 1 = m) :
      Receives m (left + 1) w (.notReady :: as) [] 1
  | missed {left w : Nat} {as : List SerialAnswer} {bs : List Byte} {n : Nat} (notLast : w + 1 ≠ m)
      (rest : Receives m (left + 1) (w + 1) as bs n) : Receives m (left + 1) w (.notReady :: as) bs (n + 1)
  | noData {left w : Nat} {as : List SerialAnswer} : Receives m (left + 1) w (.ready .noData :: as) [] 1
  | stored {left w : Nat} {as : List SerialAnswer} {bs : List Byte} {n : Nat} (b : Byte)
      (rest : Receives m left 0 as bs n) : Receives m (left + 1) w (.ready (.byte b) :: as) (b :: bs) (n + 1)

theorem receives_of_receiveBytes {m left w : Nat} {as : List SerialAnswer} {r : List Byte × Nat}
    (h : receiveBytes m left w as = some r) : Receives m left w as r.1 r.2 := by
  induction left, w, as using receiveBytes.induct (m := m) generalizing r with
  | case1 =>
    rw [receiveBytes] at h
    cases h
    exact .full
  | case2 => cases h
  | case3 left w as last =>
    rw [receiveBytes, if_pos last] at h
    cases h
    exact .timeout last
  | case4 left w as notLast ih =>
    rw [receiveBytes, if_neg notLast] at h
    obtain ⟨r, rest, rfl⟩ := Option.map_eq_some_iff.1 h
    exact .missed notLast (ih rest)
  | case5 =>
    cases h
    exact .noData
  | case6 left w b as ih =>
    obtain ⟨r, rest, rfl⟩ := Option.map_eq_some_iff.1 h
    exact .stored b (ih rest)

/-- What rx returns: the bytes taken, then the zero fill (42_receiver.md R127, R132). -/
theorem receive_eq_some {len m : Nat} {as : List SerialAnswer} {r : Reception} (h : receive len m as = some r) :
    ∃ bs n, Receives m len 0 as bs n ∧ r = ⟨bs ++ List.replicate (len - bs.length) 0x00, bs.length, n⟩ := by
  obtain ⟨⟨bs, n⟩, taken, rfl⟩ := Option.map_eq_some_iff.1 h
  exact ⟨bs, n, receives_of_receiveBytes taken, rfl⟩

theorem Receives.length_le {m left w n : Nat} {as : List SerialAnswer} {bs : List Byte}
    (h : Receives m left w as bs n) : bs.length ≤ left := by
  induction h with
  | full | timeout | noData => exact Nat.zero_le _
  | missed _ _ ih => exact ih
  | stored _ _ ih => exact Nat.succ_le_succ ih

theorem Receives.used_le_answers {m left w n : Nat} {as : List SerialAnswer} {bs : List Byte}
    (h : Receives m left w as bs n) : n ≤ as.length := by
  induction h with
  | full => exact Nat.zero_le _
  | timeout | noData => exact Nat.succ_le_succ (Nat.zero_le _)
  | missed _ _ ih | stored _ _ ih => exact Nat.succ_le_succ ih

/-- Each position takes at most `m` answers, the first one `w` fewer (42_receiver.md R130). -/
theorem Receives.used_le_budget {m left w n : Nat} {as : List SerialAnswer} {bs : List Byte}
    (h : Receives m left w as bs n) (budget : w < m) : n ≤ left * m - w := by
  induction h with
  | full => exact Nat.zero_le _
  | timeout | noData =>
    rw [Nat.succ_mul]
    omega
  | missed notLast _ ih =>
    have rest := ih (by omega)
    rw [Nat.succ_mul] at rest ⊢
    omega
  | stored _ _ ih =>
    have rest := ih (by omega)
    rw [Nat.succ_mul]
    omega

/-- Settles O58: the bounds on a run of rx, whose buffer is the bytes taken and zeros after them. -/
theorem rxReturnsLBytesWithinItsBudget : Obligations.RxReturnsLBytesWithinItsBudget := by
  intro len m as r positive h
  obtain ⟨bs, n, run, rfl⟩ := receive_eq_some h
  have count := run.length_le
  have length : (bs ++ List.replicate (len - bs.length) (0x00 : Byte)).length = len := by
    rw [List.length_append, List.length_replicate]
    omega
  exact ⟨length, count, List.drop_left, run.used_le_budget positive, run.used_le_answers⟩

/-! ### The receive step, one equation per case -/

theorem rxStep_missed {s : State} (position : s.rxi.toNat < s.respLen.toNat) (answer : s.answer = .notReady)
    (notLast : s.wcnt + 1 ≠ s.params.maxWait.polls) : rxStep s = .next s.heard.missed := by
  rw [rxStep_eq position, answer]
  exact if_neg notLast

/-- The state after abort(i) (42_receiver.md R126): RB[i..L) zero-filled and reception over. -/
def State.zeroFilled (s : State) : State :=
  (s.fill s.rxi.toNat (List.replicate (s.respLen.toNat - s.rxi.toNat) 0x00)).aborted

/-- The answers that end reception before the last position: the P_MAX_WAIT-th false Poll in a row, or a read with no
data (42_receiver.md R122, R125). -/
def State.givesUpOn (s : State) (a : SerialAnswer) : Prop :=
  (a = .notReady ∧ s.wcnt + 1 = s.params.maxWait.polls) ∨ a = .ready .noData

theorem rxStep_gaveUp {s : State} (position : s.rxi.toNat < s.respLen.toNat) (inside : s.respLen.toNat ≤ rbSize)
    (ends : s.givesUpOn s.answer) : rxStep s = .next s.heard.zeroFilled := by
  have range : s.heard.rxi.toNat + (s.heard.respLen.toNat - s.heard.rxi.toNat) ≤ rbSize := by
    rw [heard_rxi, heard_respLen]
    omega
  rw [rxStep_eq position]
  obtain ⟨answer, last⟩ | answer := ends
  · rw [answer]
    exact (if_pos last).trans (rxAbort_eq s.heard.missed range)
  · rw [answer]
    exact rxAbort_eq s.heard range

theorem rxStep_stored {s : State} {b : Byte} (position : s.rxi.toNat < s.respLen.toNat)
    (inside : s.respLen.toNat ≤ rbSize) (answer : s.answer = .ready (.byte b)) :
    rxStep s = .next (s.heard.fill s.rxi.toNat [b]).stored := by
  have range : s.heard.rxi.toNat < rbSize := by
    rw [heard_rxi]
    omega
  rw [rxStep_eq position, answer, ← heard_rxi s]
  exact rxStore_eq b s.heard range

@[simp] theorem rbByte_heard (s : State) (i : Nat) : s.heard.rbByte i = s.rbByte i :=
  rbByte_congr (heard_rb s) (heard_rbEpoch s) i

/-- RB after a byte is stored (42_receiver.md R124). -/
theorem rbByte_stored (s : State) (b : Byte) (i : Nat) :
    (s.heard.fill s.rxi.toNat [b]).stored.rbByte i = if i = s.rxi.toNat then b else s.rbByte i := by
  calc (s.heard.fill s.rxi.toNat [b]).stored.rbByte i
    _ = (s.heard.fill s.rxi.toNat [b]).rbByte i := rfl
    _ = if i = s.rxi.toNat then b else s.rbByte i := by
      rw [rbByte_fill, rbByte_heard, List.length_singleton]
      by_cases here : i = s.rxi.toNat
      · rw [if_pos here, if_pos (by omega), here, Nat.sub_self, List.getD_cons_zero]
      · rw [if_neg here, if_neg (by omega)]

/-- RB after the zero fill (42_receiver.md R126). -/
theorem rbByte_zeroFilled (s : State) (i : Nat) :
    s.heard.zeroFilled.rbByte i = if s.rxi.toNat ≤ i ∧ i < s.respLen.toNat then 0 else s.rbByte i := by
  calc s.heard.zeroFilled.rbByte i
    _ = (s.heard.fill s.heard.rxi.toNat
          (List.replicate (s.heard.respLen.toNat - s.heard.rxi.toNat) 0x00)).rbByte i := rfl
    _ = if s.rxi.toNat ≤ i ∧ i < s.respLen.toNat then 0 else s.rbByte i := by
      rw [rbByte_fill, rbByte_heard, heard_rxi, heard_respLen, List.length_replicate]
      by_cases here : s.rxi.toNat ≤ i ∧ i < s.respLen.toNat
      · rw [if_pos here, if_pos (by omega), List.getD_replicate _ (by omega)]
      · rw [if_neg here, if_neg (by omega)]

/-- Where the environment's answer comes from (20_memory.md R67; log entry 4). -/
theorem answer_and_useAnswer {s u : State} {a : SerialAnswer}
    (source : (s.answers = a :: u.answers ∧ u = { s with answers := u.answers })
      ∨ (s.answers = [] ∧ a = Config.serialDraw s.draws ∧ u = { s with draws := s.draws + 1 })) :
    a = s.answer ∧ u = s.useAnswer := by
  unfold State.answer State.useAnswer
  obtain ⟨held, used⟩ | ⟨none, drawn, used⟩ := source
  · rw [held]
    exact ⟨rfl, used⟩
  · rw [none] at used ⊢
    exact ⟨drawn, used⟩

/-- Settles O40: a receive step on each answer, and RB after it. -/
theorem rxStepCountsStoresOrAborts : Obligations.RxStepCountsStoresOrAborts := by
  intro s u a released rx source position inside
  obtain ⟨rfl, rfl⟩ := answer_and_useAnswer source
  rw [engineStep_released released rx]
  refine ⟨fun answer notLast => ?_, fun ends => ?_, fun b answer => ?_⟩
  · rw [rxStep_missed position answer notLast]
    simp [State.heard, State.missed, State.emitAll, answer, answerEvents]
  · refine ⟨_, rxStep_gaveUp position inside ends, ?_, rbByte_zeroFilled s⟩
    simp [State.zeroFilled, State.aborted, State.fill, State.heard, State.emitAll]
  · refine ⟨_, rxStep_stored position inside answer, ?_, rbByte_stored s b⟩
    simp [State.stored, State.fill, State.heard, State.emitAll, answer, answerEvents, rx]

/-! ### The events of a step -/

/-- The events `t` has emitted since `s` are nothing, one event that is neither a true Poll nor an Rd, or a true Poll
with its Rd (42_receiver.md R123). -/
def EmitsOneStep (s t : State) : Prop :=
  ∃ es, t.trace = s.trace ++ es
    ∧ (es = [] ∨ (∃ e, es = [e] ∧ e ≠ .poll true ∧ ∀ r, e ≠ .rd r) ∨ ∃ r, es = [.poll true, .rd r])

theorem EmitsOneStep.of_kept {s t : State} (kept : t.trace = s.trace) : EmitsOneStep s t :=
  ⟨[], by rw [kept, List.append_nil], .inl rfl⟩

theorem EmitsOneStep.of_event {s t : State} {e : Event} (emitted : t.trace = s.trace ++ [e])
    (notPoll : e ≠ .poll true) (notRd : ∀ r, e ≠ .rd r) : EmitsOneStep s t :=
  ⟨[e], emitted, .inr (.inl ⟨e, rfl, notPoll, notRd⟩)⟩

theorem EmitsOneStep.of_answer {s t : State} {a : SerialAnswer} (emitted : t.trace = s.trace ++ answerEvents a) :
    EmitsOneStep s t := by
  cases a with
  | notReady => exact .of_event emitted (by decide) nofun
  | ready r => exact ⟨_, emitted, .inr (.inr ⟨r, rfl⟩)⟩

theorem rxStore_keeps_trace {b : Byte} {s t : State} (h : rxStore b s = .next t) : t.trace = s.trace := by
  obtain ⟨_, rfl⟩ := rxStore_next h
  rfl

theorem rxAbort_keeps_trace {s t : State} (h : rxAbort s = .next t) : t.trace = s.trace := by
  obtain ⟨_, rfl⟩ := rxAbort_next h
  rfl

theorem rxStep_trace {s t : State} (h : rxStep s = .next t) : t.trace = s.trace ++ answerEvents s.answer := by
  rw [← heard_trace]
  obtain ⟨_, ⟨_, _, rfl⟩ | ⟨_, _, timeout⟩ | ⟨_, _, stored⟩ | ⟨_, noData⟩⟩ := rxStep_cases h
  · rfl
  · exact rxAbort_keeps_trace (rxAbort_of_missed timeout)
  · exact rxStore_keeps_trace stored
  · exact rxAbort_keeps_trace noData

theorem txStep_trace {s t : State} (h : txStep s = .next t) : ∃ b, t.trace = s.trace ++ [.tx b] := by
  obtain ⟨b, _, ⟨_, rfl⟩ | ⟨_, _, rfl⟩ | ⟨_, _, rfl⟩⟩ := txStep_cases h <;> exact ⟨b, rfl⟩

theorem engineStep_emitsOneStep {s t : State} (h : engineStep s = .next t) : EmitsOneStep s t := by
  obtain ⟨_, rfl⟩ | ⟨_, _, rfl⟩ | ⟨_, _, tx⟩ | ⟨_, _, rx⟩ | ⟨_, _, val⟩ | ⟨_, _, dec⟩ | ⟨_, _, rfl⟩ :=
    engineStep_cases h
  · exact .of_kept rfl
  · exact .of_event rfl nofun nofun
  · obtain ⟨b, sent⟩ := txStep_trace tx
    exact .of_event sent nofun nofun
  · exact .of_answer (rxStep_trace rx)
  · obtain ⟨_, _, _, rfl⟩ := valStep_cases val
    exact .of_kept rfl
  · injection dec with dec
    subst dec
    exact .of_kept rfl
  · exact .of_event rfl nofun nofun

theorem takeTurn_emitsOneStep {turn : Turn} {s t : State} (h : takeTurn turn s = .next t) : EmitsOneStep s t := by
  cases turn with
  | host w => exact .of_kept (exec_environment h).trace
  | engine => exact engineStep_emitsOneStep h
  | assertRst =>
    injection h with h
    exact .of_kept (h ▸ blockReset_trace s)
  | releaseRst =>
    injection h with h
    exact .of_kept (h ▸ released_trace s)

/-- Settles O19: the engine's step emits its phase's events; no other turn emits one. -/
theorem stepEmitsAtMostOneEventOrPollWithRd : Obligations.StepEmitsAtMostOneEventOrPollWithRd := by
  intro s t h
  show EmitsOneStep s t
  obtain ⟨_, engine⟩ | ⟨_, rest, _, turn⟩ := step_cases s
  · rw [engine] at h
    exact engineStep_emitsOneStep h
  · rw [turn] at h
    exact takeTurn_emitsOneStep (s := s.withAgenda rest) h

/-! ### The engine's reception is rx -/

/-- The engine stands where rx stands with `left` positions to fill, `w` false Polls at the first of them, and the
answers `as` to come (42_receiver.md R132). -/
structure StandsInRx (left w : Nat) (as : List SerialAnswer) (s : State) : Prop where
  alone : EngineAlone s
  ph : s.ph = if left = 0 then .val else .rx
  left : s.rxi.toNat + left = s.respLen.toNat
  inside : s.respLen.toNat ≤ rbSize
  wcnt : s.wcnt = w
  count : s.rxCount = s.rxi
  answers : s.answers = as

/-- `n` steps of the engine take `s` to the end of reception `t`, which stores the bytes `bs` and zeros after them, and
uses as many answers. -/
structure EngineReceives (n : Nat) (s t : State) (bs : List Byte) : Prop where
  run : EngineRun n s t ((s.answers.take n).flatMap answerEvents)
  ph : t.ph = .val
  count : t.rxCount.toNat = s.rxi.toNat + bs.length
  answers : t.answers = s.answers.drop n
  buffer : ∀ i, t.rbByte i
    = if s.rxi.toNat ≤ i ∧ i < s.respLen.toNat then bs.getD (i - s.rxi.toNat) 0 else s.rbByte i

section
variable {left w : Nat} {a : SerialAnswer} {as : List SerialAnswer} {s : State}

theorem StandsInRx.position (here : StandsInRx (left + 1) w as s) : s.rxi.toNat < s.respLen.toNat := by
  have := here.left
  omega

theorem StandsInRx.answer (here : StandsInRx left w (a :: as) s) : s.answer = a := by
  unfold State.answer
  rw [here.answers]

/-- A receive step is a step of the engine, with the answer's events (42_receiver.md R123). -/
theorem StandsInRx.step {t : State} (here : StandsInRx (left + 1) w (a :: as) s) (h : rxStep s = .next t) :
    EngineRun 1 s t (answerEvents a) :=
  .of_step here.alone.noTurn ((engineStep_released here.alone.released here.ph).trans h)
    (here.answer ▸ rxStep_trace h)

theorem StandsInRx.missed (here : StandsInRx (left + 1) w (.notReady :: as) s) :
    StandsInRx (left + 1) (w + 1) as s.heard.missed where
  alone := here.alone.of_frame ((heard_engineFrame s).trans (missed_engineFrame _))
  ph := by simpa using here.ph
  left := by simpa using here.left
  inside := by simpa using here.inside
  wcnt := by simpa using here.wcnt
  count := by simpa using here.count
  answers := by simp [here.answers]

theorem StandsInRx.stored {b : Byte} (here : StandsInRx (left + 1) w (.ready (.byte b) :: as) s) :
    StandsInRx left 0 as (s.heard.fill s.rxi.toNat [b]).stored where
  alone := here.alone.of_frame (rxStep_engineFrame (rxStep_stored here.position here.inside here.answer))
  ph := by
    have last : s.rxi.toNat + 1 = s.respLen.toNat ↔ left = 0 := by
      rw [← here.left]
      omega
    have rx : s.ph = .rx := here.ph
    simp [last, rx]
  left := by
    have advance := succ_toNat_of_lt here.position
    have := here.left
    simp only [stored_rxi, fill_rxi, heard_rxi, stored_respLen, fill_respLen, heard_respLen]
    omega
  inside := by simpa using here.inside
  wcnt := rfl
  count := by simp [here.count]
  answers := by simp [here.answers]

/-- Reception is over when every position is filled. -/
theorem StandsInRx.full (here : StandsInRx 0 w as s) : EngineReceives 0 s s [] where
  run := ⟨rfl, .refl s, by simp⟩
  ph := here.ph
  count := by rw [here.count]; rfl
  answers := rfl
  buffer i := by
    have := here.left
    rw [if_neg (by omega)]

/-- Reception is over, with a zero fill from e.RXI on, at an answer it gives up on (42_receiver.md R122, R125). -/
theorem StandsInRx.gaveUp (here : StandsInRx (left + 1) w (a :: as) s) (ends : s.givesUpOn a) :
    EngineReceives 1 s s.heard.zeroFilled [] where
  run := by
    simpa [here.answers] using here.step (rxStep_gaveUp here.position here.inside (here.answer.symm ▸ ends))
  ph := rfl
  count := by simp [State.zeroFilled, State.aborted, here.count]
  answers := by simp [State.zeroFilled]
  buffer := rbByte_zeroFilled s

/-- A false Poll before reception goes on at the same position. -/
theorem EngineReceives.after_missed {n : Nat} {t : State} {bs : List Byte}
    (here : StandsInRx (left + 1) w (.notReady :: as) s) (notLast : w + 1 ≠ s.params.maxWait.polls)
    (rest : EngineReceives n s.heard.missed t bs) : EngineReceives (n + 1) s t bs where
  run := by
    have first := here.step (rxStep_missed here.position here.answer (here.wcnt ▸ notLast))
    simpa [here.answers, Nat.add_comm] using first.trans rest.run
  ph := rest.ph
  count := by simpa using rest.count
  answers := by simpa [here.answers] using rest.answers
  buffer i := by
    have old : s.heard.missed.rbByte i = s.rbByte i := rbByte_heard s i
    simpa [old] using rest.buffer i

/-- A byte stored before reception goes on at the next position. -/
theorem EngineReceives.after_stored {n : Nat} {t : State} {b : Byte} {bs : List Byte}
    (here : StandsInRx (left + 1) w (.ready (.byte b) :: as) s)
    (rest : EngineReceives n (s.heard.fill s.rxi.toNat [b]).stored t bs) : EngineReceives (n + 1) s t (b :: bs) where
  run := by
    have first := here.step (rxStep_stored here.position here.inside here.answer)
    simpa [here.answers, Nat.add_comm] using first.trans rest.run
  ph := rest.ph
  count := by
    have count := rest.count
    simp only [stored_rxi, fill_rxi, heard_rxi, succ_toNat_of_lt here.position] at count
    rw [count, List.length_cons]
    omega
  answers := by simpa [here.answers] using rest.answers
  buffer i := by
    have position := here.position
    have after := rest.buffer i
    simp only [stored_rxi, fill_rxi, heard_rxi, succ_toNat_of_lt position, stored_respLen, fill_respLen,
      heard_respLen, rbByte_stored] at after
    rw [after]
    by_cases later : s.rxi.toNat + 1 ≤ i ∧ i < s.respLen.toNat
    · have shift : i - s.rxi.toNat = i - (s.rxi.toNat + 1) + 1 := by omega
      rw [if_pos later, if_pos (by omega), shift, List.getD_cons_succ]
    · rw [if_neg later]
      by_cases stored : i = s.rxi.toNat
      · rw [if_pos stored, if_pos (by omega), stored, Nat.sub_self, List.getD_cons_zero]
      · rw [if_neg stored, if_neg (by omega)]

end

/-- The engine follows rx from any point of it: each answer is one step (42_receiver.md R132). -/
theorem engineReceives_of_receives {m left w n : Nat} {as : List SerialAnswer} {bs : List Byte}
    (h : Receives m left w as bs n) {s : State} (here : StandsInRx left w as s)
    (budget : s.params.maxWait.polls = m) : ∃ t, EngineReceives n s t bs := by
  induction h generalizing s with
  | full => exact ⟨s, here.full⟩
  | timeout last => exact ⟨_, here.gaveUp (.inl ⟨rfl, by rw [here.wcnt, budget, last]⟩)⟩
  | noData => exact ⟨_, here.gaveUp (.inr rfl)⟩
  | missed notLast _ ih =>
    obtain ⟨t, rest⟩ := ih here.missed (by simpa using budget)
    exact ⟨t, rest.after_missed here (budget.symm ▸ notLast)⟩
  | stored b _ ih =>
    obtain ⟨t, rest⟩ := ih here.stored (by simpa using budget)
    exact ⟨t, rest.after_stored here⟩

/-- Bytes received from position 0 on, and zeros after them, are what RB[0..L) holds (42_receiver.md R127, R128). -/
theorem EngineReceives.rbSlice_eq {n : Nat} {s t : State} {bs : List Byte} (received : EngineReceives n s t bs)
    (first : s.rxi = 0) (length : bs.length ≤ s.respLen.toNat) :
    t.rbSlice 0 s.respLen.toNat = bs ++ List.replicate (s.respLen.toNat - bs.length) 0 := by
  apply List.ext_getElem
  · simp only [rbSlice_length, List.length_append, List.length_replicate]
    omega
  · intro i inside _
    rw [rbSlice_length] at inside
    rw [rbSlice_getElem, received.buffer, first, if_pos (by simpa using inside)]
    by_cases taken : i < bs.length
    · simp [List.getElem_append_left taken, taken]
    · simp [List.getElem_append_right (Nat.le_of_not_lt taken), Nat.le_of_not_lt taken]

/-- Settles O57: reception begins where rx begins, and the engine follows it to its end. -/
theorem receptionRefinesTheFunctionRx : Obligations.ReceptionRefinesTheFunctionRx := by
  intro s r released noTurn rx rxi wcnt rxCount response inside h
  obtain ⟨bs, n, run, rfl⟩ := receive_eq_some h
  have begins : StandsInRx s.respLen.toNat 0 s.answers s := {
    alone := ⟨released, noTurn⟩
    ph := by rw [rx, if_neg (by omega)]
    left := by simp [rxi]
    inside := inside
    wcnt := wcnt
    count := by rw [rxCount, rxi]
    answers := rfl }
  obtain ⟨t, received⟩ := engineReceives_of_receives run begins rfl
  refine ⟨t, received.run.run, received.ph, ?_, received.rbSlice_eq rxi run.length_le, fun i above => ?_,
    received.answers, received.run.trace⟩
  · simpa [rxi] using received.count
  · rw [received.buffer, if_neg (by omega)]

end Sys2Proof.Machine

namespace Sys2Proof.Machine

/-! ### The validator on a response laid out as prefix, payload and checksum byte (43_validator.md R140, R144) -/

section
variable (c0 c1 tail : Byte) (p : List Byte)

/-- A response in RB: two prefix bytes, the payload, and the received checksum in the last place. -/
def responseBytes : List Byte := c0 :: c1 :: (p ++ [tail])

theorem payload_responseBytes : payload (responseBytes c0 c1 tail p) (p.length + 3) = p :=
  List.take_left

theorem responseBytes_getD_zero : (responseBytes c0 c1 tail p).getD 0 0 = c0 := rfl

theorem responseBytes_getD_one : (responseBytes c0 c1 tail p).getD 1 0 = c1 := rfl

theorem responseBytes_getD_last : (responseBytes c0 c1 tail p).getD (p.length + 3 - 1) 0 = tail := by
  simp [responseBytes]

/-- The validator reads the payload through its length and its checksum alone. -/
theorem validate_responseBytes (n : Nat) :
    validate (responseBytes c0 c1 tail p) (p.length + 3) n
      = if n < p.length + 3 ∨ c0 ≠ statusA ∨ c1 ≠ statusC then ⟨false, false, 0, 0⟩
        else ⟨true, checksum p == tail, checksum p, tail⟩ := by
  have ends := validate_cases (responseBytes c0 c1 tail p) (p.length + 3) n
  rw [payload_responseBytes, responseBytes_getD_zero, responseBytes_getD_one,
    responseBytes_getD_last] at ends
  obtain ⟨rejected, verdict⟩ | ⟨whole, first, second, verdict⟩ := ends
  · rw [verdict, if_pos rejected]
  · have accepted : ¬ (n < p.length + 3 ∨ c0 ≠ statusA ∨ c1 ≠ statusC) := by
      simp [whole, first, second]
    rw [verdict, if_neg accepted]

end

/-- Settles O53: permuted payloads have one length and one checksum (40_checksum.md R103). -/
theorem payloadPermutationIsNotDetected : Obligations.PayloadPermutationIsNotDetected := by
  intro p q c0 c1 tail n permuted
  show validate (responseBytes c0 c1 tail p) _ n = validate (responseBytes c0 c1 tail q) _ n
  rw [validate_responseBytes, checksum_perm permuted, permuted.length_eq, validate_responseBytes]

end Sys2Proof.Machine

namespace Sys2Proof.Machine

/-! ### Records in RB (44_decoders.md R163 to R170) -/

/-- The filename starts at the slot's third byte and fills it (44_decoders.md R167, R169). -/
theorem devFilename_eq_rbSlice (s : State) (i : Nat) : s.devFilename i = s.rbSlice (4 + 38 * i) 36 := by
  apply List.ext_getElem
  · simp
  · intro k inName inSlice
    rw [rbSlice_getElem]
    simp only [State.devFilename, State.devSlot, List.getElem_drop, rbSlice_getElem, devSlotLen]
    congr 1
    omega

theorem mem_rbSlice {s : State} {a n : Nat} {b : Byte} : b ∈ s.rbSlice a n ↔ ∃ j, j < n ∧ s.rbByte (a + j) = b := by
  simp [State.rbSlice]

theorem slotPresent_rbSlice (s : State) (a n : Nat) :
    slotPresent (s.rbSlice a n) = true ↔ ∃ j, j < n ∧ s.rbByte (a + j) ≠ 0 := by
  simp [slotPresent, mem_rbSlice]

theorem filenameEmpty_rbSlice (s : State) (a n : Nat) :
    filenameEmpty (s.rbSlice a n) = true ↔ ∀ j, j < n → s.rbByte (a + j) = 0 := by
  simp [filenameEmpty, mem_rbSlice]

/-- A record shorter than 256 bytes has a length that fits a length register. -/
theorem nulLength_byte_toNat {bs : List Byte} (short : bs.length < 256) :
    (BitVec.ofNat 8 (nulLength bs)).toNat = nulLength bs := by
  rw [BitVec.toNat_ofNat]
  exact Nat.mod_eq_of_lt (Nat.lt_of_le_of_lt (nulLength_le bs) short)

/-- The length register of a record in RB: the index of the first zero, or the record's length (R165, R169). -/
theorem nulLength_rbSlice {s : State} {a n : Nat} {len : Byte} (short : n < 256)
    (register : len = BitVec.ofNat 8 (nulLength (s.rbSlice a n))) :
    len.toNat ≤ n ∧ (∀ j, j < len.toNat → s.rbByte (a + j) ≠ 0)
      ∧ (len.toNat < n → s.rbByte (a + len.toNat) = 0) := by
  have index : len.toNat = nulLength (s.rbSlice a n) := by
    rw [register, nulLength_byte_toNat (by rwa [rbSlice_length])]
  have inside : len.toNat ≤ n := register ▸ nulLength_byte_le (rbSlice_length s a n)
  refine ⟨inside, fun j before => ?_, fun found => ?_⟩
  · rw [← rbSlice_getD s a n j 0 (by omega)]
    exact nulLength_before _ j (index ▸ before)
  · rw [← rbSlice_getD s a n len.toNat 0 found, index]
    exact nulLength_at _ (by rwa [rbSlice_length, ← index])

/-! ### The decoder registers, slot by slot -/

section
variable (s : State) (i : Fin 8)

theorem decodeHosts_present :
    (decodeHosts s).hostPresent.getLsbD i.val = true ↔ ∃ j, j < 32 ∧ s.rbByte (2 + 32 * i.val + j) ≠ 0 := by
  rw [decodeHosts, slotMask_getLsbD]
  exact slotPresent_rbSlice s _ _

theorem decodeHosts_nlen :
    (decodeHosts s).hostNlen.get i = BitVec.ofNat 8 (nulLength (s.rbSlice (2 + 32 * i.val) 32)) :=
  slotLanes_get _ i

theorem decodeDevSlots_host : (decodeDevSlots s).devHost.get i = s.rbByte (2 + 38 * i.val) := by
  rw [decodeDevSlots, slotLanes_get]
  exact rbSlice_getD s _ _ 0 0 (by decide)

theorem decodeDevSlots_mode : (decodeDevSlots s).devMode.get i = s.rbByte (3 + 38 * i.val) := by
  have second : 3 + 38 * i.val = 2 + devSlotLen * i.val + 1 := by rw [devSlotLen]; omega
  rw [decodeDevSlots, slotLanes_get, second]
  exact rbSlice_getD s _ _ 1 0 (by decide)

theorem decodeDevSlots_flen :
    (decodeDevSlots s).devFlen.get i = BitVec.ofNat 8 (nulLength (s.rbSlice (4 + 38 * i.val) 36)) := by
  rw [decodeDevSlots, slotLanes_get, devFilename_eq_rbSlice]

theorem decodeDevSlots_empty :
    (decodeDevSlots s).devEmpty.getLsbD i.val = true ↔ ∀ j, j < 36 → s.rbByte (4 + 38 * i.val + j) = 0 := by
  rw [decodeDevSlots, slotMask_getLsbD, devFilename_eq_rbSlice]
  exact filenameEmpty_rbSlice s _ _

end

/-! ### The DEC step (45_commands.md R195; 44_decoders.md R160) -/

theorem engineStep_dec {s : State} (released : s.rst = false) (ph : s.ph = .dec) :
    engineStep s = .next { s with dec := decodeSelected s, ph := .cfgOut } :=
  engineStep_released released ph

theorem dv_eq_true {st : Status} (pv : st.pv = true) (cv : st.cv = true) : st.dv = true := by
  rw [Status.dv, pv, cv]
  rfl

theorem decodeSelected_hosts {s : State} (dv : s.status.dv = true) (lcmd : s.lcmd = 0xF4) :
    decodeSelected s = decodeHosts s := by
  rw [decodeSelected, if_pos dv, lcmd]
  rfl

theorem decodeSelected_devSlots {s : State} (dv : s.status.dv = true) (lcmd : s.lcmd = 0xF2) :
    decodeSelected s = decodeDevSlots s := by
  rw [decodeSelected, if_pos dv, lcmd]
  rfl

theorem engineStep_dec_hosts {s : State} (released : s.rst = false) (ph : s.ph = .dec) (pv : s.status.pv = true)
    (cv : s.status.cv = true) (lcmd : s.lcmd = 0xF4) :
    engineStep s = .next { s with dec := decodeHosts s, ph := .cfgOut } := by
  rw [engineStep_dec released ph, decodeSelected_hosts (dv_eq_true pv cv) lcmd]

theorem engineStep_dec_devSlots {s : State} (released : s.rst = false) (ph : s.ph = .dec) (pv : s.status.pv = true)
    (cv : s.status.cv = true) (lcmd : s.lcmd = 0xF2) :
    engineStep s = .next { s with dec := decodeDevSlots s, ph := .cfgOut } := by
  rw [engineStep_dec released ph, decodeSelected_devSlots (dv_eq_true pv cv) lcmd]

/-- Settles O42: the step runs the host decoder, whose registers are read slot by slot. -/
theorem decStepDecodesHosts : Obligations.DecStepDecodesHosts := by
  intro s released ph pv cv lcmd
  refine ⟨_, engineStep_dec_hosts released ph pv cv lcmd, rfl, fun i => ⟨?present, ?length⟩⟩
  case present => exact decodeHosts_present s i
  case length => exact nulLength_rbSlice (by decide) (decodeHosts_nlen s i)

/-- Settles O43: the step runs the device slot decoder, whose registers are read slot by slot. -/
theorem decStepDecodesDeviceSlots : Obligations.DecStepDecodesDeviceSlots := by
  intro s released ph pv cv lcmd
  refine ⟨_, engineStep_dec_devSlots released ph pv cv lcmd, rfl, fun i => ?_⟩
  obtain ⟨inside, before, found⟩ := nulLength_rbSlice (by decide) (decodeDevSlots_flen s i)
  exact ⟨decodeDevSlots_host s i, decodeDevSlots_mode s i, inside, before, found, decodeDevSlots_empty s i⟩

/-- Settles O44: the step's decoder is one of the two that write only under DV = 1 and their own code. -/
theorem decStepWritesNothingElsewhere : Obligations.DecStepWritesNothingElsewhere := by
  intro s released ph undecoded
  have kept : decodeSelected s = s.dec := by
    obtain noDecoder | ⟨dv, lcmd, -⟩ | ⟨dv, lcmd, -⟩ := decodeSelected_cases s
    · exact noDecoder
    all_goals
      obtain ⟨pv, cv⟩ := (Bool.and_eq_true _ _).mp dv
      simp [pv, cv, lcmd] at undecoded
  rw [engineStep_dec released ph, kept]

end Sys2Proof.Machine

namespace Sys2Proof.Machine

/-! ### The four command words (45_commands.md R185 to R190, R197) -/

/-- A command word on an idle machine is its accepted start request (45_commands.md R190; log entry 1). -/
theorem exec_command_idle {s : State} (released : s.rst = false) (idle : s.ph = .idle) (c : Command)
    (a1 a2 a3 a4 : Byte) : exec (c.instr a1 a2 a3 a4) s = .next (acceptStart c a1 a2 a3 a4 s) := by
  rw [exec_command, whileReleased_released _ _ released, whenIdle_idle _ _ idle]

/-- A command word in a transaction is ignored (45_commands.md R197). -/
theorem exec_command_busy {s : State} (released : s.rst = false) (busy : s.ph ≠ .idle) (c : Command)
    (a1 a2 a3 a4 : Byte) : exec (c.instr a1 a2 a3 a4) s = .next s := by
  rw [exec_command, whileReleased_released _ _ released, whenIdle_busy _ _ busy]

/-- Settles O21: the accepted start request with RESET's row of the command map. -/
theorem resetCommandStarts : Obligations.ResetCommandStarts :=
  fun _ a1 a2 a3 a4 released idle => exec_command_idle released idle .reset a1 a2 a3 a4

/-- Settles O22: the accepted start request with GET_SSID's row of the command map. -/
theorem getSsidStarts : Obligations.GetSsidStarts :=
  fun _ a1 a2 a3 a4 released idle => exec_command_idle released idle .getSsid a1 a2 a3 a4

/-- Settles O23: the accepted start request with GET_HOSTS's row of the command map. -/
theorem getHostsStarts : Obligations.GetHostsStarts :=
  fun _ a1 a2 a3 a4 released idle => exec_command_idle released idle .getHosts a1 a2 a3 a4

/-- Settles O24: the accepted start request with GET_DEVSLOTS's row of the command map. -/
theorem getDevSlotsStarts : Obligations.GetDevSlotsStarts :=
  fun _ a1 a2 a3 a4 released idle => exec_command_idle released idle .getDevSlots a1 a2 a3 a4

/-! ### WR of CTRL (45_commands.md R181, R189, R190) -/

theorem exec_wr_ctrl {s : State} {v : Half} (released : s.rst = false) (start : startBit v = true) :
    exec (.wr .ctrl v) s = startRequest s := by
  simp [exec, execWr, start, released]

theorem startRequest_illegal {s : State} (illegal : Command.ofCode s.cmd = none) :
    startRequest s = whileReleased s (whenIdle s (illegalStart s.cmd s)) := by
  rw [startRequest, illegal]

theorem startRequest_busy {s : State} (released : s.rst = false) (busy : s.ph ≠ .idle) :
    startRequest s = .next s := by
  cases code : Command.ofCode s.cmd with
  | none => rw [startRequest_illegal code, whileReleased_released _ _ released, whenIdle_busy _ _ busy]
  | some c => rw [startRequest_legal code, exec_command_busy released busy]

/-- Settles O25: both forms of a start request are guarded by the phase. -/
theorem startWhileBusyIsIgnored : Obligations.StartWhileBusyIsIgnored := by
  intro s released busy
  refine ⟨fun v start => ?_, fun a1 a2 a3 a4 => ⟨?_, ?_, ?_, ?_⟩⟩
  · rw [exec_wr_ctrl released start, startRequest_busy released busy]
  · exact exec_command_busy released busy .reset a1 a2 a3 a4
  · exact exec_command_busy released busy .getSsid a1 a2 a3 a4
  · exact exec_command_busy released busy .getHosts a1 a2 a3 a4
  · exact exec_command_busy released busy .getDevSlots a1 a2 a3 a4

/-- A code other than the four is no command's (30_encoding.md R81, R84). -/
theorem ofCode_eq_none {b : Byte} (h : ∀ c : Command, b ≠ c.code) : Command.ofCode b = none :=
  Option.eq_none_iff_forall_ne_some.mpr fun c code => h c (ofCode_eq_some.mp code)

/-- Settles O26: no command has the code in CMD, so the request is the illegal start. -/
theorem startWithAnIllegalCode : Obligations.StartWithAnIllegalCode := by
  intro s v released idle start notReset notSsid notHosts notDevSlots
  have illegal : Command.ofCode s.cmd = none := ofCode_eq_none fun c => by
    cases c with
    | reset => exact notReset
    | getSsid => exact notSsid
    | getHosts => exact notHosts
    | getDevSlots => exact notDevSlots
  rw [exec_wr_ctrl released start, startRequest_illegal illegal, whileReleased_released _ _ released,
    whenIdle_idle _ _ idle]
  rfl

/-- Settles O27: each code is its command's. -/
theorem startRunsTheCommandInTheRegisters : Obligations.StartRunsTheCommandInTheRegisters := by
  intro s v start
  have run : ∀ c : Command, s.cmd = c.code → exec (.wr .ctrl v) s = exec (c.instr s.arg1 s.arg2 s.arg3 s.arg4) s :=
    fun c code => exec_wr_ctrl_start start (ofCode_eq_some.mpr code)
  exact ⟨run .reset, run .getSsid, run .getHosts, run .getDevSlots⟩

/-! ### WR of the other registers (45_commands.md R181) -/

/-- A write that is no start request stores or does nothing. -/
theorem exec_wr_store {s : State} {r : Reg} {v : Half} (released : s.rst = false)
    (noStart : ¬ (r = .ctrl ∧ startBit v = true)) : exec (.wr r v) s = .next (s.storeRegister r v) := by
  rw [exec, execWr, if_neg noStart, whileReleased_released _ _ released]

/-- The registers from number 0x06 on are read-only or unassigned (10_state.md R20, R39). -/
theorem storeRegister_of_readOnly {r : Reg} (readOnly : 6 ≤ r.number.toNat) (s : State) (v : Half) :
    s.storeRegister r v = s := by
  cases r with
  | cmd | arg1 | arg2 | arg3 | arg4 => exact absurd readOnly (by decide)
  | _ => rfl

theorem exec_wr_readOnly {s : State} {r : Reg} {v : Half} (released : s.rst = false)
    (readOnly : 6 ≤ r.number.toNat) : exec (.wr r v) s = .next s := by
  have notCtrl : r ≠ .ctrl := by
    rintro rfl
    exact absurd readOnly (by decide)
  rw [exec_wr_store released (fun start => notCtrl start.1), storeRegister_of_readOnly readOnly]

/-- Settles O28: the number's register decides between a start request, a store and nothing. -/
theorem writeStoresOrIsIgnored : Obligations.WriteStoresOrIsIgnored := by
  intro s v released
  have store : ∀ {r : Reg}, r ≠ .ctrl → exec (.wr r v) s = .next (s.storeRegister r v) := fun notCtrl =>
    exec_wr_store released fun start => notCtrl start.1
  refine ⟨exec_wr_ctrl released, fun noStart => ?_, store nofun, store nofun, store nofun, store nofun, store nofun,
    fun n readOnly => ?_, startRequest_next s⟩
  · exact exec_wr_store (r := .ctrl) released fun start => Bool.eq_false_iff.mp noStart start.2
  · exact exec_wr_readOnly released (by rwa [number_ofNumber])

theorem exec_wr_next (r : Reg) (v : Half) (s : State) : ∃ t, exec (.wr r v) s = .next t := by
  refine whileReleased_next ?_
  split
  · exact startRequest_next s
  · exact ⟨_, rfl⟩

/-- Settles O29: a write answers a next state, and no instruction writes the trace or RB. -/
theorem everyWriteCompletes : Obligations.EveryWriteCompletes := by
  intro r v s
  obtain ⟨t, next⟩ := exec_wr_next r v s
  have kept := exec_environment next
  exact ⟨t, next, kept.trace, kept.rb⟩

/-! ### RD (45_commands.md R182) -/

theorem exec_rd {s : State} (released : s.rst = false) (r : Reg) :
    exec (.rd r) s = .next (s.deliver (s.readRegister r)) :=
  whileReleased_released _ _ released

/-- The numbers of the registers that stand alone, and of the frame's (10_state.md R20). -/
def singleNumbers : List Byte :=
  [0x00, 0x01, 0x02, 0x03, 0x04, 0x05, 0x06, 0x07, 0x08, 0x09, 0x0A, 0x0B, 0x0C, 0x10, 0x11, 0x12, 0x13, 0x14, 0x15,
    0x16, 0x20, 0x48]

/-- The gaps of the register map (10_state.md R20, R39). -/
theorem ofNumber_unassigned {n : Byte}
    (gap : (0x0D ≤ n.toNat ∧ n.toNat ≤ 0x0F) ∨ (0x17 ≤ n.toNat ∧ n.toNat ≤ 0x1F)
      ∨ (0x29 ≤ n.toNat ∧ n.toNat ≤ 0x2F) ∨ 0x49 ≤ n.toNat) : Reg.ofNumber n = .unassigned n := by
  have noRegister : assignedNumber n = false := by
    simp only [assignedNumber, Bool.or_eq_false_iff, Bool.and_eq_false_iff, decide_eq_false_iff_not]
    omega
  exact ofNumber_number (.unassigned n) (by rw [Reg.wellFormed, noRegister]; rfl)

/-- Settles O30: RD delivers the register its number names. -/
theorem readReturnsTheRegister : Obligations.ReadReturnsTheRegister := by
  intro s released
  have read : ∀ {n : Byte} {r : Reg}, Reg.ofNumber n = r →
      exec (.rd (Reg.ofNumber n)) s = .next (s.deliver (s.readRegister r)) := fun named => named ▸ exec_rd released _
  refine ⟨fun p listed => ?_, fun k => ⟨?_, ?_, ?_, ?_⟩, fun n gap => ?_⟩
  · obtain ⟨n, -, rfl⟩ : ∃ n ∈ singleNumbers, (n, s.readRegister (Reg.ofNumber n)) = p := List.mem_map.mp listed
    exact read rfl
  · exact read (ofNumber_number (.hostNlen k) rfl)
  · exact read (ofNumber_number (.devHost k) rfl)
  · exact read (ofNumber_number (.devMode k) rfl)
  · exact read (ofNumber_number (.devFlen k) rfl)
  · exact read (ofNumber_unassigned gap)

end Sys2Proof.Machine

namespace Sys2Proof.Machine

/-! ### The engine's steps, one per phase (45_commands.md R191 to R198) -/

/-- Settles O37: with `rst` asserted or released, the step is none. -/
theorem engineWaitsInIdle : Obligations.EngineWaitsInIdle := by
  intro s idle
  cases level : s.rst with
  | true => exact engineStep_asserted level
  | false => exact engineStep_released level idle

/-- Settles O38: the phase's step emits CfgEnter and enters TX. -/
theorem cfgInStepEntersTx : Obligations.CfgInStepEntersTx :=
  fun _ => engineStep_released

/-- Settles O45: the phase's step emits CfgExit and finishes the transaction. -/
theorem cfgOutStepEndsTheTransaction : Obligations.CfgOutStepEndsTheTransaction :=
  fun _ => engineStep_released

/-- TX reads the frame bytes that the host reads in FRAME0..FRAME6 (10_state.md R38, R42). -/
theorem byteAt_ofNat (x : Frame) (k : Fin 7) : x.byteAt (BitVec.ofNat 3 k.val) = some (x.get k) := by
  match k with
  | 0 | 1 | 2 | 3 | 4 | 5 | 6 => rfl

theorem engineStep_txMore {s : State} {k : Fin 7} (released : s.rst = false) (ph : s.ph = .tx) (more : k.val < 6)
    (txi : s.txi = BitVec.ofNat 3 k.val) :
    engineStep s = .next { s with
      trace := s.trace ++ [.tx (s.frame.get k)], txi := BitVec.ofNat 3 (k.val + 1) } := by
  have byte : s.frame.byteAt s.txi = some (s.frame.get k) := txi ▸ byteAt_ofNat s.frame k
  have index : s.txi.toNat = k.val := by
    rw [txi, BitVec.toNat_ofNat]
    omega
  have advance : s.txi + 1 = BitVec.ofNat 3 (k.val + 1) := txi ▸ (BitVec.ofNat_add k.val 1).symm
  rw [engineStep_released released ph, ← advance]
  exact txStep_more byte (index ▸ more)

/-- The seventh Tx ends TX, towards CFG_OUT or towards reception (45_commands.md R192). -/
theorem engineStep_txLast {s : State} (released : s.rst = false) (ph : s.ph = .tx) (txi : s.txi = 6) :
    engineStep s = .next
      (if s.respLen = 0 then (s.emit (.tx s.frame.checksum)).enter .cfgOut
       else (s.emit (.tx s.frame.checksum)).enterReception) := by
  have byte : s.frame.byteAt s.txi = some s.frame.checksum := txi ▸ byteAt_ofNat s.frame 6
  have last : ¬ s.txi.toNat < 6 := by
    rw [txi]
    decide
  rw [engineStep_released released ph]
  exact (txStep_eq byte).trans (congrArg _ (if_neg last))

/-- Settles O39: the byte at e.TXI, and where TX goes after the seventh. -/
theorem txStepSendsTheNextFrameByte : Obligations.TxStepSendsTheNextFrameByte := by
  intro s released ph
  refine ⟨fun k more txi => engineStep_txMore released ph more txi, fun txi noResponse => ?_,
    fun txi response => ?_⟩
  · rw [engineStep_txLast released ph txi, if_pos noResponse]
    rfl
  · rw [engineStep_txLast released ph txi, if_neg response]
    rfl

/-! ### The VAL step (43_validator.md R140 to R147) -/

/-- The validator on RB[0..L): prefix 'A' 'C', payload and last byte are bytes of RB (43_validator.md R142 to R144). -/
theorem validate_rbSlice (s : State) {len n : Nat} (atLeast : 3 ≤ len) :
    validate (s.rbSlice 0 len) len n
      = if n < len ∨ s.rbByte 0 ≠ 0x41 ∨ s.rbByte 1 ≠ 0x43 then ⟨false, false, 0, 0⟩
        else ⟨true, checksum (s.rbSlice 2 (len - 3)) == s.rbByte (len - 1), checksum (s.rbSlice 2 (len - 3)),
          s.rbByte (len - 1)⟩ := by
  have byte : ∀ k, k < len → (s.rbSlice 0 len).getD k 0 = s.rbByte k := fun k inside =>
    (rbSlice_getD s 0 len k 0 inside).trans (by rw [Nat.zero_add])
  rw [validate, ← ite_or, payload_rbSlice, byte 0 (by omega), byte 1 (by omega), byte (len - 1) (by omega)]
  rfl

/-- The state after the VAL step (45_commands.md R194). -/
def State.judged (s : State) : State :=
  (s.report (validate (s.rbSlice 0 s.respLen.toNat) s.respLen.toNat s.rxCount.toNat)).enter .dec

theorem engineStep_val {s : State} (released : s.rst = false) (ph : s.ph = .val) (atLeast : 3 ≤ s.respLen.toNat)
    (count : s.rxCount.toNat ≤ s.respLen.toNat) (inside : s.respLen.toNat ≤ rbSize) :
    engineStep s = .next s.judged :=
  (engineStep_released released ph).trans (valStep_eq atLeast count inside)

/-- Settles O41: the step reports the validator's verdict on RB[0..L). -/
theorem valStepWritesTheVerdict : Obligations.ValStepWritesTheVerdict := by
  intro s released ph atLeast inside count
  rw [engineStep_val released ph atLeast count inside, State.judged, validate_rbSlice s atLeast]
  by_cases rejected : s.rxCount.toNat < s.respLen.toNat ∨ s.rbByte 0 ≠ 0x41 ∨ s.rbByte 1 ≠ 0x43
  · rw [if_pos rejected, if_pos rejected]
    rfl
  · rw [if_neg rejected, if_neg rejected]
    rfl

end Sys2Proof.Machine

namespace Sys2Proof.Machine

/-! ### Runs of an engine left alone, step by step -/

theorem exists_step_of_run {k : Nat} {s v : State} (h : Sys2Proof.core.run (k + 1) s = .next v) :
    ∃ u, step s = .next u ∧ Sys2Proof.core.run k u = .next v := by
  cases first : step s with
  | next u => exact ⟨u, rfl, run_of_step first k ▸ h⟩
  | fault r => simp [Host.Core.run, Sys2Proof.core, first] at h
  | refused r => simp [Host.Core.run, Sys2Proof.core, first] at h

theorem exists_of_run_add {j k : Nat} {s v : State} (h : Sys2Proof.core.run (j + k) s = .next v) :
    ∃ u : State, Sys2Proof.core.run j s = .next u ∧ Sys2Proof.core.run k u = .next v := by
  induction j generalizing s with
  | zero => exact ⟨s, rfl, Nat.zero_add k ▸ h⟩
  | succ j ih =>
    rw [Nat.succ_add] at h
    obtain ⟨w, first, rest⟩ := exists_step_of_run h
    rw [run_of_step first]
    exact ih rest

/-- What the engine's step keeps holds along every run of an engine left alone. -/
theorem run_keeps {P : State → Prop} (keeps : ∀ {s t : State}, P s → engineStep s = .next t → P t) {k : Nat}
    {s t : State} (alone : EngineAlone s) (start : P s) (run : Sys2Proof.core.run k s = .next t) : P t := by
  induction k generalizing s with
  | zero =>
    injection run with run
    exact run ▸ start
  | succ k ih =>
    obtain ⟨u, first, rest⟩ := exists_step_of_run run
    rw [step_of_noTurn alone.noTurn] at first
    exact ih (alone.of_frame (engineStep_engineFrame first)) (keeps start first) rest

/-! ### STATUS in a transaction -/

theorem rxStep_keeps_status {s t : State} (h : rxStep s = .next t) : t.status = s.status := by
  obtain ⟨_, ⟨_, _, rfl⟩ | ⟨_, _, timeout⟩ | ⟨_, _, stored⟩ | ⟨_, noData⟩⟩ := rxStep_cases h
  · simp
  · obtain ⟨_, rfl⟩ := rxAbort_next timeout
    simp
  · obtain ⟨_, rfl⟩ := rxStore_next stored
    simp
  · obtain ⟨_, rfl⟩ := rxAbort_next noData
    simp

theorem txStep_keeps_status {s t : State} (h : txStep s = .next t) : t.status = s.status := by
  obtain ⟨_, _, ⟨_, rfl⟩ | ⟨_, _, rfl⟩ | ⟨_, _, rfl⟩⟩ := txStep_cases h <;> rfl

/-- An engine step writes PV and CV at most, or it ends the transaction (45_commands.md R194, R196). -/
theorem engineStep_status {s t : State} (h : engineStep s = .next t) :
    (∃ pv cv, t.status = { s.status with pv := pv, cv := cv })
    ∨ (t.ph = .idle ∧ t.status = { s.status with busy := false, done := true }) := by
  have kept : t.status = s.status → ∃ pv cv, t.status = { s.status with pv := pv, cv := cv } :=
    fun same => ⟨_, _, same⟩
  obtain ⟨_, rfl⟩ | ⟨_, _, rfl⟩ | ⟨_, _, tx⟩ | ⟨_, _, rx⟩ | ⟨_, _, val⟩ | ⟨_, _, dec⟩ | ⟨_, _, rfl⟩ :=
    engineStep_cases h
  · exact .inl (kept rfl)
  · exact .inl (kept rfl)
  · exact .inl (kept (txStep_keeps_status tx))
  · exact .inl (kept (rxStep_keeps_status rx))
  · obtain ⟨_, _, _, rfl⟩ := valStep_cases val
    exact .inl ⟨_, _, rfl⟩
  · injection dec with dec
    exact .inl (kept (dec ▸ rfl))
  · exact .inr ⟨rfl, rfl⟩

/-- ILL = 0 and RSP = 1, as the start of a response transaction leaves them (45_commands.md R190). -/
def ExpectsResponse (s : State) : Prop := s.status.ill = false ∧ s.status.rsp = true

theorem engineStep_keeps_expectsResponse {s t : State} (expects : ExpectsResponse s) (h : engineStep s = .next t) :
    ExpectsResponse t := by
  obtain ⟨_, _, status⟩ | ⟨_, status⟩ := engineStep_status h
  · rw [ExpectsResponse, status]
    exact expects
  · rw [ExpectsResponse, status]
    exact expects

/-- BUSY is 1 in a transaction (10_state.md R25). -/
def BusyInTransaction (s : State) : Prop := s.ph ≠ .idle → s.status.busy = true

theorem engineStep_keeps_idle {s t : State} (idle : s.ph = .idle) (h : engineStep s = .next t) : t.ph = .idle := by
  rw [engineWaitsInIdle s idle] at h
  injection h with h
  exact h ▸ idle

theorem engineStep_keeps_busyInTransaction {s t : State} (busy : BusyInTransaction s) (h : engineStep s = .next t) :
    BusyInTransaction t := by
  intro going
  obtain ⟨_, _, status⟩ | ⟨idle, _⟩ := engineStep_status h
  · rw [status]
    exact busy fun idle => going (engineStep_keeps_idle idle h)
  · exact absurd idle going

/-- A run that has not come back to IDLE was BUSY all along, since the engine does not leave IDLE by itself. -/
theorem busy_of_run {n : Nat} {s v : State} (alone : EngineAlone s) (busy : BusyInTransaction s)
    (run : Sys2Proof.core.run n s = .next v) (going : v.ph ≠ .idle) {j : Nat} (before : j ≤ n) :
    ∃ u : State, Sys2Proof.core.run j s = .next u ∧ u.status.busy = true := by
  rw [← Nat.add_sub_of_le before] at run
  obtain ⟨u, first, rest⟩ := exists_of_run_add run
  have aloneThere : EngineAlone u :=
    run_keeps (fun here h => here.of_frame (engineStep_engineFrame h)) alone alone first
  have notIdle : u.ph ≠ .idle := fun idle =>
    going (run_keeps (P := fun w => w.ph = .idle) engineStep_keeps_idle aloneThere idle rest)
  exact ⟨u, first, run_keeps engineStep_keeps_busyInTransaction alone busy first notIdle⟩

/-- The CFG_OUT step ends a run, BUSY until then (45_commands.md R196, R199). -/
theorem finish_run {n : Nat} {s v : State} {es : List Event} (alone : EngineAlone s) (busy : BusyInTransaction s)
    (run : EngineRun n s v es) (ph : v.ph = .cfgOut) :
    EngineRun (n + 1) s (v.emit .cfgExit).finish (es ++ [.cfgExit])
      ∧ ∀ j, j < n + 1 → ∃ u : State, Sys2Proof.core.run j s = .next u ∧ u.status.busy = true := by
  have there := alone.after run
  have last : EngineRun 1 v (v.emit .cfgExit).finish [.cfgExit] :=
    .of_step there.noTurn (engineStep_released there.released ph) rfl
  exact ⟨run.trans last, fun _ before => busy_of_run alone busy run.run (by simp [ph]) (Nat.le_of_lt_succ before)⟩

/-! ### Sending, with the state it leaves -/

/-- The state in TX after `k` of the frame's first six bytes (45_commands.md R192). -/
def State.sent (s : State) (k : Nat) : State :=
  { s with trace := s.trace ++ (s.frame.bytes.take k).map .tx, txi := BitVec.ofNat 3 k }

theorem frame_take_succ (x : Frame) (k : Fin 7) : x.bytes.take (k.val + 1) = x.bytes.take k.val ++ [x.get k] := by
  match k with
  | 0 | 1 | 2 | 3 | 4 | 5 | 6 => rfl

theorem sent_zero {s : State} (txi : s.txi = 0) : s.sent 0 = s := by
  ext1 <;> simp [State.sent, txi]

theorem sent_succ (s : State) (k : Fin 7) :
    s.sent (k.val + 1) = { s.sent k.val with
      trace := (s.sent k.val).trace ++ [.tx (s.frame.get k)], txi := BitVec.ofNat 3 (k.val + 1) } := by
  simp [State.sent, frame_take_succ]

theorem sent_run {s : State} (alone : EngineAlone s) (ph : s.ph = .tx) (txi : s.txi = 0) {k : Nat} (bound : k ≤ 6) :
    EngineRun k s (s.sent k) ((s.frame.bytes.take k).map .tx) := by
  induction k with
  | zero =>
    rw [sent_zero txi]
    exact ⟨rfl, .refl s, by simp⟩
  | succ k ih =>
    obtain ⟨index, rfl⟩ : ∃ index : Fin 7, index.val = k := ⟨⟨k, by omega⟩, rfl⟩
    have first := ih (by omega)
    have there := alone.after first
    have next : EngineRun 1 (s.sent index.val) (s.sent (index.val + 1)) [.tx (s.frame.get index)] := by
      rw [sent_succ]
      exact .of_step there.noTurn (engineStep_txMore there.released ph bound rfl) rfl
    rw [frame_take_succ, List.map_append]
    exact first.trans next

/-- The state in TX after CfgEnter and the whole frame (20_memory.md R72; log entry 13). -/
def State.frameSent (s : State) : State :=
  { s with trace := s.trace ++ [.cfgEnter s.params.portCfg] ++ frameEvents s.frame, txi := 6, ph := .tx }

/-- The seventh byte completes the frame. -/
theorem emit_sent_six (s : State) :
    (((s.emit (.cfgEnter s.params.portCfg)).enter .tx).sent 6).emit (.tx s.frame.checksum) = s.frameSent := by
  simp [State.sent, State.emit, State.enter, State.frameSent, frameEvents, Frame.bytes]

/-- From CFG_IN a transaction takes eight steps to CFG_OUT or to reception (45_commands.md R191, R192). -/
theorem opening_run {s : State} (alone : EngineAlone s) (ph : s.ph = .cfgIn) (txi : s.txi = 0) :
    EngineRun 8 s (if s.respLen = 0 then s.frameSent.enter .cfgOut else s.frameSent.enterReception)
      ([.cfgEnter s.params.portCfg] ++ frameEvents s.frame) := by
  have opened := cfgIn_run alone ph
  have sixSent := opened.trans (sent_run (alone.after opened) rfl txi (Nat.le_refl 6))
  have there := alone.after sixSent
  have last : EngineRun 1 (((s.emit (.cfgEnter s.params.portCfg)).enter .tx).sent 6)
      (if s.respLen = 0 then s.frameSent.enter .cfgOut else s.frameSent.enterReception) [.tx s.frame.checksum] := by
    rw [← emit_sent_six]
    exact .of_step there.noTurn (engineStep_txLast there.released rfl rfl) (by split <;> rfl)
  exact sixSent.trans last

/-- Settles O54: eight steps to CFG_OUT, and its step. -/
theorem resetTransactionTakesNineSteps : Obligations.ResetTransactionTakesNineSteps := by
  intro s a1 a2 a3 a4 released idle noTurn
  have alone : EngineAlone (acceptStart .reset a1 a2 a3 a4 s) := ⟨released, noTurn⟩
  have noResponse : (acceptStart .reset a1 a2 a3 a4 s).respLen = 0 := rfl
  have opened := opening_run alone rfl rfl
  rw [if_pos noResponse] at opened
  obtain ⟨whole, busy⟩ := finish_run alone (fun _ => rfl) opened rfl
  exact ⟨_, exec_command_idle released idle .reset a1 a2 a3 a4, whole.run, busy⟩

/-! ### Reception and the steps after it -/

theorem answersLeft_pos {s : State} (receiving : Receiving s) : 0 < s.answersLeft := by
  have position : 1 ≤ s.respLen.toNat - s.rxi.toNat := Nat.sub_pos_of_lt receiving.position
  exact Nat.sub_pos_of_lt (Nat.lt_of_lt_of_le receiving.budget (Nat.le_mul_of_pos_left _ position))

/-- Reception takes at least one answer and at most those its budget leaves (42_receiver.md R130). -/
theorem reception_run {s : State} (alone : EngineAlone s) (receiving : Receiving s) :
    ∃ (n : Nat) (t : State) (es : List Event), 1 ≤ n ∧ n ≤ s.answersLeft ∧ EngineRun n s t es ∧ Received t := by
  induction left : s.answersLeft using Nat.strong_induction_on generalizing s with
  | h m ih =>
    subst left
    obtain ⟨t, h, trace, progress⟩ := rxStep_progress receiving
    have first := EngineRun.of_step alone.noTurn ((engineStep_released alone.released receiving.ph).trans h) trace
    obtain received | ⟨stillReceiving, fewer⟩ := progress
    · exact ⟨1, t, _, Nat.le_refl 1, answersLeft_pos receiving, first, received⟩
    · obtain ⟨n, u, es, -, within, rest, received⟩ := ih t.answersLeft fewer (alone.after first) stillReceiving rfl
      exact ⟨1 + n, u, _, by omega, by omega, first.trans rest, received⟩

/-- The state after the DEC step (45_commands.md R195). -/
def State.decoded (s : State) : State := { s with dec := decodeSelected s, ph := .cfgOut }

/-- VAL and DEC take a step each and emit nothing (45_commands.md R194, R195). -/
theorem judging_run {s : State} (alone : EngineAlone s) (received : Received s) (atLeast : 3 ≤ s.respLen.toNat)
    (inside : s.respLen.toNat ≤ rbSize) : EngineRun 2 s s.judged.decoded [] := by
  have val : EngineRun 1 s s.judged [] :=
    .of_step alone.noTurn (engineStep_val alone.released received.ph atLeast received.count inside)
      (List.append_nil _).symm
  have there := alone.after val
  have dec : EngineRun 1 s.judged s.judged.decoded [] :=
    .of_step there.noTurn (engineStep_dec there.released rfl) (List.append_nil _).symm
  exact val.trans dec

/-! ### A transaction with a response, around its reception -/

/-- The state in which the reception of an accepted response command begins (42_receiver.md R120). -/
def receptionStart (c : Command) (a1 a2 a3 a4 : Byte) (s : State) : State :=
  (acceptStart c a1 a2 a3 a4 s).frameSent.enterReception

/-- The state after VAL, DEC and CFG_OUT (45_commands.md R194 to R196). -/
def State.concluded (s : State) : State := (s.judged.decoded.emit .cfgExit).finish

@[simp] theorem concluded_ph (s : State) : s.concluded.ph = .idle := rfl

@[simp] theorem concluded_rxCount (s : State) : s.concluded.rxCount = s.rxCount := by
  simp [State.concluded, State.decoded, State.judged]

@[simp] theorem concluded_respLen (s : State) : s.concluded.respLen = s.respLen := by
  simp [State.concluded, State.decoded, State.judged]

@[simp] theorem concluded_answers (s : State) : s.concluded.answers = s.answers := by
  simp [State.concluded, State.decoded, State.judged]

theorem rbByte_concluded (s : State) (a : Nat) : s.concluded.rbByte a = s.rbByte a := by
  apply rbByte_congr <;> simp [State.concluded, State.decoded, State.judged]

theorem rbSlice_concluded (s : State) (a n : Nat) : s.concluded.rbSlice a n = s.rbSlice a n :=
  rbSlice_congr a n fun i _ _ => rbByte_concluded s i

section
variable {c : Command} {a1 a2 a3 a4 : Byte} {s : State}

theorem engineAlone_receptionStart (released : s.rst = false) (noTurn : s.agenda = []) :
    EngineAlone (receptionStart c a1 a2 a3 a4 s) := ⟨released, noTurn⟩

theorem receiving_receptionStart (response : c ≠ .reset) : Receiving (receptionStart c a1 a2 a3 a4 s) := by
  obtain ⟨long, inside⟩ := respLen_of_response response
  exact {
    ph := rfl
    position := by
      show 0 < c.respLen.toNat
      omega
    inside := inside
    count := rfl
    budget := s.params.maxWait.positive }

theorem expectsResponse_receptionStart (response : c ≠ .reset) :
    ExpectsResponse (receptionStart c a1 a2 a3 a4 s) := by
  obtain ⟨long, -⟩ := respLen_of_response response
  exact ⟨rfl, (expectsResponse_iff c).mpr (Nat.zero_lt_of_lt long)⟩

/-- A reception of `n` steps makes a transaction of 11 + n, BUSY until its end (45_commands.md R199). -/
theorem response_transaction {n : Nat} {v : State} {es : List Event} (response : c ≠ .reset) (released : s.rst = false)
    (noTurn : s.agenda = []) (reception : EngineRun n (receptionStart c a1 a2 a3 a4 s) v es) (received : Received v) :
    (∃ fs, EngineRun (11 + n) (acceptStart c a1 a2 a3 a4 s) v.concluded fs)
      ∧ ∀ j, j < 11 + n →
          ∃ u : State, Sys2Proof.core.run j (acceptStart c a1 a2 a3 a4 s) = .next u ∧ u.status.busy = true := by
  obtain ⟨long, inside⟩ := respLen_of_response response
  have alone : EngineAlone (acceptStart c a1 a2 a3 a4 s) := ⟨released, noTurn⟩
  have expected : (acceptStart c a1 a2 a3 a4 s).respLen ≠ 0 := fun zero => by
    rw [acceptStart_respLen] at zero
    simp [zero] at long
  have opened := opening_run alone rfl rfl
  rw [if_neg expected] at opened
  have filled := opened.trans reception
  have respLen : v.respLen = c.respLen := filled.kept.respLen
  have judged := filled.trans
    (judging_run (alone.after filled) received (by rw [respLen]; omega) (by rw [respLen]; exact inside))
  have steps : 11 + n = 8 + n + 2 + 1 := by omega
  rw [steps]
  obtain ⟨whole, busy⟩ := finish_run alone (fun _ => rfl) judged rfl
  exact ⟨⟨_, whole⟩, busy⟩

end

/-- Settles O55: the reception of the transaction takes 1 to L × P_MAX_WAIT steps. -/
theorem responseTransactionEndsInBoundedSteps : Obligations.ResponseTransactionEndsInBoundedSteps := by
  intro s c a1 a2 a3 a4 response released idle noTurn
  obtain ⟨n, v, es, atLeast, within, reception, received⟩ :=
    reception_run (engineAlone_receptionStart released noTurn) (receiving_receptionStart (s := s) response)
  have budget : n ≤ c.respLen.toNat * s.params.maxWait.polls := within
  obtain ⟨⟨fs, whole⟩, busy⟩ := response_transaction response released noTurn reception received
  exact ⟨_, 11 + n, exec_command_idle released idle c a1 a2 a3 a4, by omega, by omega,
    ⟨v.concluded, whole.run, rfl, rfl, rfl, whole.kept.lcmd⟩, busy⟩

/-! ### A valid response (43_validator.md R141 to R144) -/

/-- Answers that are all bytes fill every position, one answer each (42_receiver.md R124). -/
theorem receives_bytes (m w : Nat) (bs : List Byte) (more : List SerialAnswer) :
    Receives m bs.length w (bs.map (fun b => .ready (.byte b)) ++ more) bs bs.length := by
  induction bs generalizing w with
  | nil => exact .full
  | cons b bs ih => exact .stored b (ih 0)

/-- A response with the prefix 'A' 'C' and its payload's checksum in the last place (43_validator.md R142, R143). -/
def validResponse (p : List Byte) : List Byte := responseBytes statusA statusC (checksum p) p

theorem validResponse_length (p : List Byte) : (validResponse p).length = p.length + 3 := by
  simp [validResponse, responseBytes]

theorem validate_validResponse (p : List Byte) :
    validate (validResponse p) (p.length + 3) (p.length + 3) = ⟨true, true, checksum p, checksum p⟩ := by
  rw [validResponse, validate_responseBytes, if_neg (by simp), beq_self_eq_true]

/-- Reception is over and RB[0..L) is a whole valid response with payload `p`. -/
structure ReceivedValid (p : List Byte) (v : State) : Prop where
  ph : v.ph = .val
  respLen : v.respLen.toNat = p.length + 3
  count : v.rxCount = v.respLen
  buffer : v.rbSlice 0 v.respLen.toNat = validResponse p

/-- What VAL, DEC and CFG_OUT make of a valid response (43_validator.md R145, 60_exceptions.md R211). -/
theorem ReceivedValid.concluded {p : List Byte} {v : State} (valid : ReceivedValid p v) :
    v.concluded.status = ⟨false, true, true, true, v.status.ill, v.status.rsp⟩
      ∧ v.concluded.expChk = checksum p ∧ v.concluded.rcvChk = checksum p := by
  have verdict : validate (v.rbSlice 0 v.respLen.toNat) v.respLen.toNat v.rxCount.toNat
      = ⟨true, true, checksum p, checksum p⟩ := by
    rw [valid.buffer, valid.count, valid.respLen, validate_validResponse]
  have judged : v.judged = (v.report ⟨true, true, checksum p, checksum p⟩).enter .dec := by
    rw [State.judged, verdict]
  rw [State.concluded, judged]
  exact ⟨rfl, rfl, rfl⟩

/-- The payload stands in RB from byte 2 on (43_validator.md R144). -/
theorem ReceivedValid.payload {p : List Byte} {v : State} (valid : ReceivedValid p v) : v.rbSlice 2 p.length = p := by
  have slice := payload_rbSlice v v.respLen.toNat
  rw [valid.buffer, valid.respLen] at slice
  exact slice.symm.trans (payload_responseBytes _ _ _ p)

theorem outcome_ok {u : State} (status : u.status = ⟨false, true, true, true, false, true⟩)
    (count : u.rxCount = u.respLen) : u.outcome = .ok := by
  simp [State.outcome, status, count]

/-- PAY_LEN of a response (10_state.md R37). -/
theorem payLenOf_toNat {len : Half} (atLeast : 3 ≤ len.toNat) : (payLenOf len).toNat = len.toNat - 3 := by
  rw [payLenOf, if_pos (by omega)]
  exact BitVec.toNat_sub_of_le atLeast

section
variable {c : Command} {a1 a2 a3 a4 : Byte} {s : State} {p : List Byte} {more : List SerialAnswer}

/-- The engine receives a valid response whole, one step per byte (42_receiver.md R124, R132). -/
theorem validResponse_reception (response : c ≠ .reset) (released : s.rst = false) (noTurn : s.agenda = [])
    (length : p.length + 3 = c.respLen.toNat)
    (answers : s.answers = (validResponse p).map (fun b => .ready (.byte b)) ++ more) :
    ∃ v, EngineReceives c.respLen.toNat (receptionStart c a1 a2 a3 a4 s) v (validResponse p)
      ∧ ReceivedValid p v ∧ v.respLen = c.respLen ∧ v.answers = more := by
  have all : (validResponse p).length = c.respLen.toNat := (validResponse_length p).trans length
  have begins : StandsInRx c.respLen.toNat 0 s.answers (receptionStart c a1 a2 a3 a4 s) := {
    alone := engineAlone_receptionStart released noTurn
    ph := by rw [if_neg (by omega)]; rfl
    left := Nat.zero_add _
    inside := (respLen_of_response response).2
    wcnt := rfl
    count := rfl
    answers := rfl }
  have taken := receives_bytes s.params.maxWait.polls 0 (validResponse p) more
  rw [all, ← answers] at taken
  obtain ⟨v, received⟩ := engineReceives_of_receives taken begins rfl
  have respLen : v.respLen = c.respLen := received.run.kept.respLen
  have count : v.rxCount.toNat = c.respLen.toNat := received.count.trans ((Nat.zero_add _).trans all)
  have buffer : v.rbSlice 0 c.respLen.toNat
      = validResponse p ++ List.replicate (c.respLen.toNat - (validResponse p).length) 0 :=
    received.rbSlice_eq rfl all.le
  have left : v.answers = s.answers.drop c.respLen.toNat := received.answers
  refine ⟨v, received, ⟨received.ph, ?_, ?_, ?_⟩, respLen, ?_⟩
  · rw [respLen, length]
  · rw [respLen]
    exact BitVec.eq_of_toNat_eq count
  · rw [respLen, buffer, all, Nat.sub_self, List.replicate_zero, List.append_nil]
  · rw [left, answers, List.drop_left' (by rw [List.length_map, all])]

end

/-- Settles O59: the response is received whole, its verdict is good, and its payload is RB[2..L-2]. -/
theorem validResponseIsDeliveredUnmodified : Obligations.ValidResponseIsDeliveredUnmodified := by
  intro s c a1 a2 a3 a4 p more response released idle noTurn length answers
  obtain ⟨v, reception, valid, respLen, left⟩ :=
    validResponse_reception (a1 := a1) (a2 := a2) (a3 := a3) (a4 := a4) response released noTurn length answers
  obtain ⟨⟨fs, whole⟩, -⟩ :=
    response_transaction response released noTurn reception.run ⟨valid.ph, by rw [valid.count]⟩
  obtain ⟨long, -⟩ := respLen_of_response response
  obtain ⟨ill, rsp⟩ : ExpectsResponse v :=
    run_keeps engineStep_keeps_expectsResponse (engineAlone_receptionStart released noTurn)
      (expectsResponse_receptionStart response) reception.run.run
  obtain ⟨reported, expChk, rcvChk⟩ := valid.concluded
  have status : v.concluded.status = ⟨false, true, true, true, false, true⟩ := by
    rw [reported, ill, rsp]
  have payLen : v.concluded.payLen.toNat = p.length := by
    rw [whole.kept.payLen, acceptStart_payLen, payLenOf_toNat (by omega)]
    omega
  have count : v.concluded.rxCount = v.concluded.respLen := by
    rw [concluded_rxCount, concluded_respLen, valid.count]
  refine ⟨_, v.concluded, exec_command_idle released idle c a1 a2 a3 a4, whole.run, concluded_ph v,
    outcome_ok status count, ?_, ?_, ?_, expChk, rcvChk, ?_⟩
  · rw [status]
    rfl
  · rw [count, concluded_respLen, respLen]
  · rw [State.viewBytes, State.payloadView, payLen, rbSlice_concluded, valid.payload]
  · rw [concluded_answers, left]

end Sys2Proof.Machine

namespace Sys2Proof.Machine

/-- Settles O6: the engine's step and every turn answer a next state under the invariant. -/
theorem noStepStopsUnderTheInvariant : Obligations.NoStepStopsUnderTheInvariant := fun _ hi => step_next hi

/-! ### outcome(), one reading per outcome (60_exceptions.md R212) -/

theorem outcome_eq_illegal_iff {s : State} : s.outcome = .illegal ↔ s.status.ill = true := by
  unfold State.outcome
  split_ifs <;> simp_all

theorem outcome_eq_sent_iff {s : State} : s.outcome = .sent ↔ s.status.ill = false ∧ s.status.rsp = false := by
  unfold State.outcome
  split_ifs <;> simp_all

theorem outcome_eq_short {s : State} (short : s.outcome = .short) :
    s.status.rsp = true ∧ s.rxCount.toNat < s.respLen.toNat := by
  unfold State.outcome at short
  split_ifs at short with ill rsp lost
  exact ⟨by simpa using rsp, lost⟩

theorem outcome_eq_protocol {s : State} (protocol : s.outcome = .protocol) :
    s.status.rsp = true ∧ s.respLen.toNat ≤ s.rxCount.toNat ∧ s.status.pv = false := by
  unfold State.outcome at protocol
  split_ifs at protocol with ill rsp lost pv
  exact ⟨by simpa using rsp, Nat.le_of_not_lt lost, by simpa using pv⟩

theorem outcome_eq_checksum {s : State} (mismatch : s.outcome = .checksum) :
    s.status.rsp = true ∧ s.status.pv = true ∧ s.status.cv = false := by
  unfold State.outcome at mismatch
  split_ifs at mismatch with ill rsp lost pv cv
  exact ⟨by simpa using rsp, by simpa using pv, by simpa using cv⟩

theorem outcome_eq_ok {s : State} (ok : s.outcome = .ok) :
    s.status.rsp = true ∧ s.status.pv = true ∧ s.status.cv = true := by
  unfold State.outcome at ok
  split_ifs at ok with ill rsp lost pv cv
  exact ⟨by simpa using rsp, by simpa using pv, by simpa using cv⟩

/-! ### RSP and the latched code -/

/-- RESP_LEN is 0 for RESET and for an illegal code, and for no other (30_encoding.md R83; 10_state.md R36). -/
theorem respLenOf_eq_zero_iff (c : Byte) : respLenOf c = 0 ↔ Command.ofCode c = none ∨ c = 0xFF := by
  unfold respLenOf
  cases code : Command.ofCode c with
  | none => simp
  | some k => rw [ofCode_eq_some.1 code]; cases k <;> decide

/-- RSP is 0 exactly when no response is expected (10_state.md R31). -/
theorem ControlInv.rsp_eq_false_iff {s : State} (hc : ControlInv s) : s.status.rsp = false ↔ s.respLen = 0 := by
  rw [← Bool.not_eq_true, hc.rsp, Nat.not_lt, Nat.le_zero]
  exact BitVec.toNat_inj (y := 0)

/-- Once the request is done, ILL says whether its code was illegal (10_state.md R30). -/
theorem ControlInv.ill_iff {s : State} (hc : ControlInv s) (done : s.status.done = true) :
    s.status.ill = true ↔ Command.ofCode s.lcmd = none :=
  hc.ill.trans (and_iff_right done)

/-- A finished transaction has left the engine in IDLE (10_state.md R25, R26). -/
theorem ControlInv.idle_of_done {s : State} (hc : ControlInv s) (done : s.status.done = true) : s.ph = .idle :=
  by_contra fun running => hc.notBoth ⟨hc.busy.2 running, done⟩

theorem ControlInv.outcome_eq_illegal_iff {s : State} (hc : ControlInv s) (done : s.status.done = true) :
    s.outcome = .illegal ↔ Command.ofCode s.lcmd = none :=
  Machine.outcome_eq_illegal_iff.trans (hc.ill_iff done)

theorem ControlInv.outcome_eq_sent_iff {s : State} (hc : ControlInv s) (done : s.status.done = true) :
    s.outcome = .sent ↔ s.lcmd = 0xFF := by
  rw [Machine.outcome_eq_sent_iff, ← Bool.not_eq_true, hc.ill_iff done, hc.rsp_eq_false_iff, hc.respLen,
    respLenOf_eq_zero_iff]
  constructor
  · rintro ⟨legal, illegal | isReset⟩
    · exact absurd illegal legal
    · exact isReset
  · intro isReset
    exact ⟨by rw [isReset]; decide, .inr isReset⟩

theorem ControlInv.rsp_eq_false_of_ill {s : State} (hc : ControlInv s) (done : s.status.done = true)
    (ill : s.status.ill = true) : s.status.rsp = false := by
  rw [hc.rsp_eq_false_iff, hc.respLen, respLenOf_eq_zero_iff]
  exact .inl ((hc.ill_iff done).1 ill)

/-! ### What the validator left in the registers (43_validator.md R140 to R147) -/

/-- The registers after a response that came short or did not begin with 'A' 'C' (43_validator.md R147). -/
structure Unverified (s : State) : Prop where
  pv : s.status.pv = false
  cv : s.status.cv = false
  expChk : s.expChk = 0
  rcvChk : s.rcvChk = 0
  cause : s.rxCount.toNat < s.respLen.toNat ∨ s.rbByte 0 ≠ 0x41 ∨ s.rbByte 1 ≠ 0x43

/-- The registers after a whole response that begins with 'A' 'C' (43_validator.md R143 to R145). -/
structure Verified (s : State) : Prop where
  pv : s.status.pv = true
  cv : s.status.cv = true ↔ s.expChk = s.rcvChk
  count : s.rxCount = s.respLen
  expChk : s.expChk = checksum (s.rbSlice 2 (s.respLen.toNat - 3))
  rcvChk : s.rcvChk = s.rbByte (s.respLen.toNat - 1)
  first : s.rbByte 0 = 0x41
  second : s.rbByte 1 = 0x43

/-- RX_COUNT never passes RESP_LEN, so a response that is not short is whole (10_state.md R35). -/
theorem ReceiverInv.count_eq {s : State} (hr : ReceiverInv s) (whole : s.respLen.toNat ≤ s.rxCount.toNat) :
    s.rxCount = s.respLen :=
  BitVec.eq_of_toNat_eq (hr.count.antisymm whole)

/-- A finished transaction with a response shows one of the two ends of the validator. -/
theorem MachineInv.unverified_or_verified {s : State} (hi : MachineInv s) (done : s.status.done = true)
    (rsp : s.status.rsp = true) : Unverified s ∨ Verified s := by
  have response := hi.control.rsp.1 rsp
  have verdict := hi.result.verdict (by rw [hi.control.idle_of_done done]; rfl) response
  rw [validate_rbSlice s (Nat.le_trans (by decide) (hi.response_long response))] at verdict
  split at verdict <;> injection verdict with pv cv expChk rcvChk
  case isTrue cause => exact .inl ⟨pv, cv, expChk, rcvChk, cause⟩
  case isFalse noCause =>
    simp only [not_or, not_not, Nat.not_lt] at noCause
    obtain ⟨whole, first, second⟩ := noCause
    have agree : s.status.cv = true ↔ s.expChk = s.rcvChk := by rw [cv, expChk, rcvChk, beq_iff_eq]
    exact .inr ⟨pv, agree, hi.receiver.count_eq whole, expChk, rcvChk, first, second⟩

theorem MachineInv.unverified {s : State} (hi : MachineInv s) (done : s.status.done = true)
    (rsp : s.status.rsp = true) (pv : s.status.pv = false) : Unverified s :=
  (hi.unverified_or_verified done rsp).resolve_right fun verified => by simp [verified.pv] at pv

theorem MachineInv.verified {s : State} (hi : MachineInv s) (done : s.status.done = true)
    (rsp : s.status.rsp = true) (pv : s.status.pv = true) : Verified s :=
  (hi.unverified_or_verified done rsp).resolve_left fun unverified => by simp [unverified.pv] at pv

/-- A short response was not verified: verification takes a whole one (43_validator.md R141). -/
theorem MachineInv.unverified_of_short {s : State} (hi : MachineInv s) (done : s.status.done = true)
    (rsp : s.status.rsp = true) (short : s.rxCount.toNat < s.respLen.toNat) : Unverified s :=
  (hi.unverified_or_verified done rsp).resolve_right fun verified => by simp [verified.count] at short

/-- Settles O8: ILL and RSP follow the latched code, and with a response the registers show one of the validator's
two ends. -/
theorem outcomesFollowTheRegisters : Obligations.OutcomesFollowTheRegisters := by
  intro s hi done
  refine ⟨hi.control.outcome_eq_illegal_iff done, fun illegal => ?_, hi.control.outcome_eq_sent_iff done,
    fun sent => ?_, fun short => ?_, fun protocol => ?_, fun mismatch => ?_, fun ok => ?_⟩
  · have ill := outcome_eq_illegal_iff.1 illegal
    exact ⟨ill, hi.control.rsp_eq_false_of_ill done ill⟩
  · obtain ⟨ill, rsp⟩ := outcome_eq_sent_iff.1 sent
    obtain ⟨pv, cv, -, -⟩ := hi.result.unread (.inr (hi.control.rsp_eq_false_iff.1 rsp))
    exact ⟨rsp, ill, pv, cv⟩
  · obtain ⟨rsp, lost⟩ := outcome_eq_short short
    have u := hi.unverified_of_short done rsp lost
    exact ⟨rsp, u.pv, u.cv, lost, u.expChk, u.rcvChk⟩
  · obtain ⟨rsp, whole, pv⟩ := outcome_eq_protocol protocol
    have u := hi.unverified done rsp pv
    exact ⟨rsp, pv, u.cv, hi.receiver.count_eq whole, u.expChk, u.rcvChk, u.cause.resolve_left whole.not_gt⟩
  · obtain ⟨rsp, pv, cv⟩ := outcome_eq_checksum mismatch
    have v := hi.verified done rsp pv
    have differ : s.expChk ≠ s.rcvChk := fun equal => by simp [v.cv.2 equal] at cv
    exact ⟨rsp, pv, cv, v.count, differ, v.expChk, v.rcvChk, v.first, v.second⟩
  · obtain ⟨rsp, pv, cv⟩ := outcome_eq_ok ok
    have v := hi.verified done rsp pv
    exact ⟨rsp, pv, cv, v.count, v.cv.1 cv, v.expChk, v.rcvChk, v.first, v.second⟩

end Sys2Proof.Machine

namespace Sys2Proof.Machine

/-! ### Asserting `rst`, and the machine while it is asserted (70_reset_and_hazards.md R230, R231) -/

/-- The turn leaves the agenda before block reset, which keeps the rest of the agenda (log entry 12). -/
theorem step_of_assertRst {s : State} {rest : List Turn} (turn : s.agenda = .assertRst :: rest) :
    step s = .next (s.withAgenda rest).blockReset :=
  step_of_turn turn

/-- Settles O3: block reset, whose next state is written out, comes whatever the phase is. -/
theorem assertingRstAbandonsTheTransaction : Obligations.AssertingRstAbandonsTheTransaction := by
  intro s rest turn
  rw [step_of_assertRst turn]
  rfl

/-- Every instruction runs under the guard of `rst`: the four command words' start requests and the four host
operations alike. -/
theorem exec_asserted {s : State} (level : s.rst = true) (i : Instr) : exec i s = .next s := by
  cases i with
  | reset | getSsid | getHosts | getDevSlots => exact whileReleased_asserted s _ level
  | wr | rd | rdb | nop => exact whileReleased_asserted s _ level

/-- Settles O4: the guard of `rst` on the instructions, and the one on the engine's step. -/
theorem nothingHappensWhileRstIsAsserted : Obligations.NothingHappensWhileRstIsAsserted :=
  fun _ level => ⟨exec_asserted level, engineStep_asserted level⟩

end Sys2Proof.Machine
